-- ==== Sys2Proof/Word.lean ====
section
/-! DEFINITION. The word types of the block: everything the spec gives a width (spec/00_scope.md R4, R6). -/

namespace Sys2Proof

/-- One byte on the link, and every 8-bit register. -/
abbrev Byte := BitVec 8

/-- A reading of the tick counter, `TICK_WIDTH` = 8 bits (R211). -/
abbrev Tick := BitVec 8

/-- A flash `MemoryAddress`, `FLASH_ADDR_WIDTH` = 32 bits (R4, R46). -/
abbrev FlashAddr := BitVec 32

/-- An EEPROM address, `EE_ADDR_WIDTH` = 16 bits (R4, R48). -/
abbrev EeAddr := BitVec 16

/-- A ClockSpeedSetting as its enumeration value, 4 bits (R12, R60). -/
abbrev Setting := BitVec 4

/-- A wire command, format W4: the first byte on the wire is bits 31:24 (R69). -/
abbrev WireWord := BitVec 32

/-- A host command word, format H56 (R81). -/
abbrev HostWord := BitVec 56

/-- The width of a word, read off its type: how a width parameter of R4 gets its value, so that it stands in one place. -/
def widthOf {n : Nat} (_ : BitVec n) : Nat := n

end Sys2Proof
end

