-- ==== Sys2Proof/Machine/Events.lean ====
section
/-! DEFINITION. What the link shows: the lines, their levels, and the observable events (R40, R41, R58). -/

namespace Sys2Proof.Machine

/-- The three output lines (R40). -/
inductive Line where
  | rst
  | sck
  | mosi
deriving DecidableEq, Repr

/-- The levels the block puts on the three lines, `none` = high impedance (R41). -/
structure Wire where
  rst : Option Bool
  sck : Option Bool
  mosi : Option Bool
deriving DecidableEq, Repr

/-- The observable events (R58). `line` is a write of a line by its latch or by the engine, `wire` the levels on the wire
after an action on the link, `sample` a level read from MISO (the wire trace, R58 (a)); `byte` one `Transmit`, `wait` one
`Wait(n)` (the byte trace, R58 (b)); `delay` one `DelayTicks(n)`, `tick` one reading of the counter by `PollFlash`. -/
inductive Event where
  | line (l : Line) (level : Bool)
  | wire (w : Wire)
  | sample (level : Bool)
  | byte (tx rx : Byte)
  | wait (units : Nat)
  | delay (ticks : Tick)
  | tick (reading : Tick)
deriving DecidableEq, Repr

end Sys2Proof.Machine
end

