-- ==== Sys2Proof/Config.lean ====
section
/-! DEFINITION. What an implementation fixes (the record of parameters of spec/00_scope.md R4; its values stand in
Machine/Params.lean) and the free values: what the block's environment answers and the spec does not fix. -/

namespace Sys2Proof

/-- One row of `HW_TABLE`: a hardware setting with its prescaler field and double-speed flag (R63). -/
structure HwRow where
  setting : Setting
  presc : BitVec 2
  dbl : Bool
deriving DecidableEq, Repr

/-- The parameters of R4, one field per row of its table, by the names of the table. -/
structure Params where
  nHw : Nat
  nTotal : Nat
  nSw : Nat
  idxAuto : Setting
  idxSwMin : Setting
  idxSwMax : Setting
  idxHwMin : Setting
  idxMax : Setting
  autoDefault : Setting
  entryDefault : Setting
  triesPerSpeed : Nat
  speedBump : Bool
  /-- `T_UNIT` in microseconds -/
  unitMicros : Nat
  unitTicks : Tick
  tickWidth : Nat
  /-- `T_TICK` in microseconds, as numerator and denominator -/
  tickMicros : Nat × Nat
  resetPulseUnits : Nat
  settleUnits : Nat
  flashDelayUnits : Nat
  pollBudget : BitVec 5
  eepromDelayUnits : Nat
  pollBusyByte : Byte
  pollErasedByte : Byte
  hiaddrSentinel : Byte
  flashAddrWidth : Nat
  eeAddrWidth : Nat
  /-- `F_REF` in hertz -/
  fRefHz : Nat
  swDelayHw : Byte
  hwTable : List HwRow
deriving DecidableEq, Repr

/-- What drives the MISO line at one sample: nobody, or a level (R34, R42 as the rules that cite it have it, log entry 4). -/
inductive Drive where
  | released
  | driven (level : Bool)
deriving DecidableEq, Repr, Inhabited

/-- FREE VALUE (R55, U11; log entry 4): how the target drives MISO at a sample no script answers, given the history of events,
the latest first. -/
opaque Config.targetDrive : List Machine.Event → Drive

/-- FREE VALUE (U10; log entry 4): the n-th level read from a MISO line that nobody drives and no pull-up holds. -/
opaque Config.floatLevel : Nat → Bool

/-- FREE VALUE (R211, U16; log entry 5): the n-th reading of the tick counter no script gives. -/
opaque Config.tickReading : Nat → Tick

end Sys2Proof
end

