-- ==== Sys2Proof/Machine/Params.lean ====
section
/-! DEFINITION. The values of the parameters of spec/00_scope.md R4, in one record, so that the machine can be configured
anew without touching a rule; every rule names the parameter. The three widths are those of the types `Tick`, `FlashAddr` and
`EeAddr`, which every rule uses (Word.lean). -/

namespace Sys2Proof.Machine

/-- `HW_TABLE` (R63; the document's table is lost, the values are the spec's decision D5: log entry 9). -/
def hwTable : List HwRow :=
  [{ setting := 12, presc := 0, dbl := false }, { setting := 11, presc := 1, dbl := true },
   { setting := 10, presc := 1, dbl := false }, { setting := 9, presc := 2, dbl := true },
   { setting := 8, presc := 2, dbl := false }, { setting := 7, presc := 3, dbl := false }]

/-- The table of R4 (log entry 9 says which values the document fixes and which the spec decided). -/
def params : Params where
  nHw := 6
  nTotal := 12
  nSw := 6
  idxAuto := 0
  idxSwMin := 1
  idxSwMax := 6
  idxHwMin := 7
  idxMax := 12
  autoDefault := 9
  entryDefault := 12
  triesPerSpeed := 3
  speedBump := false
  unitMicros := 320
  unitTicks := 60
  tickWidth := widthOf (0 : Tick)
  tickMicros := (16, 3)
  resetPulseUnits := 1
  settleUnits := 63
  flashDelayUnits := 15
  pollBudget := 30
  eepromDelayUnits := 30
  pollBusyByte := 0x7F
  pollErasedByte := 0xFF
  hiaddrSentinel := 0xFF
  flashAddrWidth := widthOf (0 : FlashAddr)
  eeAddrWidth := widthOf (0 : EeAddr)
  fRefHz := 12000000
  swDelayHw := 1
  hwTable := hwTable

end Sys2Proof.Machine
end

