-- ==== Sys2Proof/Syntax.lean ====
section
/-! DEFINITION. The instructions: one constructor per row of spec/opcode_table.json, nine wire commands (R72 to R80) and
nine host operations (R86). -/

namespace Sys2Proof

/-- The 18 rows of the opcode table. For the flash wire commands `a` = `address[16:9]` and `b` = `address[8:1]` (R70), for
the EEPROM ones `a` = `address[15:8]` and `b` = `address[7:0]` (R71); `d` is the data byte. -/
inductive Instr where
  /-- `AC 53 00 00` (R72) -/
  | progEnable
  /-- `4D 00 h 00` (R73) -/
  | loadExtAddr (h : Byte)
  /-- `20 a b 00` (R74) -/
  | readFlashLo (a b : Byte)
  /-- `28 a b 00` (R75) -/
  | readFlashHi (a b : Byte)
  /-- `40 a b d` (R76) -/
  | writeFlashLo (a b d : Byte)
  /-- `48 a b d` (R77) -/
  | writeFlashHi (a b d : Byte)
  /-- `4C a b 00` (R78) -/
  | writeFlashPage (a b : Byte)
  /-- `A0 a b 00` (R79) -/
  | wireReadEeprom (a b : Byte)
  /-- `C0 a b d` (R80) -/
  | wireWriteEeprom (a b d : Byte)
  /-- `setSpeed(option)` (R90) -/
  | setSpeed (option : Setting)
  /-- `connect()` (R121) -/
  | connect
  /-- `disconnect()` (R124) -/
  | disconnect
  /-- `enterProgrammingMode()` (R135) -/
  | enterProg
  /-- `readFlash(address)` (R170) -/
  | readFlash (address : FlashAddr)
  /-- `writeFlash(address, data, pollMode)` (R172) -/
  | writeFlash (address : FlashAddr) (data pollMode : Byte)
  /-- `flushPage(address, pollValue)` (R178) -/
  | flushPage (address : FlashAddr) (pollValue : Byte)
  /-- `readEEPROM(address)` (R180) -/
  | readEeprom (address : EeAddr)
  /-- `writeEEPROM(address, data)` (R181) -/
  | writeEeprom (address : EeAddr) (data : Byte)
deriving DecidableEq, Repr

/-- The two formats of the table: W4, a wire command of four bytes (R69); H56, a host command word (R81). -/
inductive Format where
  | w4
  | h56
deriving DecidableEq, Repr

/-- The table's format of each row. -/
def Instr.format : Instr → Format
  | .progEnable => .w4
  | .loadExtAddr _ => .w4
  | .readFlashLo _ _ => .w4
  | .readFlashHi _ _ => .w4
  | .writeFlashLo _ _ _ => .w4
  | .writeFlashHi _ _ _ => .w4
  | .writeFlashPage _ _ => .w4
  | .wireReadEeprom _ _ => .w4
  | .wireWriteEeprom _ _ _ => .w4
  | .setSpeed _ => .h56
  | .connect => .h56
  | .disconnect => .h56
  | .enterProg => .h56
  | .readFlash _ => .h56
  | .writeFlash _ _ _ => .h56
  | .flushPage _ _ => .h56
  | .readEeprom _ => .h56
  | .writeEeprom _ _ => .h56

/-- The length of each format in bytes: every wire command is four bytes, every host command is one word of 56 bits (R85). -/
def Format.bytes : Format → Nat
  | .w4 => 4
  | .h56 => 7

end Sys2Proof
end

