-- ==== Sys2Proof/WellFormed.lean ====
section
/-! DEFINITION. Which instructions are well formed: the only operand the spec bounds is the speed option, at most
`IDX_MAX` (R84). -/

namespace Sys2Proof

/-- The option of `setSpeed` is one of the settings 0 (`AUTO`) to `IDX_MAX`; those above are reserved (R60, R84). Every other
operand is free over its width (R46, R48, R49, R82). -/
def Instr.wellFormed : Instr → Bool
  | .setSpeed option => decide (option.toNat ≤ Machine.params.idxMax.toNat)
  | .progEnable => true
  | .loadExtAddr _ => true
  | .readFlashLo _ _ => true
  | .readFlashHi _ _ => true
  | .writeFlashLo _ _ _ => true
  | .writeFlashHi _ _ _ => true
  | .writeFlashPage _ _ => true
  | .wireReadEeprom _ _ => true
  | .wireWriteEeprom _ _ _ => true
  | .connect => true
  | .disconnect => true
  | .enterProg => true
  | .readFlash _ => true
  | .writeFlash _ _ _ => true
  | .flushPage _ _ => true
  | .readEeprom _ => true
  | .writeEeprom _ _ => true

end Sys2Proof
end

