-- ==== Sys2Proof/Decode.lean ====
section
/-! DEFINITION. Decoding, total on any word and any bytes and rejecting by name, and the encoder, both from the patterns
of spec/30_encoding.md (R69 to R81, R84 to R86). -/

namespace Sys2Proof

/-- Why bits spell no instruction. -/
inductive DecodeError where
  /-- A host word whose selector is 0x09 to 0xFF (R85). -/
  | unknownSelector
  /-- A `setSpeed` word with `aux[7:4] != 0` (R81, R84). -/
  | auxHighBits
  /-- A `setSpeed` word with option 13 to 15 (R84). -/
  | reservedOption
  /-- A wire word whose first byte is none of the nine opcodes (R85). -/
  | unknownOpcode
  /-- A wire word with one of the nine opcodes and another byte than the row's pattern fixes (R72 to R79). -/
  | fixedByte
  /-- Neither four bytes (a wire command) nor seven (a host word) (R85). -/
  | badLength
deriving DecidableEq, Repr

/-! ### Fields -/

/-- Byte `k` of a wire word, 0 the first on the wire (R69). -/
def wireByte (w : WireWord) (k : Nat) : Byte := w.extractLsb' (8 * (3 - k)) 8

/-- A wire word from its four bytes in the order they are sent (R69). -/
def wireWord (opc b2 b3 b4 : Byte) : WireWord := opc ++ b2 ++ b3 ++ b4

/-- `cmd[55:48]` (R81). -/
def hostSelector (w : HostWord) : Byte := w.extractLsb' 48 8

/-- `cmd[47:16]` (R81). -/
def hostAddr (w : HostWord) : FlashAddr := w.extractLsb' 16 32

/-- `cmd[15:8]` (R81). -/
def hostData (w : HostWord) : Byte := w.extractLsb' 8 8

/-- `cmd[7:0]` (R81). -/
def hostAux (w : HostWord) : Byte := w.extractLsb' 0 8

/-- A host word from its four fields (R81). -/
def hostWord (selector : Byte) (addr : FlashAddr) (data aux : Byte) : HostWord := selector ++ addr ++ data ++ aux

/-! ### Decoding -/

/-- `i` where the pattern's fixed bytes stand as the row has them. -/
def whenFixed (fixed : Bool) (i : Instr) : Except DecodeError Instr := if fixed then .ok i else .error .fixedByte

/-- The wire commands by their first byte; the other fixed bytes of the row are compared too (R72 to R80, R85). -/
def decodeWire (w : WireWord) : Except DecodeError Instr :=
  if wireByte w 0 = 0xAC then
    whenFixed (wireByte w 1 = 0x53 && wireByte w 2 = 0x00 && wireByte w 3 = 0x00) .progEnable
  else if wireByte w 0 = 0x4D then
    whenFixed (wireByte w 1 = 0x00 && wireByte w 3 = 0x00) (.loadExtAddr (wireByte w 2))
  else if wireByte w 0 = 0x20 then whenFixed (wireByte w 3 = 0x00) (.readFlashLo (wireByte w 1) (wireByte w 2))
  else if wireByte w 0 = 0x28 then whenFixed (wireByte w 3 = 0x00) (.readFlashHi (wireByte w 1) (wireByte w 2))
  else if wireByte w 0 = 0x40 then .ok (.writeFlashLo (wireByte w 1) (wireByte w 2) (wireByte w 3))
  else if wireByte w 0 = 0x48 then .ok (.writeFlashHi (wireByte w 1) (wireByte w 2) (wireByte w 3))
  else if wireByte w 0 = 0x4C then whenFixed (wireByte w 3 = 0x00) (.writeFlashPage (wireByte w 1) (wireByte w 2))
  else if wireByte w 0 = 0xA0 then whenFixed (wireByte w 3 = 0x00) (.wireReadEeprom (wireByte w 1) (wireByte w 2))
  else if wireByte w 0 = 0xC0 then .ok (.wireWriteEeprom (wireByte w 1) (wireByte w 2) (wireByte w 3))
  else .error .unknownOpcode

/-- `setSpeed`'s operand: `aux[7:4]` must be 0 and the option at most `IDX_MAX` (R81, R84). -/
def decodeSetSpeed (aux : Byte) : Except DecodeError Instr :=
  if aux.extractLsb' 4 4 ≠ 0 then .error .auxHighBits
  else if Machine.params.idxMax.toNat < (aux.extractLsb' 0 4).toNat then .error .reservedOption
  else .ok (.setSpeed (aux.extractLsb' 0 4))

/-- The host operations by their selector; fields an operation does not use are ignored (R81, R85, R86). -/
def decodeHost (w : HostWord) : Except DecodeError Instr :=
  if hostSelector w = 0x00 then decodeSetSpeed (hostAux w)
  else if hostSelector w = 0x01 then .ok .connect
  else if hostSelector w = 0x02 then .ok .disconnect
  else if hostSelector w = 0x03 then .ok .enterProg
  else if hostSelector w = 0x04 then .ok (.readFlash (hostAddr w))
  else if hostSelector w = 0x05 then .ok (.writeFlash (hostAddr w) (hostData w) (hostAux w))
  else if hostSelector w = 0x06 then .ok (.flushPage (hostAddr w) (hostData w))
  else if hostSelector w = 0x07 then .ok (.readEeprom ((hostAddr w).extractLsb' 0 16))
  else if hostSelector w = 0x08 then .ok (.writeEeprom ((hostAddr w).extractLsb' 0 16) (hostData w))
  else .error .unknownSelector

/-- Decoding of bytes: four bytes are a wire command in the order they are sent (R69), seven bytes a host word, most
significant byte first (DESIGN CHOICE, log entry 14: the spec gives the host word no byte order). -/
def decodeBytes : List Byte → Except DecodeError Instr
  | [b1, b2, b3, b4] => decodeWire (wireWord b1 b2 b3 b4)
  | [s, a3, a2, a1, a0, d, x] => decodeHost (hostWord s (a3 ++ a2 ++ a1 ++ a0) d x)
  | _ => .error .badLength

/-- The instruction the decoder reads from a row's word, its bits numbered as spec/opcode_table.json numbers them: a W4
row is one 32-bit word (R69), an H56 row one 56-bit word (R81). -/
def decodeTableWord (nbits w : Nat) : Option Instr :=
  if nbits = 32 then (decodeWire (BitVec.ofNat 32 w)).toOption
  else if nbits = 56 then (decodeHost (BitVec.ofNat 56 w)).toOption
  else none

/-! ### Encoding -/

/-- The word of an instruction; a host word has zeros in the fields the operation does not use (R72 to R81, R86). -/
inductive CommandWord where
  | wire (w : WireWord)
  | host (w : HostWord)
deriving DecidableEq, Repr

/-- The instruction's word, from the same patterns. -/
def encodeWord : Instr → CommandWord
  | .progEnable => .wire (wireWord 0xAC 0x53 0x00 0x00)
  | .loadExtAddr h => .wire (wireWord 0x4D 0x00 h 0x00)
  | .readFlashLo a b => .wire (wireWord 0x20 a b 0x00)
  | .readFlashHi a b => .wire (wireWord 0x28 a b 0x00)
  | .writeFlashLo a b d => .wire (wireWord 0x40 a b d)
  | .writeFlashHi a b d => .wire (wireWord 0x48 a b d)
  | .writeFlashPage a b => .wire (wireWord 0x4C a b 0x00)
  | .wireReadEeprom a b => .wire (wireWord 0xA0 a b 0x00)
  | .wireWriteEeprom a b d => .wire (wireWord 0xC0 a b d)
  | .setSpeed option => .host (hostWord 0x00 0 0 (option.setWidth 8))
  | .connect => .host (hostWord 0x01 0 0 0)
  | .disconnect => .host (hostWord 0x02 0 0 0)
  | .enterProg => .host (hostWord 0x03 0 0 0)
  | .readFlash address => .host (hostWord 0x04 address 0 0)
  | .writeFlash address data pollMode => .host (hostWord 0x05 address data pollMode)
  | .flushPage address pollValue => .host (hostWord 0x06 address pollValue 0)
  | .readEeprom address => .host (hostWord 0x07 (address.setWidth 32) 0 0)
  | .writeEeprom address data => .host (hostWord 0x08 (address.setWidth 32) data 0)

/-- A word's decoding, by its format. -/
def decodeWord : CommandWord → Except DecodeError Instr
  | .wire w => decodeWire w
  | .host w => decodeHost w

/-- The bytes of a word, the first on the wire, or the most significant, first. -/
def CommandWord.toBytes : CommandWord → List Byte
  | .wire w => [wireByte w 0, wireByte w 1, wireByte w 2, wireByte w 3]
  | .host w => [w.extractLsb' 48 8, w.extractLsb' 40 8, w.extractLsb' 32 8, w.extractLsb' 24 8, w.extractLsb' 16 8,
      w.extractLsb' 8 8, w.extractLsb' 0 8]

/-- The bytes of an instruction. -/
def encode (i : Instr) : List Byte := (encodeWord i).toBytes

end Sys2Proof
end

