-- ==== Sys2Proof/Machine/State.lean ====
section
/-! DEFINITION. The state of the block (spec/10_state.md R10 to R34, spec/70_reset_and_hazards.md R221) as plain data,
with the inputs of its step (R34), what the host wants next, and the log of observable events (R58); and its reset. -/

namespace Sys2Proof.Machine

/-! ### Registers that name something -/

/-- `xport`, the bound variant of the Transport Primitive (R13). -/
inductive Xport where
  | none
  | sw
  | hw
deriving DecidableEq, Repr

/-- One of the two implementations of the Transport Primitive (R100). -/
inductive Variant where
  | sw
  | hw
deriving DecidableEq, Repr

/-- `hs_state`, the state of Programming-Mode Entry (R23). -/
inductive HsState where
  | idle
  | tryHandshake
  | success
  | retryLocal
  | stepDownSpeed
  | fail
deriving DecidableEq, Repr

/-- The position of the sequencer between two steps (R11): idle; inside the poll loop of `PollFlash(address, marker)`
(R176); or in the busy-wait of a `TransmitHw` that never ends (R107). -/
inductive Position where
  | idle
  | polling (address : FlashAddr) (marker : Byte)
  | hung
deriving DecidableEq, Repr

/-! ### The response -/

/-- The four bytes received during a wire command (R69). -/
structure Response where
  r1 : Byte
  r2 : Byte
  r3 : Byte
  r4 : Byte
deriving DecidableEq, Repr

/-! ### The environment: target and tick source -/

/-- A memory of the cooperative target: its listed cells, addresses strictly rising, none equal to what an unlisted
address reads as (`Memory.wf` in Machine/Memory.lean). -/
abbrev Memory := List Host.Cell

/-- A write in progress inside the cooperative target: how many more reads show the marker, and where: at one flash
address, or at all of them while a page is being committed (R184, R54). -/
structure WriteInProgress where
  address : Option Nat
  marker : Byte
  readsLeft : Nat
deriving DecidableEq, Repr

/-- The cooperative target of R56, extended by the flash and EEPROM arrays of R184 (log entry 12). It is the block's
environment, not part of the block (R3 (c)). -/
structure Coop where
  /-- RST is low: the target is held in reset and listens. -/
  listening : Bool
  /-- It has received `AC 53` as the first two bytes since RST fell. -/
  progMode : Bool
  /-- No whole command has arrived since RST fell. -/
  firstCommand : Bool
  /-- The bytes of the current command received so far, the latest first. -/
  received : List Byte
  /-- The bits of the current byte received so far, and how many. -/
  shiftIn : Byte
  bitCount : Nat
  /-- What it presents on MISO, most significant bit first; `none`: the spec leaves the answer unspecified. -/
  answer : Option Byte
  /-- The extended address byte last loaded (R47). -/
  extended : Byte
  flash : Memory
  /-- Bytes loaded into the page buffer and not yet committed, by their offset in the page; used when there are pages. -/
  pageBuffer : Memory
  eeprom : Memory
  /-- The bytes of a page: the target's own, unknown to the block (R50). 0: no pages, a flash write writes the array. -/
  pageSize : Nat
  /-- How many reads show the marker after a write. -/
  latency : Nat
  inProgress : Option WriteInProgress
deriving DecidableEq, Repr

/-- What is wired to the link: a target that may answer anything (R55), none (R57), or the cooperative target (R56). -/
inductive Target where
  | oracle
  | absent
  | cooperative (c : Coop)
deriving DecidableEq, Repr

/-- The inputs of the step that R34 names, and the log: MODEL'S OWN fields (log entries 4, 5, 16). -/
@[ext]
structure Env where
  target : Target
  /-- What drives MISO at the next samples an oracle answers; when empty, `Config.targetDrive` of the history does. -/
  miso : List Drive
  /-- How many samples of MISO were taken: the free level of a floating line is applied to it. -/
  samples : Nat
  /-- The next readings of the tick counter; when empty, `Config.tickReading` gives them. -/
  ticks : List Tick
  tickDraws : Nat
  /-- The events so far, the latest first. -/
  trace : List Event
deriving DecidableEq, Repr

/-! ### The host -/

/-- What a power-on reset draws for the registers that R221 leaves unspecified (R222). -/
structure ResetDraw where
  swDelay : Byte
  hiaddr : Byte
  data : Byte
  engShift : Byte
  tries : BitVec 2
  retries : BitVec 5
  delayStart : Tick
  winStart : Tick
  rc : Byte
  cmd : HostWord
  resp : Response
deriving DecidableEq, Repr

/-- What arrives at the block between two steps: a host command word with its `issue` pulse (R87); a wire command to be
run by itself (the model's own way in, log entry 2); a power-on reset (R220). -/
inductive Request where
  | host (w : HostWord)
  | wire (w : WireWord)
  | powerOn (d : ResetDraw)
deriving DecidableEq, Repr

/-- The host's side: the request presented now, and what it will present when the block is idle (log entry 13). -/
structure HostPort where
  request : Option Request
  script : List Request
deriving DecidableEq, Repr

/-! ### The state -/

/-- The block's registers (R10), the engine's hidden state (R22, R41), the position (R11), then the model's own fields. -/
@[ext]
structure State where
  speed : Setting
  xport : Xport
  swDelay : Byte
  hiaddr : Byte
  dirRst : Bool
  dirSck : Bool
  dirMosi : Bool
  outRst : Bool
  outSck : Bool
  outMosi : Bool
  pullupMiso : Bool
  ctrl : Byte
  status : Byte
  data : Byte
  engShift : Byte
  engCount : BitVec 3
  engSck : Bool
  engMosi : Bool
  hsState : HsState
  tries : BitVec 2
  retries : BitVec 5
  delayStart : Tick
  winStart : Tick
  busy : Bool
  rc : Byte
  cmd : HostWord
  pos : Position
  /-- MODEL'S OWN: r1..r4 of the last complete wire command (R69, log entry 2). -/
  resp : Response
  env : Env
  host : HostPort
deriving DecidableEq, Repr

/-- No step of this block faults: it raises no exceptions (R200), it has no memory of its own to miss (R7), and its two
ways to hang are runs that go on for ever (R208). -/
inductive Fault where
deriving DecidableEq, Repr

/-- Why the model gives a request no meaning; every case is one the spec tells a model to refuse (D27), and safe. -/
inductive Refusal where
  /-- An instruction without a meaning yet; raised by no arm of exec. Safe. -/
  | notModelled (mnemonic : String)
  /-- `setSpeed` with option 13 to 15 (R84, R94, U1); also ENTERPROG from such a `speed`, which no rule ever writes (R12).
  Raised by execSetSpeed and execEnterProg. Safe. -/
  | speedOutOfRange
  /-- A transmitting instruction while `xport` is NONE: no variant was ever bound (R100, R229, U4). Raised by every meaning
  that transmits, and by a poll iteration in that state, which no run reaches. Safe. -/
  | transmitUnbound
  /-- An issue while `busy` is 1 (R27, R87, U3). Raised by every meaning and by the step's fetch. Safe. -/
  | issueWhileBusy
  /-- A word that spells no instruction (R84, R85, U2, U18). Raised by the step's fetch. Safe. -/
  | undecodable (e : DecodeError)
deriving DecidableEq, Repr

/-! ### Reset -/

/-- The block after a power-on reset with draw `d`: every register of R221 at its value there, the unspecified ones as
drawn (R222). The environment and the host are not the block's and are given. -/
def State.resetWith (d : ResetDraw) (env : Env) (host : HostPort) : State where
  speed := 0
  xport := .none
  swDelay := d.swDelay
  hiaddr := d.hiaddr
  dirRst := false
  dirSck := false
  dirMosi := false
  outRst := false
  outSck := false
  outMosi := false
  pullupMiso := false
  ctrl := 0x00
  status := 0x00
  data := d.data
  engShift := d.engShift
  engCount := 0
  engSck := false
  engMosi := false
  hsState := .idle
  tries := d.tries
  retries := d.retries
  delayStart := d.delayStart
  winStart := d.winStart
  busy := false
  rc := d.rc
  cmd := d.cmd
  pos := .idle
  resp := d.resp
  env := env
  host := host

/-- DESIGN CHOICE (log entry 3): zero for every register that R221 leaves unspecified. -/
def ResetDraw.zero : ResetDraw where
  swDelay := 0
  hiaddr := 0
  data := 0
  engShift := 0
  tries := 0
  retries := 0
  delayStart := 0
  winStart := 0
  rc := 0
  cmd := 0
  resp := { r1 := 0, r2 := 0, r3 := 0, r4 := 0 }

/-- DESIGN CHOICE (log entries 4, 5, 16): an oracle with nothing scripted, and nothing observed yet. -/
def Env.fresh : Env where
  target := .oracle
  miso := []
  samples := 0
  ticks := []
  tickDraws := 0
  trace := []

/-- A host that asks for nothing (log entry 13). -/
def HostPort.quiet : HostPort where
  request := none
  script := []

/-- The machine right after reset (R221): it waits, idle, for the host's first issue (R226). -/
def State.reset : State := State.resetWith ResetDraw.zero Env.fresh HostPort.quiet

end Sys2Proof.Machine
end

