-- ==== Sys2Proof/Machine/Memory.lean ====
section
/-! DEFINITION. The memories of the cooperative target (R56, R184): lists of cells in one canonical form. The block has
no memory of its own (R7, R40). DESIGN CHOICE (log entry 12): neither has a size, every address holds a byte and takes a
write; what a target does beyond its own is the target's (R46). -/

namespace Sys2Proof.Machine

/-- What an unlisted address reads as: an erased cell (DESIGN CHOICE, log entry 12; "erased" in 95_test_vectors.md V45-1). -/
def Memory.erased : Byte := 0xFF

/-- The byte at an address. -/
def Memory.read : Memory → Nat → Byte
  | [], _ => Memory.erased
  | (x, v) :: rest, a => if x = a then v else Memory.read rest a

/-- Put a byte at an address; writing what an unlisted address reads as removes the entry. -/
def Memory.write : Memory → Nat → Byte → Memory
  | [], a, v => if v = Memory.erased then [] else [(a, v)]
  | (x, y) :: rest, a, v =>
    if x = a then (if v = Memory.erased then rest else (a, v) :: rest)
    else if a < x then (if v = Memory.erased then (x, y) :: rest else (a, v) :: (x, y) :: rest)
    else (x, y) :: Memory.write rest a v

/-- Write the first `n` bytes of a page buffer at `base`. -/
def Memory.writePage (base : Nat) (buffer : Memory) : Nat → Memory → Memory
  | 0, m => m
  | n + 1, m => Memory.write (Memory.writePage base buffer n m) (base + n) (buffer.read n)

/-- Every listed address is above `lo`. -/
def Memory.above (lo : Nat) : Memory → Bool
  | [] => true
  | (x, _) :: _ => decide (lo < x)

/-- The canonical form: addresses strictly rising, no entry equal to what an unlisted address reads as. -/
def Memory.wf : Memory → Bool
  | [] => true
  | (x, v) :: rest => decide (v ≠ Memory.erased) && Memory.above x rest && Memory.wf rest

end Sys2Proof.Machine
end

