-- ==== Sys2Proof/Machine/Flags.lean ====
section
/-! DEFINITION. The fields of the shift engine's registers CTRL and STATUS (R18, R19, R66, R68) and the codes of the named
registers (R13, R23). The bit positions are the spec's decision D6 (log entry 9). -/

namespace Sys2Proof.Machine

/-- `CTRL.en`, bit 6 (R18). -/
def ctrlEn (c : Byte) : Bool := c.getLsbD 6

/-- `CTRL.mstr`, bit 4 (R18). -/
def ctrlMstr (c : Byte) : Bool := c.getLsbD 4

/-- `CTRL.presc`, bits 1:0 (R18). -/
def ctrlPresc (c : Byte) : BitVec 2 := c.extractLsb' 0 2

/-- What a hardware setting writes to CTRL: `0x50 | presc` (R66). -/
def ctrlEnabled (presc : BitVec 2) : Byte := 0x50 ||| presc.setWidth 8

/-- What `DisableHw` and a software setting write to CTRL (R93, R127). -/
def ctrlDisabled : Byte := 0x00

/-- The only values CTRL ever holds (R18). -/
def ctrlLegal (c : Byte) : Bool := c = 0x00 || c = 0x50 || c = 0x51 || c = 0x52 || c = 0x53

/-- `STATUS.flag`, bit 7, the transfer-complete flag (R19, R21). -/
def statusFlag (st : Byte) : Bool := st.getLsbD 7

/-- `STATUS.dbl`, bit 0, the double-speed flag (R19). -/
def statusDbl (st : Byte) : Bool := st.getLsbD 0

/-- The engine's set or clear of `STATUS.flag` (R21); the other bits stay. -/
def withFlag (v : Bool) (st : Byte) : Byte := if v then st ||| 0x80 else st &&& 0x7F

/-- `SetSpeed`'s write of `STATUS.dbl`; the flag stays (R19, R92). -/
def withDbl (v : Bool) (st : Byte) : Byte := if v then st ||| 0x01 else st &&& 0xFE

/-- What STATUS reads as between operations: flag 0 and reserved bits 6:1 zero (R19, R21, R68). -/
def statusAtRest (st : Byte) : Bool := st = 0x00 || st = 0x01

/-- The two-bit encoding of `xport` (R13). -/
def xportCode : Xport → BitVec 2
  | .none => 0
  | .sw => 1
  | .hw => 2

/-- The three-bit encoding of `hs_state` (R23). -/
def hsStateCode : HsState → BitVec 3
  | .idle => 0
  | .tryHandshake => 1
  | .success => 2
  | .retryLocal => 3
  | .stepDownSpeed => 4
  | .fail => 5

/-- The variant `xport` names, none while it is NONE (R13, R100). -/
def xportVariant : Xport → Option Variant
  | .none => none
  | .sw => some .sw
  | .hw => some .hw

/-- The value of `xport` that names a variant (R13). -/
def variantXport : Variant → Xport
  | .sw => .sw
  | .hw => .hw

end Sys2Proof.Machine
end

