-- ==== Sys2Proof/Machine/Operands.lean ====
section
/-! DEFINITION. The operand forms: address splits, opcode bytes, the words of the wire commands (R70, R71), the speed
setting and what it binds (R60 to R64, R91 to R93), and the arithmetic of R8. -/

namespace Sys2Proof.Machine

/-! ### Flash and EEPROM addresses -/

/-- `address[24:17]`, the extended byte: `trunc_8(address >> 17)` (R46, R71, R163). -/
def extByte (address : FlashAddr) : Byte := (address >>> 17).setWidth 8

/-- `address[16:9]` = `trunc_8(address >> 9)` (R70). -/
def flashHigh (address : FlashAddr) : Byte := (address >>> 9).setWidth 8

/-- `address[8:1]` = `trunc_8(address >> 1)` (R70). -/
def flashLow (address : FlashAddr) : Byte := (address >>> 1).setWidth 8

/-- `(address & 1) << 3`, the byte select in bit 3 of a flash opcode (R70). -/
def byteSelect (address : FlashAddr) : Byte := ((address &&& 1) <<< 3).setWidth 8

/-- `address[15:8]` of an EEPROM address (R71). -/
def eeHigh (address : EeAddr) : Byte := (address >>> 8).setWidth 8

/-- `address[7:0]` of an EEPROM address (R71). -/
def eeLow (address : EeAddr) : Byte := address.setWidth 8

/-! ### The words of the wire commands the operations send -/

/-- `AC 53 00 00` (R72, R139). -/
def progEnableWord : WireWord := wireWord 0xAC 0x53 0x00 0x00

/-- `4D 00 hb 00` (R73, R160). -/
def loadExtWord (hb : Byte) : WireWord := wireWord 0x4D 0x00 hb 0x00

/-- `20|28 addrH addrL 00` (R74, R75, R170). -/
def readFlashWord (address : FlashAddr) : WireWord :=
  wireWord (0x20 ||| byteSelect address) (flashHigh address) (flashLow address) 0x00

/-- `40|48 addrH addrL data` (R76, R77, R172). -/
def writeFlashWord (address : FlashAddr) (data : Byte) : WireWord :=
  wireWord (0x40 ||| byteSelect address) (flashHigh address) (flashLow address) data

/-- `4C addrH addrL 00`: no byte select (R78, R178). -/
def writePageWord (address : FlashAddr) : WireWord := wireWord 0x4C (flashHigh address) (flashLow address) 0x00

/-- `A0 addrH addrL 00` (R79, R180). -/
def readEepromWord (address : EeAddr) : WireWord := wireWord 0xA0 (eeHigh address) (eeLow address) 0x00

/-- `C0 addrH addrL data` (R80, R181). -/
def writeEepromWord (address : EeAddr) (data : Byte) : WireWord := wireWord 0xC0 (eeHigh address) (eeLow address) data

/-! ### The speed setting -/

/-- `AUTO` is replaced by `AUTO_DEFAULT` before anything else (R91). -/
def mapAuto (option : Setting) : Setting := if option = params.idxAuto then params.autoDefault else option

/-- Whether a setting is a hardware one: at or above the threshold (R61). -/
def isHardware (o : Setting) : Bool := decide (params.idxHwMin.toNat ≤ o.toNat)

/-- The variant a setting binds (R61). -/
def settingVariant (o : Setting) : Variant := if isHardware o then .hw else .sw

/-- `3 << (IDX_SW_MAX - o)` on 8 bits, the per-bit delay count of a software setting (R62, R93). -/
def softwareDelay (o : Setting) : Byte := 3#8 <<< (params.idxSwMax.toNat - o.toNat)

/-- The row of `HW_TABLE` for a hardware setting (R63). -/
def hwRow (o : Setting) : Option HwRow := params.hwTable.find? (fun r => r.setting = o)

/-- The clock divisor of the two fields: 4, 16, 64, 128, halved by the double-speed flag (R64). -/
def divisor (presc : BitVec 2) (dbl : Bool) : Nat :=
  let base := if presc = 0 then 4 else if presc = 1 then 16 else if presc = 2 then 64 else 128
  if dbl then base / 2 else base

/-- The bit rate on the link of a hardware setting, in hertz: `F_REF / divisor` (R63, R64). -/
def hwBitRate (o : Setting) : Option Nat := (hwRow o).map fun r => params.fRefHz / divisor r.presc r.dbl

/-! ### The arithmetic of R8 -/

/-- `trunc_8(rx << 1) | bit`: the bit shifted out at the top is discarded (R8 (d), R103). -/
def shiftInBit (rx : Byte) (bit : Bool) : Byte := (rx <<< 1) ||| (if bit then 1 else 0)

/-- `now -_W start`, modulo `2^TICK_WIDTH` (R8 (e), R212). -/
def elapsed (now start : Tick) : Tick := now - start

end Sys2Proof.Machine
end

