-- ==== Sys2Proof/Machine/Target.lean ====
section
/-! DEFINITION. The target as the block's environment (R55 to R57): the cooperative target of R56 with the arrays of R184
(log entry 12), and what it sees of the wire. It samples MOSI on the rising edge of SCK and changes MISO on the falling
edge. -/

namespace Sys2Proof.Machine

/-- The byte offset in flash that the extended byte and a command's address bytes name (R46, R47). DESIGN CHOICE (log entry
12): this target's flash has no end, every one of the 2^25 offsets is a byte of it; R46 fixes no size and leaves an address
beyond the flash to the target. -/
def Coop.flashAddress (c : Coop) (a b : Byte) (high : Bool) : Nat :=
  (c.extended ++ a ++ b : BitVec 24).toNat * 2 + (if high then 1 else 0)

/-- The byte offset in EEPROM of a command's address bytes (R48). DESIGN CHOICE (log entry 12): all 2^16 exist; R48 bounds the
size and fixes none. -/
def Coop.eeAddress (a b : Byte) : Nat := (a ++ b : BitVec 16).toNat

/-- Whether a write in progress hides the byte at a flash address (R184, R54). -/
def WriteInProgress.covers (p : WriteInProgress) (addr : Nat) : Bool :=
  decide (0 < p.readsLeft) && (p.address = none || p.address = some addr)

/-- A read of flash: the marker while a write covers the address, the array afterwards (R184). -/
def Coop.readFlash (c : Coop) (addr : Nat) : Byte × Coop :=
  match c.inProgress with
  | some p =>
    if p.covers addr then (p.marker, { c with inProgress := some { p with readsLeft := p.readsLeft - 1 } })
    else (c.flash.read addr, c)
  | none => (c.flash.read addr, c)

/-- A flash write: into the page buffer of a paged target, at the address's offset in its page, else into the array, whose
byte shows 0x7F for a while (R184). DESIGN CHOICE (log entry 12; the spec is silent, R54, R237) for one that arrives while
another write is in progress: without pages it replaces that write, whose data shows at once; with pages it loads the buffer,
and the page write in progress goes on hiding reads. -/
def Coop.writeFlash (c : Coop) (addr : Nat) (v : Byte) : Coop :=
  if c.pageSize ≠ 0 then { c with pageBuffer := c.pageBuffer.write (addr % c.pageSize) v }
  else { c with
    flash := c.flash.write addr v
    inProgress := some { address := some addr, marker := 0x7F, readsLeft := c.latency } }

/-- A page write: the page that holds the address becomes the buffer, in the segment the extended byte names (R47); until it
is done reads of flash show 0xFF (R54, R178). DESIGN CHOICE (log entry 12): a byte of the page that was not loaded is erased;
and a write in progress is replaced by this one, the data of the earlier one being in the array; a target without pages has
nothing to commit, its array stays as it is, but its reads of flash are hidden for the same while. -/
def Coop.writePage (c : Coop) (addr : Nat) : Coop :=
  { c with
    flash := Memory.writePage (addr - addr % c.pageSize) c.pageBuffer c.pageSize c.flash
    pageBuffer := []
    inProgress := some { address := none, marker := 0xFF, readsLeft := c.latency } }

/-- The answer to byte 4, decided when byte 3 has arrived: the data of a read command, else the echo of byte 3 (R56). -/
def Coop.fourthAnswer (c : Coop) (b1 b2 b3 : Byte) : Byte × Coop :=
  if b1 = 0x20 then c.readFlash (c.flashAddress b2 b3 false)
  else if b1 = 0x28 then c.readFlash (c.flashAddress b2 b3 true)
  else if b1 = 0xA0 then (c.eeprom.read (Coop.eeAddress b2 b3), c)
  else (b3, c)

/-- What a whole command does (R47, R72 to R80). DESIGN CHOICE (log entry 12): an EEPROM write takes no time, it is in the array
at once, where the spec gives no such time (R242); and a command whose first byte is none of the nine has no effect, where R85
leaves it to the model of a target. -/
def Coop.execute (c : Coop) (b1 b2 b3 b4 : Byte) : Coop :=
  if b1 = 0x4D then { c with extended := b3 }
  else if b1 = 0x40 then c.writeFlash (c.flashAddress b2 b3 false) b4
  else if b1 = 0x48 then c.writeFlash (c.flashAddress b2 b3 true) b4
  else if b1 = 0x4C then c.writePage (c.flashAddress b2 b3 false)
  else if b1 = 0xC0 then { c with eeprom := c.eeprom.write (Coop.eeAddress b2 b3) b4 }
  else c

/-- A whole byte has arrived: remember it, choose the answer to the next one, run a complete command (R56). -/
def Coop.receive (c : Coop) (b : Byte) : Coop :=
  match c.received with
  | [] => { c with received := [b], answer := if c.progMode || (c.firstCommand && b = 0xAC) then some b else none }
  | [b1] =>
    let prog := c.progMode || (c.firstCommand && b1 = 0xAC && b = 0x53)
    { c with received := [b, b1], progMode := prog, answer := if prog then some b else none }
  | [b2, b1] =>
    if c.progMode then
      let r := c.fourthAnswer b1 b2 b
      { r.2 with received := [b, b2, b1], answer := some r.1 }
    else { c with received := [b, b2, b1], answer := none }
  | b3 :: b2 :: b1 :: _ =>
    let done := if c.progMode then c.execute b1 b2 b3 b else c
    { done with received := [], answer := none, firstCommand := false }

/-- RST falls: the byte count and the handshake start anew (R45, R56); the extended byte is lost (R240). DESIGN CHOICE (log
entry 12): the page buffer and a write in progress stay as they are; the spec is silent. -/
def Coop.enterReset (c : Coop) : Coop :=
  { c with
    listening := true
    progMode := false
    firstCommand := true
    received := []
    shiftIn := 0
    bitCount := 0
    answer := none
    extended := 0 }

/-- RST is high or released: the target runs and does not listen (R120, R47). -/
def Coop.leaveReset (c : Coop) : Coop := { c with listening := false, progMode := false }

/-- The rising edge of SCK: MOSI is sampled (R56). An undriven MOSI counts as 0. -/
def Coop.onRise (c : Coop) (mosi : Option Bool) : Coop :=
  { c with shiftIn := shiftInBit c.shiftIn (mosi.getD false), bitCount := c.bitCount + 1 }

/-- The falling edge of SCK: MISO changes; after the eighth bit the byte is whole (R56). -/
def Coop.onFall (c : Coop) : Coop :=
  if c.bitCount = 0 then c
  else if c.bitCount < 8 then { c with answer := c.answer.map (fun b : Byte => b <<< 1) }
  else { c with bitCount := 0, shiftIn := 0 }.receive c.shiftIn

/-- The change of RST the target sees. -/
def Coop.onReset (c : Coop) (before after : Wire) : Coop :=
  if after.rst = some false then (if before.rst = some false then c else c.enterReset)
  else if before.rst = some false then c.leaveReset
  else c

/-- The change of SCK the target sees while RST is low. -/
def Coop.onClock (c : Coop) (before after : Wire) : Coop :=
  if after.rst ≠ some false then c
  else if before.sck = some false && after.sck = some true then c.onRise after.mosi
  else if before.sck = some true && after.sck = some false then c.onFall
  else c

/-- What the cooperative target drives on MISO: the current bit of its answer, most significant bit first (R43, R56). -/
def Coop.level (c : Coop) : Option Bool := if c.listening then c.answer.map (fun b : Byte => b.getLsbD 7) else none

/-- The target sees the wire change; only the cooperative one keeps state. -/
def Target.observe (before after : Wire) : Target → Target
  | .oracle => .oracle
  | .absent => .absent
  | .cooperative c => .cooperative ((c.onReset before after).onClock before after)

/-- The memories of the target are in canonical form. -/
def Target.wf : Target → Bool
  | .oracle => true
  | .absent => true
  | .cooperative c => Memory.wf c.flash && Memory.wf c.pageBuffer && Memory.wf c.eeprom

end Sys2Proof.Machine
end

