-- ==== Sys2Proof/Machine/Ops.lean ====
section
/-! DEFINITION. The shared operations: the wire and its log (R41, R58), MISO samples (R17, R57, U10), ticks and waits
(R109, R110, R211), the Transport Primitive in both variants (R100 to R107), the exchange of one wire command (R69), and how
an operation is issued and returns (R7, R87, R200). There is no exception to take: an operation that returns writes `rc` and
clears `busy`, on failure exactly as on success. -/

namespace Sys2Proof.Machine

/-! ### The wire -/

/-- The levels the block puts on the wire (R41): high impedance where the direction bit is 0; SCK and MOSI from the engine
while `CTRL.en` is 1; otherwise the latch. -/
def State.wire (s : State) : Wire where
  rst := if s.dirRst then some s.outRst else none
  sck := if s.dirSck then some (if ctrlEn s.ctrl then s.engSck else s.outSck) else none
  mosi := if s.dirMosi then some (if ctrlEn s.ctrl then s.engMosi else s.outMosi) else none

/-- The environment sees the wire change; the levels are logged. -/
def Env.observe (before after : Wire) (e : Env) : Env :=
  { e with target := e.target.observe before after, trace := .wire after :: e.trace }

/-- Log one event. -/
def State.log (ev : Event) (s : State) : State := { s with env := { s.env with trace := ev :: s.env.trace } }

/-- `after` is `before` with some register of the link written: the environment sees what that does to the wire. -/
def State.onWire (before after : State) : State := { after with env := after.env.observe before.wire after.wire }

/-- `OUT_L <- v`: the latch is written (R17). -/
def State.setOut (l : Line) (v : Bool) (s : State) : State :=
  match l with
  | .rst => s.onWire { s with outRst := v }
  | .sck => s.onWire { s with outSck := v }
  | .mosi => s.onWire { s with outMosi := v }

/-- `Line(L) <- v`: the latch is written; it changes the wire only when the latch owns the line (R41). -/
def State.setLine (l : Line) (v : Bool) (s : State) : State := (s.log (.line l v)).setOut l v

/-- A direction bit is written: 1 drives the line, 0 releases it (R16). -/
def State.setDir (l : Line) (v : Bool) (s : State) : State :=
  match l with
  | .rst => s.onWire { s with dirRst := v }
  | .sck => s.onWire { s with dirSck := v }
  | .mosi => s.onWire { s with dirMosi := v }

/-- CTRL is written; `CTRL.en` decides who owns SCK and MOSI (R41). -/
def State.setCtrl (c : Byte) (s : State) : State := s.onWire { s with ctrl := c }

/-- The engine drives SCK (R105). -/
def State.engineSck (v : Bool) (s : State) : State :=
  let t := s.log (.line .sck v)
  s.onWire { t with engSck := v }

/-- The engine drives MOSI (R105). -/
def State.engineMosi (v : Bool) (s : State) : State :=
  let t := s.log (.line .mosi v)
  s.onWire { t with engMosi := v }

/-! ### Samples of MISO -/

/-- What an oracle drives at this sample: the scripted answer, else a free value of the history of events (R55, log entry 4). -/
def Env.oracleDrive (e : Env) : Drive :=
  match e.miso with
  | d :: _ => d
  | [] => Config.targetDrive e.trace

/-- Whether the oracle answers this sample: the absent target never does (R57), the cooperative one only where its own
answer is unspecified (R56). -/
def Env.asksOracle (e : Env) : Bool :=
  match e.target with
  | .oracle => true
  | .absent => false
  | .cooperative c => c.level.isNone

/-- What drives MISO at this sample. -/
def Env.drive (e : Env) : Drive :=
  match e.target with
  | .oracle => e.oracleDrive
  | .absent => .released
  | .cooperative c =>
    match c.level with
    | some v => .driven v
    | none => e.oracleDrive

/-- The level of MISO: what is driven; when nobody drives it, 1 with the pull-up (R17, R57), any value without (U10). -/
def Env.misoLevel (pullup : Bool) (e : Env) : Bool :=
  match e.drive with
  | .driven v => v
  | .released => if pullup then true else Config.floatLevel e.samples

/-- The environment after one sample: a scripted answer that was asked for is used up. -/
def Env.afterSample (e : Env) : Env :=
  { e with miso := if e.asksOracle then e.miso.tail else e.miso, samples := e.samples + 1 }

/-- The level the next `Sample(MISO)` reads (R7). -/
def State.sampled (s : State) : Bool := s.env.misoLevel s.pullupMiso

/-- The state after `Sample(MISO)`, which is logged. -/
def State.afterSample (s : State) : State := State.log (.sample s.sampled) { s with env := s.env.afterSample }

/-! ### Ticks and waits -/

/-- The next reading of the tick counter: scripted, else a free value (R211, log entry 5). -/
def Env.reading (e : Env) : Tick :=
  match e.ticks with
  | t :: _ => t
  | [] => Config.tickReading e.tickDraws

/-- The environment after one `Tick()`. -/
def Env.afterTick (e : Env) : Env :=
  match e.ticks with
  | _ :: rest => { e with ticks := rest }
  | [] => { e with tickDraws := e.tickDraws + 1 }

/-- The busy-wait of `DelayTicks`: readings are used up until one is at least `n` ticks after `start`, modulo the counter's
width (R109, R212). Where no scripted reading ends it, a later one does: R211's premise that the counter never stops and
never advances too far between two readings (log entry 5). -/
def spin (n start : Tick) : List Tick → List Tick
  | [] => []
  | t :: rest => if elapsed t start < n then spin n start rest else rest

/-- `DelayTicks(n)` (R109): the start is read into `delay_start`, then the busy-wait. -/
def State.delayTicks (n : Tick) (s : State) : State :=
  let e := s.env.afterTick
  State.log (.delay n) { s with delayStart := s.env.reading, env := { e with ticks := spin n s.env.reading e.ticks } }

/-- `DelayTicks(UNIT_TICKS)`, `n` times. -/
def State.waitUnits : Nat → State → State
  | 0, s => s
  | n + 1, s => State.waitUnits n (s.delayTicks params.unitTicks)

/-- `Wait(n)` (R110): no line changes, and no state of the block but `delay_start`. -/
def State.wait (n : Nat) (s : State) : State := State.waitUnits n (s.log (.wait n))

/-- The state after one `Tick()` by `PollFlash`, logged (R176). -/
def State.afterTick (s : State) : State := State.log (.tick s.env.reading) { s with env := s.env.afterTick }

/-! ### Runs: an operation that returns, or is still inside its pseudocode -/

/-- An operation has returned a value, or the sequencer is still inside it, with `pos` saying where (R11). -/
inductive Run (α : Type) where
  | returned (a : α) (s : State)
  | inside (s : State)

/-- What comes next in the pseudocode; nothing does while the sequencer is still inside. -/
def Run.bind {α β : Type} (r : Run α) (f : α → State → Run β) : Run β :=
  match r with
  | .returned a s => f a s
  | .inside s => .inside s

/-- `return v` (R7, R28): the result is written to `rc` and `busy` falls; an operation still inside keeps `busy` (R208). -/
def Run.finish (r : Run Byte) : State :=
  match r with
  | .returned v s => { s with rc := v, busy := false, pos := .idle }
  | .inside s => s

/-- The end of a wire command run by itself: `busy` falls, `rc` is no part of it (R89, log entry 2). -/
def Run.finishWire (r : Run Response) : State :=
  match r with
  | .returned _ s => { s with busy := false, pos := .idle }
  | .inside s => s

/-! ### The Transport Primitive -/

/-- The loop of `TransmitSw` from bit `k - 1` down to bit 0 (R101, R102): drive MOSI, sample MISO, raise SCK, delay, lower
SCK, delay. Answers the byte assembled (R103) and the state. -/
def swBits : Nat → Byte → Byte → State → Byte × State
  | 0, _, rx, s => (rx, s)
  | k + 1, b, rx, s =>
    let s1 := s.setLine .mosi (b.getLsbD k)
    let s2 := s1.afterSample.setLine .sck true
    let s3 := (s2.delayTicks s2.swDelay).setLine .sck false
    swBits k b (shiftInBit rx s1.sampled) (s3.delayTicks s3.swDelay)

/-- `TransmitSw(b)` (R101). -/
def transmitSw (b : Byte) (s : State) : Byte × State := swBits 8 b 0x00 s

/-- The engine's loop from bit `k - 1` of the byte sent down to bit 0 (R105): MOSI, SCK up, the sample shifted in, SCK
down. `engShift` is R105's `rx`; its `sh` is the byte `b`, which does not change while it is sent (log entry 10). -/
def engineBits : Nat → Byte → State → State
  | 0, _, s => s
  | k + 1, b, s =>
    let s1 := (s.engineMosi (b.getLsbD k)).engineSck true
    let s2 := { s1.afterSample with engShift := shiftInBit s1.engShift s1.sampled }
    let s3 := s2.engineSck false
    engineBits k b { s3 with engCount := s3.engCount + 1 }

/-- A write of DATA starts a transfer only while `CTRL.en == 1 and CTRL.mstr == 1` (R20, R105). -/
def State.engineEnabled (s : State) : Bool := ctrlEn s.ctrl && ctrlMstr s.ctrl

/-- The transfer a write of DATA starts: eight bits, then DATA and the flag (R105, R21). -/
def State.transfer (b : Byte) (s : State) : State :=
  let t := engineBits 8 b { s with data := b, engShift := 0x00, engCount := 0 }
  { t with data := t.engShift, status := withFlag true t.status }

/-- The sequencer has read STATUS with the flag set and reads DATA: the flag is cleared (R21, R106). -/
def State.readData (s : State) : State := { s with status := withFlag false s.status }

/-- `TransmitHw(b)` (R105); with the engine disabled the busy-wait never ends (R107). -/
def transmitHw (b : Byte) (s : State) : Run Byte :=
  if s.engineEnabled then .returned (s.transfer b).data (s.transfer b).readData
  else .inside { s with data := b, pos := .hung }

/-- `Transmit(b)` through the bound variant (R100); the exchange is logged (R58 (b)). -/
def transmit (v : Variant) (b : Byte) (s : State) : Run Byte :=
  match v with
  | .sw => .returned (transmitSw b s).1 ((transmitSw b s).2.log (.byte b (transmitSw b s).1))
  | .hw => (transmitHw b s).bind fun r t => .returned r (t.log (.byte b r))

/-- One wire command: four `Transmit`s, first byte first; the response is the four bytes received (R69). -/
def exchange (v : Variant) (w : WireWord) (s : State) : Run Response :=
  (transmit v (wireByte w 0) s).bind fun r1 s1 =>
  (transmit v (wireByte w 1) s1).bind fun r2 s2 =>
  (transmit v (wireByte w 2) s2).bind fun r3 s3 =>
  (transmit v (wireByte w 3) s3).bind fun r4 s4 =>
  .returned { r1 := r1, r2 := r2, r3 := r3, r4 := r4 }
    { s4 with resp := { r1 := r1, r2 := r2, r3 := r3, r4 := r4 } }

/-- `PulseReset()` (R126). -/
def State.pulseReset (s : State) : State := ((s.setLine .rst true).wait params.resetPulseUnits).setLine .rst false

/-- `DisableHw()` (R127). -/
def State.disableHw (s : State) : State := s.setCtrl ctrlDisabled

/-! ### Issue -/

/-- The host issues an operation that needs no bound variant: refused while `busy`, else run to its end (R87). -/
def issueLocal (op : State → Run Byte) (s : State) : Host.Outcome State Fault Refusal :=
  if s.busy then .refused .issueWhileBusy else .next (op { s with busy := true }).finish

/-- The host issues an operation that transmits: refused, whole and with no state change, while no variant is bound
(R100, R229). -/
def issueTransmitting (op : Variant → State → Run Byte) (s : State) : Host.Outcome State Fault Refusal :=
  if s.busy then .refused .issueWhileBusy
  else match xportVariant s.xport with
    | none => .refused .transmitUnbound
    | some v => .next (op v { s with busy := true }).finish

/-- A wire command is run by itself (log entry 2). -/
def issueWire (op : Variant → State → Run Response) (s : State) : Host.Outcome State Fault Refusal :=
  if s.busy then .refused .issueWhileBusy
  else match xportVariant s.xport with
    | none => .refused .transmitUnbound
    | some v => .next (op v { s with busy := true }).finishWire

/-- A power-on reset (R220, R224): every register of the block, and nothing of the environment or the host. The lines are
released, which the target sees (R223). -/
def State.powerOn (d : ResetDraw) (s : State) : State := s.onWire (State.resetWith d s.env s.host)

end Sys2Proof.Machine
end

