-- ==== Sys2Proof/Machine/MemoryAccess.lean ====
section
/-! DEFINITION. The Address Tracker (spec/44_address_tracker.md) and the Memory Access Engine (spec/45_memory_access.md). -/

namespace Sys2Proof.Machine

/-- Load Extended Address: the cache is written before the command is sent (R160, R73); the response is ignored. -/
def loadExtended (v : Variant) (hb : Byte) (s : State) : Run Response := exchange v (loadExtWord hb) { s with hiaddr := hb }

/-- `UpdateExtended(address)` (R160). -/
def updateExtended (v : Variant) (address : FlashAddr) (s : State) : Run Unit :=
  if extByte address = s.hiaddr then .returned () s
  else (loadExtended v (extByte address) s).bind fun _ t => .returned () t

/-- A flash command: the Address Tracker first, then the four bytes (R164). -/
def flashCommand (v : Variant) (address : FlashAddr) (w : WireWord) (s : State) : Run Response :=
  (updateExtended v address s).bind fun _ t => exchange v w t

/-- `ReadFlash(address)` (R170): the fourth response byte. -/
def readFlash (v : Variant) (address : FlashAddr) (s : State) : Run Byte :=
  (flashCommand v address (readFlashWord address) s).bind fun response t => .returned (response.r4) t

/-- The window test of one poll iteration: strictly more than `UNIT_TICKS` elapsed restarts the window from a fresh reading
and takes one from the budget (R176). -/
def windowTest (s : State) : State :=
  if params.unitTicks < elapsed s.env.reading s.winStart then
    let t := s.afterTick
    { t.afterTick with winStart := t.env.reading, retries := t.retries - 1 }
  else s.afterTick

/-- One iteration of the poll loop (R176): the loop test, the read, the completion test, the window test. A loop that has
not ended is left at its head, with `pos` saying so (R11, log entry 1). -/
def pollIteration (v : Variant) (address : FlashAddr) (marker : Byte) (s : State) : Run Byte :=
  if s.retries = 0 then .returned 1 s
  else (readFlash v address s).bind fun r t =>
    if r ≠ marker then .returned 0 t
    else
      let u := windowTest t
      if u.retries = 0 then .returned 1 u else .inside { u with pos := .polling address marker }

/-- `PollFlash(address, marker)` up to the end of its first iteration (R176). -/
def pollFlash (v : Variant) (address : FlashAddr) (marker : Byte) (s : State) : Run Byte :=
  pollIteration v address marker
    { s.afterTick with retries := params.pollBudget, winStart := s.env.reading }

/-- `writeFlash(address, data, pollMode)` (R172 to R175, R82). -/
def writeFlash (v : Variant) (address : FlashAddr) (data pollMode : Byte) (s : State) : Run Byte :=
  (flashCommand v address (writeFlashWord address data) s).bind fun _ t =>
    if pollMode = 0 then .returned 0 t
    else if data = params.pollBusyByte then .returned 0 (t.wait params.flashDelayUnits)
    else pollFlash v address params.pollBusyByte t

/-- `flushPage(address, pollValue)` (R178, R179). -/
def flushPage (v : Variant) (address : FlashAddr) (pollValue : Byte) (s : State) : Run Byte :=
  (flashCommand v address (writePageWord address) s).bind fun _ t =>
    if pollValue = params.pollErasedByte then .returned 0 (t.wait params.flashDelayUnits)
    else pollFlash v address params.pollErasedByte t

/-- `readEEPROM(address)` (R180); `hiaddr` is neither read nor written (R48). -/
def readEeprom (v : Variant) (address : EeAddr) (s : State) : Run Byte :=
  (exchange v (readEepromWord address) s).bind fun response t => .returned (response.r4) t

/-- `writeEEPROM(address, data)` (R181). -/
def writeEeprom (v : Variant) (address : EeAddr) (data : Byte) (s : State) : Run Byte :=
  (exchange v (writeEepromWord address data) s).bind fun _ t => .returned 0 (t.wait params.eepromDelayUnits)

/-! ### The host operations -/

/-- `readFlash(address)` (R170). -/
def execReadFlash (address : FlashAddr) (s : State) : Host.Outcome State Fault Refusal :=
  issueTransmitting (fun v t => readFlash v address t) s

/-- `writeFlash(address, data, pollMode)` (R172). -/
def execWriteFlash (address : FlashAddr) (data pollMode : Byte) (s : State) : Host.Outcome State Fault Refusal :=
  issueTransmitting (fun v t => writeFlash v address data pollMode t) s

/-- `flushPage(address, pollValue)` (R178). -/
def execFlushPage (address : FlashAddr) (pollValue : Byte) (s : State) : Host.Outcome State Fault Refusal :=
  issueTransmitting (fun v t => flushPage v address pollValue t) s

/-- `readEEPROM(address)` (R180). -/
def execReadEeprom (address : EeAddr) (s : State) : Host.Outcome State Fault Refusal :=
  issueTransmitting (fun v t => readEeprom v address t) s

/-- `writeEEPROM(address, data)` (R181). -/
def execWriteEeprom (address : EeAddr) (data : Byte) (s : State) : Host.Outcome State Fault Refusal :=
  issueTransmitting (fun v t => writeEeprom v address data t) s

end Sys2Proof.Machine
end

