-- ==== Sys2Proof/Machine/Commands.lean ====
section
/-! DEFINITION. The nine wire commands run by themselves (R69 to R80, log entry 2): each is one exchange of four bytes through
the bound variant, its response in `resp`. -/

namespace Sys2Proof.Machine

/-- `AC 53 00 00` (R72); the third response byte echoes 0x53 on success. -/
def execProgEnable (s : State) : Host.Outcome State Fault Refusal := issueWire (fun v t => exchange v progEnableWord t) s

/-- `4D 00 h 00` (R73): `h` is the new `hiaddr` (log entry 2); the response is ignored. -/
def execLoadExtAddr (h : Byte) (s : State) : Host.Outcome State Fault Refusal := issueWire (fun v t => loadExtended v h t) s

/-- `20 a b 00` (R74); the fourth response byte is the data. -/
def execReadFlashLo (a b : Byte) (s : State) : Host.Outcome State Fault Refusal :=
  issueWire (fun v t => exchange v (wireWord 0x20 a b 0x00) t) s

/-- `28 a b 00` (R75); the fourth response byte is the data. -/
def execReadFlashHi (a b : Byte) (s : State) : Host.Outcome State Fault Refusal :=
  issueWire (fun v t => exchange v (wireWord 0x28 a b 0x00) t) s

/-- `40 a b d` (R76). -/
def execWriteFlashLo (a b d : Byte) (s : State) : Host.Outcome State Fault Refusal :=
  issueWire (fun v t => exchange v (wireWord 0x40 a b d) t) s

/-- `48 a b d` (R77). -/
def execWriteFlashHi (a b d : Byte) (s : State) : Host.Outcome State Fault Refusal :=
  issueWire (fun v t => exchange v (wireWord 0x48 a b d) t) s

/-- `4C a b 00` (R78). -/
def execWriteFlashPage (a b : Byte) (s : State) : Host.Outcome State Fault Refusal :=
  issueWire (fun v t => exchange v (wireWord 0x4C a b 0x00) t) s

/-- `A0 a b 00` (R79); the fourth response byte is the data. -/
def execWireReadEeprom (a b : Byte) (s : State) : Host.Outcome State Fault Refusal :=
  issueWire (fun v t => exchange v (wireWord 0xA0 a b 0x00) t) s

/-- `C0 a b d` (R80). -/
def execWireWriteEeprom (a b d : Byte) (s : State) : Host.Outcome State Fault Refusal :=
  issueWire (fun v t => exchange v (wireWord 0xC0 a b d) t) s

end Sys2Proof.Machine
end

