-- ==== Sys2Proof/Machine/Speed.lean ====
section
/-! DEFINITION. The Speed Controller (spec/40_speed_controller.md). -/

namespace Sys2Proof.Machine

/-- The hardware branch (R92): the live registers are written, so the engine is enabled from here. An engine that was off
comes up with MOSI at 0 (R123 (a), D9); one that was on goes on holding its last bit (R41; log entry 10). -/
def bindHardware (row : HwRow) (s : State) : State :=
  State.setCtrl (ctrlEnabled row.presc)
    { s with
      xport := .hw, swDelay := params.swDelayHw, status := withDbl row.dbl s.status,
      engMosi := ctrlEn s.ctrl && s.engMosi }

/-- The software branch (R93): the engine is switched off, STATUS stays. -/
def bindSoftware (o : Setting) (s : State) : State :=
  State.setCtrl ctrlDisabled { s with xport := .sw, swDelay := softwareDelay o }

/-- `SetSpeed` of a setting that is not `AUTO` (R90, R95). A reserved setting has no row of `HW_TABLE` and binds nothing;
every caller refuses it before (R94). -/
def setSetting (o : Setting) (s : State) : State :=
  if isHardware o then
    match hwRow o with
    | some row => { bindHardware row s with speed := o }
    | none => s
  else { bindSoftware o s with speed := o }

/-- `SetSpeed(option)` (R90, R91). -/
def setSpeed (option : Setting) (s : State) : State := setSetting (mapAuto option) s

/-- `setSpeed(option)`, the host operation; options 13 to 15 are refused (R84, R94). -/
def execSetSpeed (option : Setting) (s : State) : Host.Outcome State Fault Refusal :=
  if !s.busy && decide (params.idxMax.toNat < option.toNat) then .refused .speedOutOfRange
  else issueLocal (fun t => .returned 0 (setSpeed option t)) s

end Sys2Proof.Machine
end

