-- ==== Sys2Proof/Machine/Handshake.lean ====
section
/-! DEFINITION. Programming-Mode Entry (spec/43_prog_mode_entry.md): the handshake state machine with its retries and its
speed fallback (R135, R136). -/

namespace Sys2Proof.Machine

/-- One try (R139): reset pulse, settle wait, all four bytes of Programming Enable. Answers the response. -/
def handshakeTry (v : Variant) (s : State) : Run Response :=
  exchange v progEnableWord ((State.pulseReset { s with hsState := .tryHandshake }).wait params.settleUnits)

/-- The success criterion: the third response byte equals 0x53 (R143). -/
def echoed (response : Response) : Bool := response.r3 = 0x53

/-- A failed try: one try less, and `RetryLocal` unless it was the last at its speed (R145). -/
def failedTry (s : State) : State :=
  let t := { s with tries := s.tries - 1 }
  if t.tries = 0 then t else { t with hsState := .retryLocal }

/-- The tries at one speed, at most `n` more (R141): answers whether one succeeded. -/
def triesAtSpeed (v : Variant) : Nat → State → Run Bool
  | 0, s => .returned false s
  | n + 1, s =>
    (handshakeTry v s).bind fun response t =>
      if echoed response then .returned true { t with hsState := .success } else triesAtSpeed v n (failedTry t)

/-- Entering a speed (R140, R141): `SetSpeed` in full and three tries. -/
def enterSpeed (o : Setting) (s : State) : State := { setSpeed o s with tries := BitVec.ofNat 2 params.triesPerSpeed }

/-- Stepping down (R146): disable the engine if the hardware variant is bound. -/
def stepDown (s : State) : State :=
  let t := { s with hsState := .stepDownSpeed }
  match t.xport with
  | .hw => t.disableHw
  | .sw => t
  | .none => t

/-- The speed bump after success (R150), with `SPEED_BUMP` off nothing (R144). -/
def speedBump (o : Setting) (s : State) : State :=
  if params.speedBump && decide (o.toNat < params.idxMax.toNat) then setSpeed (o + 1) s else s

/-- Terminal failure (R147): no speed is configured any more. -/
def handshakeFail (s : State) : State := { s with speed := params.idxAuto, hsState := .fail }

/-- The loop over the speeds from `n` down to `IDX_SW_MIN` (R135); below it the handshake has failed (R147). -/
def speedsFrom : Nat → State → Run Byte
  | 0, s => .returned 1 (handshakeFail s)
  | n + 1, s =>
    if n + 1 < params.idxSwMin.toNat then .returned 1 (handshakeFail s)
    else
      let o := BitVec.ofNat 4 (n + 1)
      (triesAtSpeed (settingVariant o) params.triesPerSpeed (enterSpeed o s)).bind fun ok t =>
        if ok then .returned 0 (speedBump o t) else speedsFrom n (stepDown t)

/-- The initial speed: the last configured one, or `ENTRY_DEFAULT` if none was set (R137). -/
def startSpeed (s : State) : Nat := if s.speed = params.idxAuto then params.entryDefault.toNat else s.speed.toNat

/-- `enterProgrammingMode()` (R135). -/
def enterProg (s : State) : Run Byte := speedsFrom (startSpeed s) { s with hsState := .idle }

/-- `enterProgrammingMode()`, the host operation; a `speed` that no rule writes is refused as `SetSpeed` refuses it (R94). -/
def execEnterProg (s : State) : Host.Outcome State Fault Refusal :=
  if !s.busy && decide (params.idxMax.toNat < s.speed.toNat) then .refused .speedOutOfRange else issueLocal enterProg s

end Sys2Proof.Machine
end

