-- ==== Sys2Proof/Machine/LinkControl.lean ====
section
/-! DEFINITION. The Link Controller (spec/42_link_controller.md). -/

namespace Sys2Proof.Machine

/-- `connect()` (R121, R122): RST and SCK latches low, three outputs, the pull-up, one reset pulse, the sentinel. -/
def connect (s : State) : State :=
  let low := (s.setOut .rst false).setOut .sck false
  let driven := ((low.setDir .rst true).setDir .sck true).setDir .mosi true
  { State.pulseReset { driven with pullupMiso := true } with hiaddr := params.hiaddrSentinel }

/-- `disconnect()` (R124, R125): lines released, latches and pull-up cleared, the engine off, the speed reset. -/
def disconnect (s : State) : State :=
  let released := ((s.setDir .rst false).setDir .sck false).setDir .mosi false
  let cleared := ((released.setOut .rst false).setOut .sck false).setOut .mosi false
  { State.disableHw { cleared with pullupMiso := false } with speed := params.idxAuto }

/-- `connect()`, the host operation. -/
def execConnect (s : State) : Host.Outcome State Fault Refusal := issueLocal (fun t => .returned 0 (connect t)) s

/-- `disconnect()`, the host operation. -/
def execDisconnect (s : State) : Host.Outcome State Fault Refusal := issueLocal (fun t => .returned 0 (disconnect t)) s

end Sys2Proof.Machine
end

