-- ==== Sys2Proof/Machine/Dispatch.lean ====
section
/-! DEFINITION. One instruction: one arm per row of spec/opcode_table.json. -/

namespace Sys2Proof.Machine

def exec (i : Instr) (s : State) : Host.Outcome State Fault Refusal :=
  match i with
  -- wire commands (R72 to R80)
  | .progEnable => Sys2Proof.Machine.execProgEnable s
  | .loadExtAddr h => Sys2Proof.Machine.execLoadExtAddr h s
  | .readFlashLo a b => Sys2Proof.Machine.execReadFlashLo a b s
  | .readFlashHi a b => Sys2Proof.Machine.execReadFlashHi a b s
  | .writeFlashLo a b d => Sys2Proof.Machine.execWriteFlashLo a b d s
  | .writeFlashHi a b d => Sys2Proof.Machine.execWriteFlashHi a b d s
  | .writeFlashPage a b => Sys2Proof.Machine.execWriteFlashPage a b s
  | .wireReadEeprom a b => Sys2Proof.Machine.execWireReadEeprom a b s
  | .wireWriteEeprom a b d => Sys2Proof.Machine.execWireWriteEeprom a b d s
  -- host operations (R86)
  | .setSpeed option => Sys2Proof.Machine.execSetSpeed option s
  | .connect => Sys2Proof.Machine.execConnect s
  | .disconnect => Sys2Proof.Machine.execDisconnect s
  | .enterProg => Sys2Proof.Machine.execEnterProg s
  | .readFlash address => Sys2Proof.Machine.execReadFlash address s
  | .writeFlash address data pollMode => Sys2Proof.Machine.execWriteFlash address data pollMode s
  | .flushPage address pollValue => Sys2Proof.Machine.execFlushPage address pollValue s
  | .readEeprom address => Sys2Proof.Machine.execReadEeprom address s
  | .writeEeprom address data => Sys2Proof.Machine.execWriteEeprom address data s

end Sys2Proof.Machine
end

