-- ==== Sys2Proof/Machine/Sequencer.lean ====
section
/-! DEFINITION. What sequences the block between two instructions (R11): the request taken from the host's side and decoded
(R81, R87), the power-on reset (R220), the continuation of an operation that has not returned (R176, R107), the idle block
(R226), and the host's own move (R5). -/

namespace Sys2Proof.Machine

/-- What a step does: run a decoded instruction, or go to a state, or refuse. -/
inductive Fetched where
  | run (i : Instr) (s : State)
  | goTo (s : State)
  | refuse (r : Refusal)

/-- Run the word's instruction, or refuse it by name (R84, R85). -/
def runDecoded (d : Except DecodeError Instr) (s : State) : Fetched :=
  match d with
  | .ok i => .run i s
  | .error e => .refuse (.undecodable e)

/-- The request is presented and taken; a host word is latched (R11, R81). An issue while `busy` is refused before the word
is looked at (R87). -/
def takeRequest (r : Request) (s : State) : Fetched :=
  match r with
  | .powerOn d => .goTo (State.powerOn d s)
  | .host w => if s.busy then .refuse .issueWhileBusy else runDecoded (decodeHost w) { s with cmd := w }
  | .wire w => if s.busy then .refuse .issueWhileBusy else runDecoded (decodeWire w) s

/-- The host, at an idle block with nothing presented, presents the next request of its script (R5, log entry 13); with an
empty script the block waits (R226). -/
def hostMove (s : State) : State :=
  match s.host.script with
  | [] => s
  | r :: rest => { s with host := { request := some r, script := rest } }

/-- An operation that has not returned goes on (R11): one more poll iteration (R176), or the busy-wait that never ends
(R107). -/
def continueOperation (s : State) : Fetched :=
  match s.pos with
  | .polling address marker =>
    match xportVariant s.xport with
    | none => .refuse .transmitUnbound
    | some v => .goTo (pollIteration v address marker s).finish
  | .hung => .goTo s
  | .idle => .goTo s

/-- What the next step does. -/
def fetch (s : State) : Fetched :=
  match s.host.request with
  | some r => takeRequest r { s with host := { s.host with request := none } }
  | none => if s.busy then continueOperation s else .goTo (hostMove s)

end Sys2Proof.Machine
end

