-- ==== Sys2Proof/Machine/Step.lean ====
section
/-! DEFINITION. One step of the machine. -/

namespace Sys2Proof.Machine

/-- One step: the instruction that `fetch` gives, run; or the state it goes to; or its refusal. -/
def step (s : State) : Host.Outcome State Fault Refusal :=
  match fetch s with
  | .run i t => exec i t
  | .goTo t => .next t
  | .refuse r => .refused r

/-- The instruction with the table's bits `w` presented at the block: a 32-bit row as a wire command, a 56-bit row as the
host command word with its issue pulse (log entries 2, 13). Nothing else changes. -/
def State.withFetchWord (s : State) (nbits w : Nat) : State :=
  { s with host := { s.host with
      request := some (if nbits = 32 then .wire (BitVec.ofNat 32 w) else .host (BitVec.ofNat 56 w)) } }

end Sys2Proof.Machine
end

