-- ==== Sys2Proof/Safety.lean ====
section
/-! DEFINITION. What claims are stated in: the observable traces (R58), counts over them, the frames, and the invariant of
the machine. -/

namespace Sys2Proof.Machine

/-! ### What the log shows (the latest event first) -/

/-- The exchanges of a log, `(tx, rx)`, the latest first (R58 (b)). -/
def exchanges : List Event → List (Byte × Byte)
  | [] => []
  | .byte tx rx :: rest => (tx, rx) :: exchanges rest
  | .line _ _ :: rest => exchanges rest
  | .wire _ :: rest => exchanges rest
  | .sample _ :: rest => exchanges rest
  | .wait _ :: rest => exchanges rest
  | .delay _ :: rest => exchanges rest
  | .tick _ :: rest => exchanges rest

/-- The levels written to the reset line, the latest first. -/
def resetLevels : List Event → List Bool
  | [] => []
  | .line .rst v :: rest => v :: resetLevels rest
  | .line .sck _ :: rest => resetLevels rest
  | .line .mosi _ :: rest => resetLevels rest
  | .byte _ _ :: rest => resetLevels rest
  | .wire _ :: rest => resetLevels rest
  | .sample _ :: rest => resetLevels rest
  | .wait _ :: rest => resetLevels rest
  | .delay _ :: rest => resetLevels rest
  | .tick _ :: rest => resetLevels rest

/-- The waits of a log in wait units, the latest first. -/
def waits : List Event → List Nat
  | [] => []
  | .wait n :: rest => n :: waits rest
  | .line _ _ :: rest => waits rest
  | .byte _ _ :: rest => waits rest
  | .wire _ :: rest => waits rest
  | .sample _ :: rest => waits rest
  | .delay _ :: rest => waits rest
  | .tick _ :: rest => waits rest

/-- The ticks that all delays of a log ask for: a lower bound of the time it took (R251). -/
def ticksWaited : List Event → Nat
  | [] => 0
  | .delay n :: rest => n.toNat + ticksWaited rest
  | .line _ _ :: rest => ticksWaited rest
  | .byte _ _ :: rest => ticksWaited rest
  | .wire _ :: rest => ticksWaited rest
  | .sample _ :: rest => ticksWaited rest
  | .wait _ :: rest => ticksWaited rest
  | .tick _ :: rest => ticksWaited rest

/-- The levels written to MOSI, the latest first. -/
def mosiLevels : List Event → List Bool
  | [] => []
  | .line .mosi v :: rest => v :: mosiLevels rest
  | .line .sck _ :: rest => mosiLevels rest
  | .line .rst _ :: rest => mosiLevels rest
  | .byte _ _ :: rest => mosiLevels rest
  | .wire _ :: rest => mosiLevels rest
  | .sample _ :: rest => mosiLevels rest
  | .wait _ :: rest => mosiLevels rest
  | .delay _ :: rest => mosiLevels rest
  | .tick _ :: rest => mosiLevels rest

/-- The levels sampled from MISO, the latest first. -/
def misoSamples : List Event → List Bool
  | [] => []
  | .sample v :: rest => v :: misoSamples rest
  | .line _ _ :: rest => misoSamples rest
  | .byte _ _ :: rest => misoSamples rest
  | .wire _ :: rest => misoSamples rest
  | .wait _ :: rest => misoSamples rest
  | .delay _ :: rest => misoSamples rest
  | .tick _ :: rest => misoSamples rest

/-- The levels the wire was at, the latest first. -/
def wires : List Event → List Wire
  | [] => []
  | .wire w :: rest => w :: wires rest
  | .line _ _ :: rest => wires rest
  | .byte _ _ :: rest => wires rest
  | .sample _ :: rest => wires rest
  | .wait _ :: rest => wires rest
  | .delay _ :: rest => wires rest
  | .tick _ :: rest => wires rest

/-- An event that no reading of the wire hides: every one but the levels of the wire. -/
def Event.isAction : Event → Bool
  | .wire _ => false
  | .line _ _ => true
  | .sample _ => true
  | .byte _ _ => true
  | .wait _ => true
  | .delay _ => true
  | .tick _ => true

/-- The log without the levels of the wire, the latest first: what the pseudocode did, line by line. -/
def actions (t : List Event) : List Event := t.filter Event.isAction

/-- An event of the byte trace (R58 (b)). -/
def Event.inByteTrace : Event → Bool
  | .line .rst _ => true
  | .line .sck _ => false
  | .line .mosi _ => false
  | .byte _ _ => true
  | .wait _ => true
  | .tick _ => true
  | .wire _ => false
  | .sample _ => false
  | .delay _ => false

/-- The byte trace with its pulses, waits and poll readings (R58 (b)), the latest first. -/
def byteTrace (t : List Event) : List Event := t.filter Event.inByteTrace

/-- The levels `ls` driven at the next samples, as an oracle's script. -/
def drivenLevels (ls : List Bool) : List Drive := ls.map Drive.driven

/-- The bits of a byte, bit 7 first. -/
def bitsFirstToLast (b : Byte) : List Bool := (List.range 8).map fun k => b.getLsbD (7 - k)

/-- The bits of a byte, bit 0 first: the latest first in a log of bits sent most significant first. -/
def bitsLatestFirst (b : Byte) : List Bool := (List.range 8).map fun k => b.getLsbD k

/-- The bytes `bs` answered bit by bit, most significant bit first, as an oracle's script (R43). -/
def answers (bs : List Byte) : List Drive := drivenLevels (bs.flatMap bitsFirstToLast)

/-! ### What the pseudocode does, as logs (the latest event first) -/

/-- One bit of a variant: `out` driven on MOSI, `inp` sampled; `d` is `sw_delay` (R101, R102, R105). -/
def bitEvents (v : Variant) (d : Tick) (out inp : Bool) : List Event :=
  match v with
  | .sw => [.delay d, .line .sck false, .delay d, .line .sck true, .sample inp, .line .mosi out]
  | .hw => [.line .sck false, .sample inp, .line .sck true, .line .mosi out]

/-- One byte: eight bits, the most significant first, then the exchange itself (R43, R58). -/
def byteEvents (v : Variant) (d : Tick) (tx rx : Byte) : List Event :=
  .byte tx rx :: (List.range 8).flatMap fun k => bitEvents v d (tx.getLsbD k) (rx.getLsbD k)

/-- One wire command: four bytes, the first byte first (R69). -/
def commandEvents (v : Variant) (d : Tick) (w : WireWord) (r : Response) : List Event :=
  byteEvents v d (wireByte w 3) r.r4 ++ byteEvents v d (wireByte w 2) r.r3 ++ byteEvents v d (wireByte w 1) r.r2 ++
    byteEvents v d (wireByte w 0) r.r1

/-- A flash command with what the Address Tracker sends before it: Load Extended Address exactly when the cached byte `hi`
differs (R160, R164). -/
def flashEvents (v : Variant) (d : Tick) (hi : Byte) (address : FlashAddr) (load : Response) (w : WireWord) (r : Response) :
    List Event :=
  commandEvents v d w r ++
    (if extByte address = hi then [] else commandEvents v d (loadExtWord (extByte address)) load)

/-- `Wait(n)` (R110). -/
def waitEvents (n : Nat) : List Event := List.replicate n (.delay params.unitTicks) ++ [.wait n]

/-- `PulseReset()` (R126). -/
def pulseEvents : List Event := .line .rst false :: waitEvents params.resetPulseUnits ++ [.line .rst true]

/-- What one wire command with its response adds to the exchanges of a log, the latest first (R69). -/
def commandLog (w : WireWord) (r : Response) : List (Byte × Byte) :=
  [(wireByte w 3, r.r4), (wireByte w 2, r.r3), (wireByte w 1, r.r2), (wireByte w 0, r.r1)]

/-- One handshake try in the byte trace (R139). -/
def tryTrace (r : Response) : List Event :=
  [.byte 0x00 r.r4, .byte 0x00 r.r3, .byte 0x53 r.r2, .byte 0xAC r.r1, .wait params.settleUnits, .line .rst false,
    .wait params.resetPulseUnits, .line .rst true]

/-! ### Whether the bound variant can complete a transfer -/

/-- A variant that completes its transfers from this state: the software one always (R101), the hardware one while the
engine is enabled (R105, R107). -/
def live (v : Variant) (s : State) : Bool :=
  match v with
  | .sw => true
  | .hw => s.engineEnabled

/-- The bound variant, where it completes its transfers (R100, R107). -/
def ready (s : State) : Bool :=
  match xportVariant s.xport with
  | none => false
  | some v => live v s

/-! ### The state after -/

/-- The registers after one byte `tx` was sent and `rx` received: the latches of the software variant (R104), the engine's
registers of the hardware variant (R105, R106). -/
def afterByte (v : Variant) (tx rx : Byte) (s : State) : State :=
  match v with
  | .sw => { s with outSck := false, outMosi := tx.getLsbD 0 }
  | .hw => { s with
      data := rx, status := withFlag false s.status, engShift := rx, engCount := 0, engSck := false,
      engMosi := tx.getLsbD 0 }

/-- The registers after a wire command. -/
def afterCommand (v : Variant) (w : WireWord) (r : Response) (s : State) : State :=
  { afterByte v (wireByte w 3) r.r4 s with resp := r }

/-- The registers after a flash command (R164). -/
def afterFlash (v : Variant) (address : FlashAddr) (w : WireWord) (r : Response) (s : State) : State :=
  afterCommand v w r { s with hiaddr := extByte address }

/-- The registers after `SetSpeed` of a hardware setting with the fields `presc` and `dbl` (R92, R95, R66); the engine's MOSI
comes up at 0 where it was off (R123 (a), log entry 10). -/
def boundHardware (o : Setting) (presc : BitVec 2) (dbl : Bool) (s : State) : State :=
  { s with
    xport := .hw, swDelay := 1, status := withDbl dbl s.status, ctrl := 0x50 ||| presc.setWidth 8, speed := o,
    engMosi := ctrlEn s.ctrl && s.engMosi }

/-- The registers after `SetSpeed` of a software setting with the delay count `d` (R93, R95). -/
def boundSoftware (o : Setting) (d : Byte) (s : State) : State :=
  { s with xport := .sw, swDelay := d, ctrl := 0x00, speed := o }

/-- The registers after `connect()` (R121). -/
def connected (s : State) : State :=
  { s with
    outRst := false, outSck := false, dirRst := true, dirSck := true, dirMosi := true, pullupMiso := true, hiaddr := 0xFF }

/-- The registers after `disconnect()` (R124). -/
def disconnected (s : State) : State :=
  { s with
    dirRst := false, dirSck := false, dirMosi := false, outRst := false, outSck := false, outMosi := false,
    pullupMiso := false, ctrl := 0x00, speed := 0 }

/-- The operation has returned `v` (R28, R87). -/
def returnedWith (v : Byte) (s : State) : State := { s with rc := v, busy := false, pos := .idle }

/-- `t` is `u` but for `delay_start` and the environment. -/
def Settles (u t : State) : Prop := t = { u with delayStart := t.delayStart, env := t.env }

/-- From `s` to `t` the block did exactly `es`, the latest first. -/
def Did (es : List Event) (s t : State) : Prop := actions t.env.trace = es ++ actions s.env.trace

/-- One iteration of `PollFlash(address, marker)` with a budget left, from `s` to `t` (R176): the read; if it differs from
the marker the poll returns 0; otherwise the window test on a reading `x`, and when more than `UNIT_TICKS` went by, a new
window from a fresh reading `y` and one less in the budget, with 1 returned when none is left. -/
def PollIterated (v : Variant) (address : FlashAddr) (marker : Byte) (s t : State) : Prop :=
  ∃ load r : Response,
    (r.r4 ≠ marker ∧
      Settles (returnedWith 0 (afterFlash v address (readFlashWord address) r s)) t ∧
      Did (flashEvents v s.swDelay s.hiaddr address load (readFlashWord address) r) s t) ∨
    (r.r4 = marker ∧ ∃ x : Tick, ¬ params.unitTicks < elapsed x s.winStart ∧
      Settles { afterFlash v address (readFlashWord address) r s with pos := .polling address marker } t ∧
      Did (.tick x :: flashEvents v s.swDelay s.hiaddr address load (readFlashWord address) r) s t) ∨
    (r.r4 = marker ∧ ∃ x y : Tick, params.unitTicks < elapsed x s.winStart ∧ s.retries ≠ 1 ∧
      Settles { afterFlash v address (readFlashWord address) r s with
        winStart := y, retries := s.retries - 1, pos := .polling address marker } t ∧
      Did (.tick y :: .tick x :: flashEvents v s.swDelay s.hiaddr address load (readFlashWord address) r) s t) ∨
    (r.r4 = marker ∧ ∃ x y : Tick, params.unitTicks < elapsed x s.winStart ∧ s.retries = 1 ∧
      Settles (returnedWith 1 { afterFlash v address (readFlashWord address) r s with winStart := y, retries := 0 }) t ∧
      Did (.tick y :: .tick x :: flashEvents v s.swDelay s.hiaddr address load (readFlashWord address) r) s t)

/-- What no handshake touches (R149, R147): the cached byte, the directions, the pull-up, the poll registers, the latched
word and the host's side; RST rests at 0. -/
structure HandshakeFrame (s t : State) : Prop where
  hiaddr : t.hiaddr = s.hiaddr
  dirRst : t.dirRst = s.dirRst
  dirSck : t.dirSck = s.dirSck
  dirMosi : t.dirMosi = s.dirMosi
  pullupMiso : t.pullupMiso = s.pullupMiso
  retries : t.retries = s.retries
  winStart : t.winStart = s.winStart
  cmd : t.cmd = s.cmd
  host : t.host = s.host
  outRst : t.outRst = false

/-- The instructions that change the cached extended byte for an address: the three flash operations, through the Address
Tracker (R164), and Load Extended Address run by itself (log entry 2). -/
def runsTracker : Instr → Bool
  | .readFlash _ => true
  | .writeFlash _ _ _ => true
  | .flushPage _ _ => true
  | .loadExtAddr _ => true
  | .setSpeed _ => false
  | .connect => false
  | .disconnect => false
  | .enterProg => false
  | .progEnable => false
  | .readFlashLo _ _ => false
  | .readFlashHi _ _ => false
  | .writeFlashLo _ _ _ => false
  | .writeFlashHi _ _ _ => false
  | .writeFlashPage _ _ => false
  | .wireReadEeprom _ _ => false
  | .wireWriteEeprom _ _ _ => false
  | .readEeprom _ => false
  | .writeEeprom _ _ => false

/-- The state after instructions issued one after the other, where each answers a next state. -/
def execAll : List Instr → State → Option State
  | [], s => some s
  | i :: rest, s =>
    match exec i s with
    | .next t => execAll rest t
    | .fault _ => none
    | .refused _ => none

/-- The instructions that transmit: the nine wire commands and the five memory operations (R69, R170 to R181). -/
def transmits : Instr → Bool
  | .setSpeed _ => false
  | .connect => false
  | .disconnect => false
  | .enterProg => false
  | .progEnable => true
  | .loadExtAddr _ => true
  | .readFlashLo _ _ => true
  | .readFlashHi _ _ => true
  | .writeFlashLo _ _ _ => true
  | .writeFlashHi _ _ _ => true
  | .writeFlashPage _ _ => true
  | .wireReadEeprom _ _ => true
  | .wireWriteEeprom _ _ _ => true
  | .readFlash _ => true
  | .writeFlash _ _ _ => true
  | .flushPage _ _ => true
  | .readEeprom _ => true
  | .writeEeprom _ _ => true

/-! ### The invariant -/

/-- The registers hold only what the rules write: R12, R18, R19, R21, R68, R23, and the engine is off unless the hardware
variant is bound (R13, R93). -/
abbrev RegistersLegal (s : State) : Prop :=
  s.speed.toNat ≤ 12 ∧ ctrlLegal s.ctrl = true ∧ statusAtRest s.status = true ∧ (s.xport ≠ .hw → s.ctrl = ctrlDisabled) ∧
  (s.hsState = .idle ∨ s.hsState = .success ∨ s.hsState = .fail)

/-- A configured speed is the one that is bound (R13, R92, R93, R95). -/
def speedBoundTo (s : State) : Bool :=
  if isHardware s.speed then
    match hwRow s.speed with
    | some r => s.xport = .hw && s.swDelay = params.swDelayHw && s.ctrl = ctrlEnabled r.presc && statusDbl s.status == r.dbl
    | none => false
  else s.xport = .sw && s.swDelay = softwareDelay s.speed

/-- Between steps RST and SCK rest at 0, the engine is idle, and the lines and the pull-up are set together (R22, R41, R45,
R120, R121, R124). -/
abbrev LinesAtRest (s : State) : Prop :=
  s.outRst = false ∧ s.outSck = false ∧ s.engSck = false ∧ s.engCount = 0 ∧ s.dirSck = s.dirRst ∧ s.dirMosi = s.dirRst ∧
  s.pullupMiso = s.dirRst

/-- Where an operation can be left: idle with `busy` 0; in the poll loop with budget left and a variant that completes; in
the busy-wait of a disabled engine (R11, R27, R107, R176). -/
def positionLegal (s : State) : Bool :=
  match s.pos with
  | .idle => !s.busy
  | .polling _ _ => s.busy && decide (1 ≤ s.retries.toNat ∧ s.retries.toNat ≤ 30) && ready s
  | .hung => s.busy && decide (s.xport = .hw) && !s.engineEnabled

/-- A session with the cooperative target `c` (R56, R227): connected, a variant bound that completes, the target in
programming mode and between two commands. -/
structure InSession (v : Variant) (c : Coop) (s : State) : Prop where
  bound : xportVariant s.xport = some v
  live : live v s = true
  engineOff : v = .sw → s.ctrl = ctrlDisabled
  dirRst : s.dirRst = true
  dirSck : s.dirSck = true
  dirMosi : s.dirMosi = true
  outRst : s.outRst = false
  outSck : s.outSck = false
  engSck : s.engSck = false
  target : s.env.target = .cooperative c
  listening : c.listening = true
  progMode : c.progMode = true
  received : c.received = []
  bitCount : c.bitCount = 0
  shiftIn : c.shiftIn = 0
  answer : c.answer = none

/-- What one whole command leaves of a target in programming mode: the read, the effect, and a new command boundary (R56). -/
def Coop.command (c : Coop) (w : WireWord) : Coop :=
  { (c.fourthAnswer (wireByte w 0) (wireByte w 1) (wireByte w 2)).2.execute (wireByte w 0) (wireByte w 1) (wireByte w 2)
      (wireByte w 3) with received := [], answer := none, firstCommand := false }

/-- The data a read command answers in its fourth byte; for any other command the echo of the third (R56). -/
def Coop.data (c : Coop) (w : WireWord) : Byte := (c.fourthAnswer (wireByte w 0) (wireByte w 1) (wireByte w 2)).1

/-- After the Address Tracker has run for the address, the target's extended byte is the address's own: a Load Extended
Address is sent, or the target holds the byte that the cache has (R47, R160; R165 and R240 say when it does not). -/
def CacheAgrees (c : Coop) (address : FlashAddr) (s : State) : Prop := extByte address ≠ s.hiaddr ∨ c.extended = s.hiaddr

/-- The flash byte a `MemoryAddress` names: bits 24 to 0 (R46). -/
def flashOffset (address : FlashAddr) : Nat := address.toNat % 2 ^ 25

/-- The invariant of the machine. -/
abbrev Invariant (s : State) : Prop :=
  RegistersLegal s ∧ (s.speed ≠ params.idxAuto → speedBoundTo s = true) ∧ LinesAtRest s ∧ positionLegal s = true ∧
  s.env.target.wf = true

end Sys2Proof.Machine
end

