-- ==== Sys2Proof/Certificates/Slice0/Obligations.lean ====
section
/-! DEFINITION. The statements for the provers. A statement that rests on a choice of the model names its log entry; one
that rests on a decision of the spec's own names the decision (D<n>, spec/92_eei_decisions.md). -/

open Sys2Proof Sys2Proof.Machine

/-! ### Encoding -/

/-- One word of every row, written out from its pattern (R72 to R80; R81, R86 with decision D2), decodes to the row's
instruction. -/
def Obligations.SampleWordsDecode : Prop :=
  decodeWire 0b10101100_01010011_00000000_00000000#32 = .ok .progEnable ∧
  decodeWire 0b01001101_00000000_00000001_00000000#32 = .ok (.loadExtAddr 0x01) ∧
  decodeWire 0b00100000_00000001_10000000_00000000#32 = .ok (.readFlashLo 0x01 0x80) ∧
  decodeWire 0b00101000_10010001_10100010_00000000#32 = .ok (.readFlashHi 0x91 0xA2) ∧
  decodeWire 0b01000000_00000000_10000000_01010101#32 = .ok (.writeFlashLo 0x00 0x80 0x55) ∧
  decodeWire 0b01001000_11111111_11111111_01111111#32 = .ok (.writeFlashHi 0xFF 0xFF 0x7F) ∧
  decodeWire 0b01001100_00000000_01000000_00000000#32 = .ok (.writeFlashPage 0x00 0x40) ∧
  decodeWire 0b10100000_00000001_11111111_00000000#32 = .ok (.wireReadEeprom 0x01 0xFF) ∧
  decodeWire 0b11000000_00000000_00010000_01011010#32 = .ok (.wireWriteEeprom 0x00 0x10 0x5A) ∧
  decodeHost 0x0000000000000B#56 = .ok (.setSpeed 11) ∧
  decodeHost 0x01FFFFFFFFFFFF#56 = .ok .connect ∧
  decodeHost 0x02000000000000#56 = .ok .disconnect ∧
  decodeHost 0x03000000000000#56 = .ok .enterProg ∧
  decodeHost 0x04000123450000#56 = .ok (.readFlash 0x00012345) ∧
  decodeHost 0x0500020000AA01#56 = .ok (.writeFlash 0x00020000 0xAA 1) ∧
  decodeHost 0x06000000801200#56 = .ok (.flushPage 0x00000080 0x12) ∧
  decodeHost 0x07FFFF01FF0000#56 = .ok (.readEeprom 0x01FF) ∧
  decodeHost 0x08000000105A00#56 = .ok (.writeEeprom 0x0010 0x5A)

/-- R72 to R80: a wire word decodes to a row's instruction exactly when it matches the row's pattern, and the operands are
the pattern's fields. -/
def Obligations.WirePatterns : Prop :=
  ∀ (w : WireWord) (a b d h : Byte),
    (decodeWire w = .ok .progEnable ↔ w = 0xAC530000) ∧
    (decodeWire w = .ok (.loadExtAddr h) ↔ w &&& 0xFFFF00FF = 0x4D000000 ∧ h = w.extractLsb' 8 8) ∧
    (decodeWire w = .ok (.readFlashLo a b) ↔
      w &&& 0xFF0000FF = 0x20000000 ∧ a = w.extractLsb' 16 8 ∧ b = w.extractLsb' 8 8) ∧
    (decodeWire w = .ok (.readFlashHi a b) ↔
      w &&& 0xFF0000FF = 0x28000000 ∧ a = w.extractLsb' 16 8 ∧ b = w.extractLsb' 8 8) ∧
    (decodeWire w = .ok (.writeFlashLo a b d) ↔
      w &&& 0xFF000000 = 0x40000000 ∧ a = w.extractLsb' 16 8 ∧ b = w.extractLsb' 8 8 ∧ d = w.extractLsb' 0 8) ∧
    (decodeWire w = .ok (.writeFlashHi a b d) ↔
      w &&& 0xFF000000 = 0x48000000 ∧ a = w.extractLsb' 16 8 ∧ b = w.extractLsb' 8 8 ∧ d = w.extractLsb' 0 8) ∧
    (decodeWire w = .ok (.writeFlashPage a b) ↔
      w &&& 0xFF0000FF = 0x4C000000 ∧ a = w.extractLsb' 16 8 ∧ b = w.extractLsb' 8 8) ∧
    (decodeWire w = .ok (.wireReadEeprom a b) ↔
      w &&& 0xFF0000FF = 0xA0000000 ∧ a = w.extractLsb' 16 8 ∧ b = w.extractLsb' 8 8) ∧
    (decodeWire w = .ok (.wireWriteEeprom a b d) ↔
      w &&& 0xFF000000 = 0xC0000000 ∧ a = w.extractLsb' 16 8 ∧ b = w.extractLsb' 8 8 ∧ d = w.extractLsb' 0 8)

/-- R81, R84 to R86 (decisions D2, D27): each selector's operation takes its operands from the fields the format gives and
ignores the others; reserved selectors and options are refused. -/
def Obligations.HostWordFields : Prop :=
  ∀ (selector : Byte) (addr : FlashAddr) (data aux : Byte),
    decodeHost (selector ++ addr ++ data ++ aux : BitVec 56) =
      if selector = 0x00 then
        (if 0x10 ≤ aux then .error .auxHighBits
        else if 13 ≤ aux then .error .reservedOption
        else .ok (.setSpeed (aux.setWidth 4)))
      else if selector = 0x01 then .ok .connect
      else if selector = 0x02 then .ok .disconnect
      else if selector = 0x03 then .ok .enterProg
      else if selector = 0x04 then .ok (.readFlash addr)
      else if selector = 0x05 then .ok (.writeFlash addr data aux)
      else if selector = 0x06 then .ok (.flushPage addr data)
      else if selector = 0x07 then .ok (.readEeprom (addr.setWidth 16))
      else if selector = 0x08 then .ok (.writeEeprom (addr.setWidth 16) data)
      else .error .unknownSelector

/-- Every well-formed instruction is what its word decodes to, at every value of every operand. -/
def Obligations.DecodeEncode : Prop :=
  ∀ i : Instr, i.wellFormed = true → decodeWord (encodeWord i) = .ok i

/-- The same through the bytes of the word; that a host word's bytes come most significant first is log entry 14. -/
def Obligations.DecodeEncodeBytes : Prop :=
  ∀ i : Instr, i.wellFormed = true → (encode i).length = i.format.bytes ∧ decodeBytes (encode i) = .ok i

/-- A wire word that decodes is the word of what it decodes to: no two words spell one wire command (R69 to R80). -/
def Obligations.WireWordOfDecoded : Prop :=
  ∀ (w : WireWord) (i : Instr), decodeWire w = .ok i → encodeWord i = .wire w

/-- Whatever decodes is well formed: no reserved speed option gets through (R84). -/
def Obligations.DecodedWellFormed : Prop :=
  ∀ (c : CommandWord) (i : Instr), decodeWord c = .ok i → i.wellFormed = true

/-! ### Operands -/

/-- R70: where the flash address goes in the words of the five flash commands. -/
def Obligations.FlashAddressSplit : Prop :=
  ∀ (address : FlashAddr) (data : Byte),
    flashHigh address = (address >>> 9).setWidth 8 ∧ flashHigh address = address.extractLsb' 9 8 ∧
    flashLow address = (address >>> 1).setWidth 8 ∧ flashLow address = address.extractLsb' 1 8 ∧
    readFlashWord address = wireWord (0x20#8 ||| ((address &&& 1) <<< 3).setWidth 8) (address.extractLsb' 9 8)
      (address.extractLsb' 1 8) 0x00 ∧
    writeFlashWord address data = wireWord (0x40#8 ||| ((address &&& 1) <<< 3).setWidth 8) (address.extractLsb' 9 8)
      (address.extractLsb' 1 8) data ∧
    writePageWord address = wireWord 0x4C (address.extractLsb' 9 8) (address.extractLsb' 1 8) 0x00 ∧
    ((address &&& 1) <<< 3).setWidth 8 = (if address.getLsbD 0 then 0x08#8 else 0x00#8)

/-- R71: the extended byte, the EEPROM address bytes, and the data byte unchanged. -/
def Obligations.ExtendedAndEepromFields : Prop :=
  ∀ (address : FlashAddr) (ee : EeAddr) (data : Byte),
    loadExtWord (extByte address) = wireWord 0x4D 0x00 (address.extractLsb' 17 8) 0x00 ∧
    extByte address = (address >>> 17).setWidth 8 ∧ extByte address = address.extractLsb' 17 8 ∧
    readEepromWord ee = wireWord 0xA0 (ee.extractLsb' 8 8) (ee.extractLsb' 0 8) 0x00 ∧
    writeEepromWord ee data = wireWord 0xC0 (ee.extractLsb' 8 8) (ee.extractLsb' 0 8) data ∧
    wireByte (writeFlashWord address data) 3 = data ∧
    (ee >>> 8).setWidth 8 = ee.extractLsb' 8 8 ∧ ee.setWidth 8 = ee.extractLsb' 0 8

/-- The commands the operations send are the rows of the table: the byte select chooses between the low and the high row
(R74 to R80, R170 to R181). -/
def Obligations.OperationsSendTableCommands : Prop :=
  ∀ (address : FlashAddr) (ee : EeAddr) (data : Byte),
    decodeWire (readFlashWord address) = .ok
      (if address.getLsbD 0 then .readFlashHi (flashHigh address) (flashLow address)
      else .readFlashLo (flashHigh address) (flashLow address)) ∧
    decodeWire (writeFlashWord address data) = .ok
      (if address.getLsbD 0 then .writeFlashHi (flashHigh address) (flashLow address) data
      else .writeFlashLo (flashHigh address) (flashLow address) data) ∧
    decodeWire (writePageWord address) = .ok (.writeFlashPage (flashHigh address) (flashLow address)) ∧
    decodeWire (loadExtWord (extByte address)) = .ok (.loadExtAddr (extByte address)) ∧
    decodeWire progEnableWord = .ok .progEnable ∧
    decodeWire (readEepromWord ee) = .ok (.wireReadEeprom (eeHigh ee) (eeLow ee)) ∧
    decodeWire (writeEepromWord ee data) = .ok (.wireWriteEeprom (eeHigh ee) (eeLow ee) data)

/-- R212: elapsed time is a subtraction modulo the width of the counter; it is the true one exactly below `2^W`. -/
def Obligations.ElapsedModulo : Prop :=
  (∀ now start : Tick, (elapsed now start).toNat = (now.toNat + 256 - start.toNat) % 256) ∧
  (∀ (start : Tick) (n : Nat), (elapsed (start + BitVec.ofNat 8 n) start).toNat = n ↔ n < 256) ∧
  elapsed 0x2D 0xF0 = 61 ∧ params.unitTicks < elapsed 0x2D 0xF0

/-! ### The Speed Controller -/

/-- R92, R63, R66 (decisions D5, D6, D9, D10): the six hardware settings and the registers they write, all else as it was,
nothing done on the link. That an engine which was off comes up with MOSI at 0 is R123 (a) as log entry 10 reads it. -/
def Obligations.SetSpeedHardware : Prop :=
  ∀ (o : Setting) (presc : BitVec 2) (dbl : Bool) (s : State), s.busy = false →
    (o, presc, dbl) ∈ [((12 : Setting), (0 : BitVec 2), false), (11, 1, true), (10, 1, false), (9, 2, true), (8, 2, false),
      (7, 3, false)] →
    ∃ t, exec (.setSpeed o) s = .next t ∧ Settles (returnedWith 0 (boundHardware o presc dbl s)) t ∧
      t.delayStart = s.delayStart ∧ Did [] s t

/-- R93, R62 (decisions D3, D9): the six software settings and their delay counts; the engine is switched off and STATUS
stays. -/
def Obligations.SetSpeedSoftware : Prop :=
  ∀ (o : Setting) (d : Byte) (s : State), s.busy = false →
    (o, d) ∈ [((6 : Setting), (3 : Byte)), (5, 6), (4, 12), (3, 24), (2, 48), (1, 96)] →
    ∃ t, exec (.setSpeed o) s = .next t ∧ Settles (returnedWith 0 (boundSoftware o d s)) t ∧
      t.delayStart = s.delayStart ∧ Did [] s t

/-- R91 (decision D7): `AUTO` is replaced by `AUTO_DEFAULT` = 9 before anything else, also in what is recorded. -/
def Obligations.SetSpeedAuto : Prop :=
  ∀ s : State, exec (.setSpeed 0) s = exec (.setSpeed 9) s ∧
    (s.busy = false → ∃ t, exec (.setSpeed 0) s = .next t ∧ t.speed = 9 ∧ t.xport = .hw ∧ t.ctrl = 0x52 ∧
      statusDbl t.status = true ∧ t.swDelay = 1 ∧ t.rc = 0 ∧ t.busy = false)

/-- R84, R94 (decision D27): options 13 to 15 are refused, and so is their host word. -/
def Obligations.SetSpeedReserved : Prop :=
  ∀ (o : Setting) (s : State), s.busy = false → 13 ≤ o.toNat →
    exec (.setSpeed o) s = .refused .speedOutOfRange ∧
    decodeHost (hostWord 0x00 0 0 (o.setWidth 8)) = .error .reservedOption

/-- R13, R18 (decisions D3, D6, D9): after any SetSpeed exactly one variant is active: `HW` is bound exactly when the
setting is 7 or more, exactly when the engine is enabled. -/
def Obligations.SetSpeedBindsOneVariant : Prop :=
  ∀ (o : Setting) (s t : State), exec (.setSpeed o) s = .next t →
    (t.xport = .hw ↔ 7 ≤ t.speed.toNat) ∧ t.xport ≠ .none ∧ (t.engineEnabled = true ↔ t.xport = .hw) ∧
    ctrlLegal t.ctrl = true

/-- R244, R90 (decision D29): whatever changes owner, SetSpeed makes no clock edge and leaves the reset line: with both owners
resting at 0, every level the wire takes has SCK and RST as they were. -/
def Obligations.SetSpeedNoClockEdge : Prop :=
  ∀ (o : Setting) (s t : State), s.outSck = false → s.engSck = false → exec (.setSpeed o) s = .next t →
    t.wire.sck = s.wire.sck ∧ t.wire.rst = s.wire.rst ∧
    ∃ ws, wires t.env.trace = ws ++ wires s.env.trace ∧ ∀ w ∈ ws, w.sck = s.wire.sck ∧ w.rst = s.wire.rst

/-! ### The Link Controller -/

/-- R121, R122 (decision D19): what `connect` leaves, and all it does: one positive pulse of one wait unit. -/
def Obligations.ConnectResult : Prop :=
  ∀ s : State, s.busy = false →
    ∃ t, exec .connect s = .next t ∧ Settles (returnedWith 0 (connected s)) t ∧ Did pulseEvents s t

/-- R124, R125, R127 (decisions D20, D21, D26): what `disconnect` leaves; the lines are released, nothing is pulsed, waited or
sent. -/
def Obligations.DisconnectResult : Prop :=
  ∀ s : State, s.busy = false →
    ∃ t, exec .disconnect s = .next t ∧ Settles (returnedWith 0 (disconnected s)) t ∧ t.delayStart = s.delayStart ∧
      Did [] s t ∧ t.wire = { rst := none, sck := none, mosi := none }

/-! ### The Transport Primitive and the waits -/

/-- R101, R102, R103: `TransmitSw` returns from every state; its latches, its order inside a bit, the byte assembled from the
samples first to last; and the byte a script of samples spells. -/
def Obligations.TransmitSoftwareByte : Prop :=
  ∀ (b : Byte) (s : State),
    ∃ r t, transmit .sw b s = .returned r t ∧ Settles { s with outSck := false, outMosi := b.getLsbD 0 } t ∧
      Did (byteEvents .sw s.swDelay b r) s t ∧
      (∀ (x : Byte) (rest : List Drive), s.env.target = .oracle → s.env.miso = answers [x] ++ rest →
        r = x ∧ t.env.miso = rest)

/-- R105, R106 (decisions D17, D18): with the engine enabled `TransmitHw` returns; DATA holds the byte received, the flag is
clear, the latches are not touched, no tick is read. What the engine's shift register, its bit counter and its lines hold
afterwards is the model's reading, log entry 10. -/
def Obligations.TransmitHardwareByte : Prop :=
  ∀ (b : Byte) (s : State), s.engineEnabled = true →
    ∃ r t, transmit .hw b s = .returned r t ∧
      t = { s with
        data := r, status := withFlag false s.status, engShift := r, engCount := 0, engSck := false,
        engMosi := b.getLsbD 0, env := t.env } ∧
      statusFlag t.status = false ∧ statusDbl t.status = statusDbl s.status ∧
      Did (byteEvents .hw s.swDelay b r) s t ∧ t.env.ticks = s.env.ticks ∧ t.env.tickDraws = s.env.tickDraws ∧
      (∀ (x : Byte) (rest : List Drive), s.env.target = .oracle → s.env.miso = answers [x] ++ rest →
        r = x ∧ t.env.miso = rest)

/-- R43: most significant bit first, in both directions, in both variants; and no step sets the bit that would switch the
order, `CTRL.lsbf`, bit 5 by decision D6 (log entry 9). -/
def Obligations.BitOrder : Prop :=
  (∀ (v : Variant) (b r : Byte) (s t : State), transmit v b s = .returned r t →
    mosiLevels t.env.trace = bitsLatestFirst b ++ mosiLevels s.env.trace ∧
    misoSamples t.env.trace = bitsLatestFirst r ++ misoSamples s.env.trace) ∧
  (∀ s t : State, step s = .next t → s.ctrl.getLsbD 5 = false → t.ctrl.getLsbD 5 = false)

/-- R58, R108 (decisions D17, D18): for the same answers of the target both variants give the same bytes of a wire command,
and the same byte trace. -/
def Obligations.VariantsAgree : Prop :=
  ∀ (w : WireWord) (r : Response) (rest : List Drive) (s t : State), live .hw t = true →
    s.env.target = .oracle → t.env.target = .oracle →
    s.env.miso = answers [r.r1, r.r2, r.r3, r.r4] ++ rest → t.env.miso = answers [r.r1, r.r2, r.r3, r.r4] ++ rest →
    ∃ s' t', exchange .sw w s = .returned r s' ∧ exchange .hw w t = .returned r t' ∧
      exchanges s'.env.trace = commandLog w r ++ exchanges s.env.trace ∧
      exchanges t'.env.trace = commandLog w r ++ exchanges t.env.trace ∧ s'.env.miso = rest ∧ t'.env.miso = rest

/-- R41, R104 (decision D29): while the three lines are released no `Transmit` moves any of them. -/
def Obligations.ReleasedLinesStayReleased : Prop :=
  ∀ (v : Variant) (b r : Byte) (s t : State), s.dirRst = false → s.dirSck = false → s.dirMosi = false →
    transmit v b s = .returned r t →
    ∃ n, wires t.env.trace = List.replicate n { rst := none, sck := none, mosi := none } ++ wires s.env.trace

/-- R107, R208, R234 (decisions D6, D21): a transmitting instruction issued while the hardware variant is bound and the
engine is disabled never returns: `busy` stays 1 for ever, no value is produced, nothing reaches the link. The rules say it
of the memory operations; that a wire command can be issued by itself, and hangs alike, is log entry 2. -/
def Obligations.HangForEver : Prop :=
  ∀ (i : Instr) (s : State), transmits i = true → s.busy = false → s.xport = .hw → s.engineEnabled = false →
    s.host.request = none →
    ∃ t, exec i s = .next t ∧ t.busy = true ∧ t.pos = .hung ∧ t.rc = s.rc ∧ t.resp = s.resp ∧ t.env = s.env ∧
      ∀ n, core.run n t = .next t

/-- R100, R229 (decision D27): with no variant bound a transmitting instruction is refused. The rules say it of the memory
operations; that a wire command can be issued by itself, and is refused alike, is log entry 2. -/
def Obligations.UnboundRefused : Prop :=
  ∀ (i : Instr) (s : State), transmits i = true → s.busy = false → s.xport = .none → exec i s = .refused .transmitUnbound

/-- R87, R27 (decisions D1, D27): an issue while `busy` is 1 is refused, whatever is issued. The rules say it of host
operations; that a wire command can be issued by itself, or a wire word presented, is log entries 2 and 13. -/
def Obligations.BusyRefused : Prop :=
  ∀ s : State, s.busy = true → (∀ i : Instr, exec i s = .refused .issueWhileBusy) ∧
    (∀ w, s.host.request = some (.host w) → step s = .refused .issueWhileBusy) ∧
    (∀ w, s.host.request = some (.wire w) → step s = .refused .issueWhileBusy)

/-- R109 (decision D11): with the readings given, `DelayTicks(n)` ends at the first one at least `n` ticks after the start,
modulo the width; it uses up exactly those, and changes nothing else but `delay_start`. -/
def Obligations.DelayTicksReadings : Prop :=
  ∀ (n start last : Tick) (early rest : List Tick) (s : State),
    s.env.ticks = start :: early ++ last :: rest → (∀ t ∈ early, elapsed t start < n) → ¬ elapsed last start < n →
    s.delayTicks n = { s with
      delayStart := start, env := { s.env with ticks := rest, trace := .delay n :: s.env.trace } }

/-- R110, R251 (decision D12): `Wait(n)` changes `delay_start` alone, writes no line, and asks for `60 * n` ticks at
least. -/
def Obligations.WaitUnits : Prop :=
  ∀ (n : Nat) (s : State), Settles s (s.wait n) ∧ Did (waitEvents n) s (s.wait n) ∧
    ticksWaited (s.wait n).env.trace = 60 * n + ticksWaited s.env.trace ∧
    wires (s.wait n).env.trace = wires s.env.trace

/-- R126: the positive pulse: RST 1, one wait unit, RST 0; SCK and MOSI are not touched; at least `UNIT_TICKS` ticks. -/
def Obligations.PulseResetLines : Prop :=
  ∀ s : State, Settles { s with outRst := false } s.pulseReset ∧ Did pulseEvents s s.pulseReset ∧
    s.pulseReset.wire.sck = s.wire.sck ∧ s.pulseReset.wire.mosi = s.wire.mosi ∧
    ticksWaited s.pulseReset.env.trace = params.unitTicks.toNat + ticksWaited s.env.trace ∧
    resetLevels s.pulseReset.env.trace = false :: true :: resetLevels s.env.trace

/-! ### Programming-Mode Entry -/

/-- R139 (decision D13): one try is one reset pulse, the settle wait and the four bytes of Programming Enable, in that order,
all four whatever is received. -/
def Obligations.HandshakeTry : Prop :=
  ∀ (v : Variant) (s : State), live v s = true →
    ∃ r t, handshakeTry v s = .returned r t ∧
      Settles (afterCommand v progEnableWord r { s with hsState := .tryHandshake, outRst := false }) t ∧
      Did (commandEvents v s.swDelay progEnableWord r ++ waitEvents 63 ++ pulseEvents) s t

/-- R143, R145: after a try only the third response byte decides, all eight bits of it; a failed try that is not the last
takes one from `tries` and goes on at once, nothing else changed. -/
def Obligations.TryOutcome : Prop :=
  ∀ (v : Variant) (n : Nat) (r : Response) (s t : State), handshakeTry v s = .returned r t →
    (r.r3 = 0x53 → triesAtSpeed v (n + 1) s = .returned true { t with hsState := .success }) ∧
    (r.r3 ≠ 0x53 → triesAtSpeed v (n + 1) s = triesAtSpeed v n (failedTry t)) ∧
    (2 ≤ t.tries.toNat → failedTry t = { t with tries := t.tries - 1, hsState := .retryLocal })

/-- R146 (decisions D21, D24): stepping down disables the engine exactly if the hardware variant is bound. -/
def Obligations.StepDown : Prop :=
  ∀ s : State,
    (s.xport = .hw → Settles { s with hsState := .stepDownSpeed, ctrl := 0x00 } (stepDown s)) ∧
    (s.xport ≠ .hw → stepDown s = { s with hsState := .stepDownSpeed })

/-- R135 to R149 (decisions D8, D13, D22, D24, D26): `enterProgrammingMode` always returns. `rs` are the responses, the latest
first. It stops at the first echo with 0: try `4 - tries` of the speed it leaves, which is bound; or it returns 1 after
`3 * s0` tries without an echo, with the slowest software setting bound and no speed configured. -/
def Obligations.EnterProgOutcome : Prop :=
  ∀ s : State, s.busy = false → s.speed.toNat ≤ 12 →
    ∃ (rs : List Response) (t : State), exec .enterProg s = .next t ∧ HandshakeFrame s t ∧ t.busy = false ∧ t.pos = .idle ∧
      byteTrace t.env.trace = rs.flatMap tryTrace ++ byteTrace s.env.trace ∧
      ((t.rc = 0 ∧ t.hsState = .success ∧ speedBoundTo t = true ∧ 1 ≤ t.speed.toNat ∧ t.speed.toNat ≤ startSpeed s ∧
          1 ≤ t.tries.toNat ∧ rs.length = 3 * (startSpeed s - t.speed.toNat) + (4 - t.tries.toNat) ∧
          ∃ r rest, rs = r :: rest ∧ r.r3 = 0x53 ∧ ∀ x ∈ rest, x.r3 ≠ 0x53) ∨
        (t.rc = 1 ∧ t.hsState = .fail ∧ t.speed = 0 ∧ t.xport = .sw ∧ t.swDelay = 96 ∧ t.ctrl = 0x00 ∧ t.tries = 0 ∧
          rs.length = 3 * startSpeed s ∧ ∀ x ∈ rs, x.r3 ≠ 0x53)) ∧
      startSpeed s = (if s.speed = 0 then 12 else s.speed.toNat)

/-- R148, R245, R57 (decision D8): with no target and the pull-up on, the handshake fails after exactly `3 * s0` tries and
`12 * s0` byte exchanges. -/
def Obligations.EnterProgAbsentTarget : Prop :=
  ∀ s : State, s.busy = false → s.speed.toNat ≤ 12 → s.env.target = .absent → s.pullupMiso = true →
    ∃ t, exec .enterProg s = .next t ∧ t.rc = 1 ∧ t.env.target = .absent ∧
      (exchanges t.env.trace).length = 12 * startSpeed s + (exchanges s.env.trace).length ∧
      (resetLevels t.env.trace).length = 2 * (3 * startSpeed s) + (resetLevels s.env.trace).length

/-- R56, R144 with the cooperative target of log entry 12: with the lines connected and at rest, the handshake succeeds at its
first try, at the speed it started from, and leaves a session. -/
def Obligations.EnterProgCooperativeTarget : Prop :=
  ∀ (s : State) (c : Coop), s.busy = false → s.speed.toNat ≤ 12 → s.env.target = .cooperative c →
    s.dirRst = true → s.dirSck = true → s.dirMosi = true → s.outRst = false → s.outSck = false → s.engSck = false →
    ∃ (t : State) (v : Variant) (d : Coop) (r : Response), exec .enterProg s = .next t ∧ t.rc = 0 ∧ t.hsState = .success ∧
      t.speed.toNat = startSpeed s ∧ t.tries = 3 ∧ InSession v d t ∧
      byteTrace t.env.trace = tryTrace r ++ byteTrace s.env.trace ∧ r.r2 = 0xAC ∧ r.r3 = 0x53 ∧
      d.flash = c.flash ∧ d.eeprom = c.eeprom ∧ d.extended = 0

/-! ### The Address Tracker -/

/-- R160: the cache is compared with `address[24:17]`; if it differs it is written first and then exactly `4D 00 hb 00` is
sent, the responses ignored; if not, nothing happens at all. That the cache is written first shows where the engine is
disabled and the first byte is never done (R107, log entry 6): the cache already holds the new value. Every address is covered, also those
whose byte is the sentinel, which a model may refuse (R162): log entry 7. -/
def Obligations.UpdateExtended : Prop :=
  ∀ (v : Variant) (address : FlashAddr) (s : State),
    (extByte address = s.hiaddr → updateExtended v address s = .returned () s) ∧
    (extByte address ≠ s.hiaddr → live v s = true →
      ∃ r t, updateExtended v address s = .returned () t ∧
        Settles (afterCommand v (loadExtWord (extByte address)) r { s with hiaddr := extByte address }) t ∧
        Did (commandEvents v s.swDelay (wireWord 0x4D 0x00 (extByte address) 0x00) r) s t) ∧
    (extByte address ≠ s.hiaddr → live v s = false →
      updateExtended v address s = .inside { s with hiaddr := extByte address, data := 0x4D, pos := .hung })

/-- R161: after any `UpdateExtended(a)` the cache is `a[24:17]`; a command is emitted exactly when it was not before; a second
access with the same `address >> 17` emits nothing. Every address is covered, also those of log entry 7. -/
def Obligations.UpdateExtendedOnce : Prop :=
  ∀ (v : Variant) (a b : FlashAddr) (s t : State), updateExtended v a s = .returned () t →
    t.hiaddr = a.extractLsb' 17 8 ∧
    (exchanges t.env.trace = exchanges s.env.trace ↔ s.hiaddr = a.extractLsb' 17 8) ∧
    (a >>> 17 = b >>> 17 → updateExtended v b t = .returned () t)

/-- R162 (decision D16; log entry 7): the first flash access after `connect`, whatever was issued in between that does not
run the Address Tracker, to an address whose bits 24:17 are not the sentinel, emits exactly one Load Extended Address command,
before its own command, even for address 0. That holds for the three flash operations; a polled write may read the address
before its issue ends (log entry 1), and that read emits none. -/
def Obligations.FirstFlashAccessAfterConnect : Prop :=
  ∀ (address : FlashAddr) (between : List Instr) (v : Variant) (s t u : State), extByte address ≠ 0xFF →
    exec .connect s = .next t → execAll between t = some u → (∀ i ∈ between, runsTracker i = false) → u.busy = false →
    xportVariant u.xport = some v → live v u = true →
    (∃ load r w, exec (.readFlash address) u = .next w ∧
      Did (commandEvents v u.swDelay (readFlashWord address) r ++
        commandEvents v u.swDelay (loadExtWord (extByte address)) load) u w) ∧
    (∀ data pollMode, ∃ load r later w, exec (.writeFlash address data pollMode) u = .next w ∧
      Did (later ++ commandEvents v u.swDelay (writeFlashWord address data) r ++
        commandEvents v u.swDelay (loadExtWord (extByte address)) load) u w ∧
      (exchanges later = [] ∨ ∃ q, exchanges later = commandLog (readFlashWord address) q)) ∧
    (∀ pollValue, ∃ load r later w, exec (.flushPage address pollValue) u = .next w ∧
      Did (later ++ commandEvents v u.swDelay (writePageWord address) r ++
        commandEvents v u.swDelay (loadExtWord (extByte address)) load) u w ∧
      (exchanges later = [] ∨ ∃ q, exchanges later = commandLog (readFlashWord address) q))

/-- R164 (decision D25; log entry 2 for the wire command run by itself): nothing writes `hiaddr` but `connect`, the flash
operations through the Address Tracker, and Load Extended Address; and they write the sentinel and the address's byte. That
flash addresses with bits 24 to 17 all 1 run like any other is log entry 7. -/
def Obligations.WhoWritesHiaddr : Prop :=
  ∀ (i : Instr) (s t : State), exec i s = .next t →
    t.hiaddr = match i with
      | .connect => 0xFF
      | .loadExtAddr h => h
      | .readFlash address => extByte address
      | .writeFlash address _ _ => extByte address
      | .flushPage address _ => extByte address
      | _ => s.hiaddr

/-! ### The memory operations -/

/-- R170: the bytes sent, the byte returned, everything else kept; bits 31 to 25 of the address are ignored. Addresses with
bits 24 to 17 all 1, which a model may refuse (R162), run by the same pseudocode: log entry 7. -/
def Obligations.ReadFlashResult : Prop :=
  (∀ (address : FlashAddr) (v : Variant) (s : State), s.busy = false → xportVariant s.xport = some v → live v s = true →
    ∃ load r t, exec (.readFlash address) s = .next t ∧
      Settles (returnedWith r.r4 (afterFlash v address (readFlashWord address) r s)) t ∧
      (v = .hw → t.delayStart = s.delayStart) ∧
      Did (flashEvents v s.swDelay s.hiaddr address load (readFlashWord address) r) s t) ∧
  (∀ (a b : FlashAddr) (s : State), a.extractLsb' 0 25 = b.extractLsb' 0 25 →
    exec (.readFlash a) s = exec (.readFlash b) s)

/-- R172, R173: with polling disabled exactly the write command is sent (after the Address Tracker) and 0 is returned at
once. Flash addresses with bits 24 to 17 all 1 run like any other, here and in the next four: log entry 7. -/
def Obligations.WriteFlashUnpolled : Prop :=
  ∀ (address : FlashAddr) (data : Byte) (v : Variant) (s : State), s.busy = false → xportVariant s.xport = some v →
    live v s = true →
    ∃ load r t, exec (.writeFlash address data 0) s = .next t ∧
      Settles (returnedWith 0 (afterFlash v address (writeFlashWord address data) r s)) t ∧
      (v = .hw → t.delayStart = s.delayStart) ∧
      Did (flashEvents v s.swDelay s.hiaddr address load (writeFlashWord address data) r) s t

/-- R174 (decision D14; log entry 7): data 0x7F is never polled: the command, the fixed delay of 15 units, and 0. -/
def Obligations.WriteFlashFixedDelay : Prop :=
  ∀ (address : FlashAddr) (pollMode : Byte) (v : Variant) (s : State), s.busy = false → xportVariant s.xport = some v →
    live v s = true → pollMode ≠ 0 →
    ∃ load r t, exec (.writeFlash address 0x7F pollMode) s = .next t ∧
      Settles (returnedWith 0 (afterFlash v address (writeFlashWord address 0x7F) r s)) t ∧
      Did (waitEvents 15 ++ flashEvents v s.swDelay s.hiaddr address load (writeFlashWord address 0x7F) r) s t

/-- R172, R175, R176 (decisions D2, D15; log entry 7; log entry 1: the issue runs up to the end of the first poll iteration): any other
polled write sends the command, opens the window at a reading `x` with the whole budget, and polls for 0x7F. -/
def Obligations.WriteFlashPolled : Prop :=
  ∀ (address : FlashAddr) (data pollMode : Byte) (v : Variant) (s : State), s.busy = false →
    xportVariant s.xport = some v → live v s = true → pollMode ≠ 0 → data ≠ 0x7F →
    ∃ load r x u t, exec (.writeFlash address data pollMode) s = .next t ∧
      Settles { afterFlash v address (writeFlashWord address data) r s with busy := true, retries := 30, winStart := x } u ∧
      Did (.tick x :: flashEvents v s.swDelay s.hiaddr address load (writeFlashWord address data) r) s u ∧
      PollIterated v address 0x7F u t

/-- R178, R179 (decisions D14, D25; log entry 7): with `pollValue` 0xFF the page command, the fixed delay, and 0; no read. -/
def Obligations.FlushPageFixedDelay : Prop :=
  ∀ (address : FlashAddr) (v : Variant) (s : State), s.busy = false → xportVariant s.xport = some v → live v s = true →
    ∃ load r t, exec (.flushPage address 0xFF) s = .next t ∧
      Settles (returnedWith 0 (afterFlash v address (writePageWord address) r s)) t ∧
      Did (waitEvents 15 ++ flashEvents v s.swDelay s.hiaddr address load (writePageWord address) r) s t

/-- R178, R179, R176 (decisions D15, D25; log entries 1, 7): with any other `pollValue` the poll is for 0xFF, whatever `pollValue`
is. -/
def Obligations.FlushPagePolled : Prop :=
  ∀ (address : FlashAddr) (pollValue : Byte) (v : Variant) (s : State), s.busy = false →
    xportVariant s.xport = some v → live v s = true → pollValue ≠ 0xFF →
    ∃ load r x u t, exec (.flushPage address pollValue) s = .next t ∧
      Settles { afterFlash v address (writePageWord address) r s with busy := true, retries := 30, winStart := x } u ∧
      Did (.tick x :: flashEvents v s.swDelay s.hiaddr address load (writePageWord address) r) s u ∧
      PollIterated v address 0xFF u t

/-- R176, R177, R205 (decision D15; log entries 1, 7): while a poll is open every step is one iteration of its loop; with the budget
gone it returns 1 and reads nothing more. -/
def Obligations.PollStep : Prop :=
  ∀ (address : FlashAddr) (marker : Byte) (v : Variant) (s : State), s.busy = true → s.host.request = none →
    s.pos = .polling address marker → xportVariant s.xport = some v → live v s = true →
    ∃ t, step s = .next t ∧ (s.retries ≠ 0 → PollIterated v address marker s t) ∧
      (s.retries = 0 → t = returnedWith 1 s)

/-- R177 (b), R245, R201 (decisions D12, D15; log entry 1): with no target, the pull-up on, the hardware variant, and readings
that each show a window gone by, a poll for 0xFF returns 1 after exactly as many iterations as the budget has left. -/
def Obligations.PollTimesOut : Prop :=
  ∀ (address : FlashAddr) (n : Nat) (s : State) (readings : List Tick), s.busy = true → s.host.request = none →
    s.pos = .polling address 0xFF → s.xport = .hw → s.engineEnabled = true → s.env.target = .absent →
    s.pullupMiso = true → s.retries.toNat = n + 1 → s.hiaddr = extByte address →
    s.env.ticks = (List.replicate (n + 1) [s.winStart + 61, s.winStart]).flatten ++ readings →
    ∃ t, core.run (n + 1) s = .next t ∧ t.rc = 1 ∧ t.busy = false ∧ t.retries = 0 ∧ t.env.ticks = readings ∧
      (exchanges t.env.trace).length = 4 * (n + 1) + (exchanges s.env.trace).length

/-- R180: the four bytes sent, the fourth response returned; `hiaddr` neither written nor read: with another value in it the
same happens. -/
def Obligations.ReadEepromResult : Prop :=
  ∀ (address : EeAddr) (v : Variant) (s : State), s.busy = false → xportVariant s.xport = some v → live v s = true →
    ∃ r t, exec (.readEeprom address) s = .next t ∧
      Settles (returnedWith r.r4 (afterCommand v (wireWord 0xA0 (eeHigh address) (eeLow address) 0x00) r s)) t ∧
      (v = .hw → t.delayStart = s.delayStart) ∧
      Did (commandEvents v s.swDelay (wireWord 0xA0 (eeHigh address) (eeLow address) 0x00) r) s t ∧
      ∀ h : Byte, exec (.readEeprom address) { s with hiaddr := h } = .next { t with hiaddr := h }

/-- R181, R48 (decision D14): the four bytes sent, then the fixed delay of 30 units, and always 0; `hiaddr` is not read. -/
def Obligations.WriteEepromResult : Prop :=
  ∀ (address : EeAddr) (data : Byte) (v : Variant) (s : State), s.busy = false → xportVariant s.xport = some v →
    live v s = true →
    ∃ r t, exec (.writeEeprom address data) s = .next t ∧
      Settles (returnedWith 0 (afterCommand v (writeEepromWord address data) r s)) t ∧
      Did (waitEvents 30 ++ commandEvents v s.swDelay (writeEepromWord address data) r) s t ∧
      ∀ h : Byte, exec (.writeEeprom address data) { s with hiaddr := h } = .next { t with hiaddr := h }

/-- R69, R72 to R80 (log entry 2: a wire command run by itself is the model's own): each of the nine is one exchange of its
own word; `rc` is not written; only Load Extended Address writes `hiaddr`. -/
def Obligations.WireCommandResult : Prop :=
  ∀ (i : Instr) (w : WireWord) (v : Variant) (s : State), encodeWord i = .wire w → s.busy = false →
    xportVariant s.xport = some v → live v s = true →
    ∃ r t, exec i s = .next t ∧
      Settles { afterCommand v w r { s with
          hiaddr := match i with | .loadExtAddr h => h | _ => s.hiaddr } with busy := false, pos := .idle } t ∧
      (v = .hw → t.delayStart = s.delayStart) ∧ Did (commandEvents v s.swDelay w r) s t

/-! ### The machine -/

/-- R11, R81, R87: when the block is idle and the word presented decodes, the step is the instruction run on the state with the
request taken, a host word being latched (decision D1; log entries 2 and 13). -/
def Obligations.StepRunsDecoded : Prop :=
  ∀ (i : Instr) (s : State), s.busy = false → i.wellFormed = true →
    (∀ w, s.host.request = some (.host w) → decodeHost w = .ok i →
      step s = exec i { s with host := { s.host with request := none }, cmd := w }) ∧
    (∀ w, s.host.request = some (.wire w) → decodeWire w = .ok i →
      step s = exec i { s with host := { s.host with request := none } })

/-- R84, R85, R226, R5 (decision D27; log entry 13): a word that spells nothing is refused by name; with nothing presented an
idle block waits, and the host moves: it presents the next request of its script, if there is one. -/
def Obligations.StepOtherwise : Prop :=
  ∀ s : State, s.busy = false →
    (∀ w e, s.host.request = some (.host w) → decodeHost w = .error e → step s = .refused (.undecodable e)) ∧
    (∀ w e, s.host.request = some (.wire w) → decodeWire w = .error e → step s = .refused (.undecodable e)) ∧
    (s.host.request = none → s.host.script = [] → step s = .next s) ∧
    (∀ r rest, s.host.request = none → s.host.script = r :: rest →
      step s = .next { s with host := { request := some r, script := rest } })

/-- R220 to R224 (decision D23): a power-on reset, whatever the state, even a hang, puts every register at its value of R221,
the unspecified ones at whatever is drawn; it pulses, clocks and sends nothing; the lines are released. The engine's own two
lines are at 0 (R41, R123; log entry 10). -/
def Obligations.PowerOnResets : Prop :=
  ∀ (d : ResetDraw) (s : State), s.host.request = some (.powerOn d) →
    ∃ t, step s = .next t ∧ t.speed = 0 ∧ t.xport = .none ∧ t.dirRst = false ∧ t.dirSck = false ∧ t.dirMosi = false ∧
      t.outRst = false ∧ t.outSck = false ∧ t.outMosi = false ∧ t.pullupMiso = false ∧ t.ctrl = 0x00 ∧ t.status = 0x00 ∧
      t.engCount = 0 ∧ t.engSck = false ∧ t.engMosi = false ∧ t.hsState = .idle ∧ t.busy = false ∧ t.pos = .idle ∧
      t.swDelay = d.swDelay ∧ t.hiaddr = d.hiaddr ∧ t.data = d.data ∧ t.tries = d.tries ∧ t.retries = d.retries ∧
      t.delayStart = d.delayStart ∧ t.winStart = d.winStart ∧ t.rc = d.rc ∧ t.cmd = d.cmd ∧
      t.wire = { rst := none, sck := none, mosi := none } ∧ Did [] s t ∧ t.env.ticks = s.env.ticks

/-- The invariant holds after reset, whatever the registers draw that R221 leaves unspecified, whatever the host will ask. -/
def Obligations.ResetMeetsInv : Prop :=
  Invariant State.reset ∧ ∀ (d : ResetDraw) (env : Env) (host : HostPort), env.target.wf = true → Invariant (State.resetWith d env host)

/-- Every step keeps the invariant: the registers stay legal (R12, R18, R19, R21, R23, R68), a configured speed is the one
that is bound (R13), the lines rest at 0 between steps (R45, R120), an operation is left only where R11, R107 and R176 say,
and the target's memories keep their canonical form (log entry 12). -/
def Obligations.StepKeepsInv : Prop :=
  ∀ s t : State, Invariant s → step s = .next t → Invariant t

/-- R182, R200, R201 (log entry 1: a polled write goes on over the steps after its issue): the outcome codes, once a host
operation has returned, however many steps its poll took. The operations of which the spec says they cannot fail return 0;
the handshake returns 0 with `Success` or 1 with `Fail`; a polled write returns 0 with budget left, or 1 exactly when the
budget is gone; a write that does not poll returns 0. The second clause says the same of the step that ends a poll, from every
state inside one. -/
def Obligations.OutcomeCodes : Prop :=
  (∀ (i : Instr) (n : Nat) (s t u : State), i.format = .h56 → s.host = { request := none, script := [] } →
    exec i s = .next t → core.run n t = .next u → u.busy = false →
    match i with
    | .readFlash _ => True
    | .readEeprom _ => True
    | .enterProg => (u.rc = 0 ∧ u.hsState = .success) ∨ (u.rc = 1 ∧ u.hsState = .fail ∧ u.speed = 0)
    | .writeFlash _ data pollMode =>
      if pollMode = 0 ∨ data = 0x7F then u.rc = 0 else (u.rc = 0 ∧ u.retries ≠ 0) ∨ (u.rc = 1 ∧ u.retries = 0)
    | .flushPage _ pollValue =>
      if pollValue = 0xFF then u.rc = 0 else (u.rc = 0 ∧ u.retries ≠ 0) ∨ (u.rc = 1 ∧ u.retries = 0)
    | _ => u.rc = 0) ∧
  (∀ (address : FlashAddr) (marker : Byte) (s t : State), s.busy = true → s.host.request = none →
    s.pos = .polling address marker → step s = .next t → t.busy = false →
    (t.rc = 0 ∧ t.retries ≠ 0) ∨ (t.rc = 1 ∧ t.retries = 0))

/-! ### A session with the cooperative target (log entry 12) -/

/-- R56, R45, R69 (log entry 2: a wire command run by itself): in a session every wire command is answered by the echo of
its first two bytes, then by the data of a read or the echo of the third; the target does what the command says, and the
session goes on. -/
def Obligations.SessionCommand : Prop :=
  ∀ (v : Variant) (c : Coop) (i : Instr) (w : WireWord) (s : State), InSession v c s → s.busy = false →
    encodeWord i = .wire w →
    ∃ t, exec i s = .next t ∧ InSession v (c.command w) t ∧
      t.resp.r2 = wireByte w 0 ∧ t.resp.r3 = wireByte w 1 ∧ t.resp.r4 = c.data w

/-- R180, R181, R54: in a session `writeEEPROM` changes exactly the byte at its address, and `readEEPROM` returns the byte at
its address and changes none. -/
def Obligations.SessionEeprom : Prop :=
  ∀ (v : Variant) (c : Coop) (address : EeAddr) (s : State), InSession v c s → s.busy = false → c.eeprom.wf = true →
    (∃ t d, exec (.readEeprom address) s = .next t ∧ t.rc = c.eeprom.read address.toNat ∧ InSession v d t ∧
      d.eeprom = c.eeprom ∧ d.flash = c.flash) ∧
    (∀ data : Byte, ∃ t d, exec (.writeEeprom address data) s = .next t ∧ t.rc = 0 ∧ InSession v d t ∧
      d.eeprom.read address.toNat = data ∧ d.flash = c.flash ∧
      ∀ a, a ≠ address.toNat → d.eeprom.read a = c.eeprom.read a)

/-- R184, R54, R173, R178 with the cooperative target of log entry 12 (and log entry 7: every flash address). First clause, a
target without pages, once the write has returned: it has changed the byte at its address and no other, of flash or EEPROM;
and if it returned 0 by polling, or the target takes no time, `readFlash` returns the byte. Second clause, a target with
pages: an unpolled `writeFlash`, then a `flushPage` in the same page, once it has returned: the page is the buffer with that
byte in it, every byte outside the page and of EEPROM is as before; and if it returned 0 by polling, or the target takes no
time, `readFlash` returns the byte. Where the byte lies is said where the cached extended byte agrees with the target (R165). -/
def Obligations.WriteReadRoundTrip : Prop :=
  (∀ (v : Variant) (c : Coop) (address : FlashAddr) (data pollMode : Byte) (n : Nat) (s t u : State),
    InSession v c s → s.busy = false → s.host = { request := none, script := [] } → c.flash.wf = true → c.pageSize = 0 →
    exec (.writeFlash address data pollMode) s = .next t → core.run n t = .next u → u.busy = false →
    (∃ d, InSession v d u ∧ d.eeprom = c.eeprom ∧ (CacheAgrees c address s → ∀ a, d.flash.read a =
      if a = flashOffset address then data else c.flash.read a)) ∧
    (u.rc = 0 → (pollMode ≠ 0 ∧ data ≠ 0x7F) ∨ c.latency = 0 →
      ∃ x, exec (.readFlash address) u = .next x ∧ x.rc = data)) ∧
  (∀ (v : Variant) (c : Coop) (address flushAddress : FlashAddr) (data pollValue : Byte) (n : Nat) (s t u w : State),
    InSession v c s → s.busy = false → s.host = { request := none, script := [] } → c.flash.wf = true →
    c.pageBuffer.wf = true → c.pageSize ≠ 0 → c.pageSize % 2 = 0 → CacheAgrees c address s →
    flashOffset address / c.pageSize = flashOffset flushAddress / c.pageSize →
    exec (.writeFlash address data 0) s = .next t → exec (.flushPage flushAddress pollValue) t = .next u →
    core.run n u = .next w → w.busy = false →
    t.rc = 0 ∧
    (∃ d, InSession v d w ∧ d.eeprom = c.eeprom ∧ ∀ a, d.flash.read a =
      if a / c.pageSize = flashOffset address / c.pageSize then
        (if a = flashOffset address then data else c.pageBuffer.read (a % c.pageSize))
      else c.flash.read a) ∧
    (w.rc = 0 → pollValue ≠ 0xFF ∨ c.latency = 0 → ∃ x, exec (.readFlash address) w = .next x ∧ x.rc = data))
end

