-- ==== Sys2Proof/Laws/Encoding.lean ====
section
/-! SUPPORT. The fields of the words: each byte of a wire word, each field of a host word, read back from the word built of
them. -/

namespace Sys2Proof

/-- The bits of a concatenation, with the widths as variables. -/
theorem append_getLsbD {n m : Nat} (x : BitVec n) (y : BitVec m) (i : Nat) :
    (x ++ y).getLsbD i = if i < m then y.getLsbD i else x.getLsbD (i - m) := by
  rw [BitVec.getLsbD_append]

/-- The bits of a wire word (R69). -/
theorem wireWord_bit (a b c d : Byte) (i : Nat) : (wireWord a b c d).getLsbD i =
    if i < 8 then d.getLsbD i else if i < 16 then c.getLsbD (i - 8) else if i < 24 then b.getLsbD (i - 16)
    else a.getLsbD (i - 24) := by
  show (((a ++ b : BitVec 16) ++ c : BitVec 24) ++ d : BitVec (24+8)).getLsbD i = _
  have h := append_getLsbD (((a ++ b : BitVec 16) ++ c : BitVec 24)) d i
  have h2 := append_getLsbD ((a ++ b : BitVec 16)) c (i - 8)
  have h3 := append_getLsbD a b (i - 8 - 8)
  refine h.trans ?_
  split; · rfl
  refine h2.trans ?_
  split; · rw [if_pos (by omega)]
  rw [if_neg (by omega)]
  refine h3.trans ?_
  split; · rw [if_pos (by omega)]; congr 1
  rw [if_neg (by omega)]; congr 1

theorem wireByte_bit (w : WireWord) (k i : Nat) :
    (wireByte w k).getLsbD i = (decide (i < 8) && w.getLsbD (8 * (3 - k) + i)) := by
  simp [wireByte, BitVec.getLsbD_extractLsb']

@[simp] theorem wireByte_wireWord_0 (a b c d : Byte) : wireByte (wireWord a b c d) 0 = a := by
  apply BitVec.eq_of_getLsbD_eq; intro i hi
  simp only [wireByte_bit, wireWord_bit, hi, decide_true, Bool.true_and]
  rw [if_neg (by omega), if_neg (by omega), if_neg (by omega)]; congr 1; omega

@[simp] theorem wireByte_wireWord_1 (a b c d : Byte) : wireByte (wireWord a b c d) 1 = b := by
  apply BitVec.eq_of_getLsbD_eq; intro i hi
  simp only [wireByte_bit, wireWord_bit, hi, decide_true, Bool.true_and]
  rw [if_neg (by omega), if_neg (by omega), if_pos (by omega)]; congr 1; omega

@[simp] theorem wireByte_wireWord_2 (a b c d : Byte) : wireByte (wireWord a b c d) 2 = c := by
  apply BitVec.eq_of_getLsbD_eq; intro i hi
  simp only [wireByte_bit, wireWord_bit, hi, decide_true, Bool.true_and]
  rw [if_neg (by omega), if_pos (by omega)]; congr 1; omega

@[simp] theorem wireByte_wireWord_3 (a b c d : Byte) : wireByte (wireWord a b c d) 3 = d := by
  apply BitVec.eq_of_getLsbD_eq; intro i hi
  simp only [wireByte_bit, wireWord_bit, hi, decide_true, Bool.true_and]
  rw [if_pos (by omega)]; congr 1; omega

/-- A wire word is its four bytes. -/
theorem wireWord_wireByte (w : WireWord) : wireWord (wireByte w 0) (wireByte w 1) (wireByte w 2) (wireByte w 3) = w := by
  apply BitVec.eq_of_getLsbD_eq; intro i hi
  simp only [wireByte_bit, wireWord_bit]
  repeat' split
  all_goals (rw [decide_eq_true (by omega), Bool.true_and]; congr 1; omega)

/-- Masks work byte by byte. -/
theorem and_wireWord (a b c d m n o p : Byte) :
    wireWord a b c d &&& wireWord m n o p = wireWord (a &&& m) (b &&& n) (c &&& o) (d &&& p) := by
  apply BitVec.eq_of_getLsbD_eq; intro i hi
  simp only [BitVec.getLsbD_and, wireWord_bit]
  split; · rfl
  split; · rfl
  split <;> rfl

theorem wireWord_inj {a b c d m n o p : Byte} :
    wireWord a b c d = wireWord m n o p ↔ a = m ∧ b = n ∧ c = o ∧ d = p := by
  constructor
  · intro h
    refine ⟨?_, ?_, ?_, ?_⟩
    · simpa using congrArg (wireByte · 0) h
    · simpa using congrArg (wireByte · 1) h
    · simpa using congrArg (wireByte · 2) h
    · simpa using congrArg (wireByte · 3) h
  · rintro ⟨rfl, rfl, rfl, rfl⟩; rfl

/-- The bits of a host word (R81). -/
theorem hostWord_bit (s : Byte) (a : FlashAddr) (d x : Byte) (i : Nat) : (hostWord s a d x).getLsbD i =
    if i < 8 then x.getLsbD i else if i < 16 then d.getLsbD (i - 8) else if i < 48 then a.getLsbD (i - 16)
    else s.getLsbD (i - 48) := by
  show (((s ++ a : BitVec 40) ++ d : BitVec 48) ++ x : BitVec (48+8)).getLsbD i = _
  have h := append_getLsbD (((s ++ a : BitVec 40) ++ d : BitVec 48)) x i
  have h2 := append_getLsbD ((s ++ a : BitVec 40)) d (i - 8)
  have h3 := append_getLsbD s a (i - 8 - 8)
  refine h.trans ?_
  split; · rfl
  refine h2.trans ?_
  split; · rw [if_pos (by omega)]
  rw [if_neg (by omega)]
  refine h3.trans ?_
  split; · rw [if_pos (by omega)]; congr 1
  rw [if_neg (by omega)]; congr 1

@[simp] theorem hostSelector_hostWord (s : Byte) (a : FlashAddr) (d x : Byte) : hostSelector (hostWord s a d x) = s := by
  apply BitVec.eq_of_getLsbD_eq; intro i hi
  simp only [hostSelector, BitVec.getLsbD_extractLsb', hostWord_bit, hi, decide_true, Bool.true_and]
  rw [if_neg (by omega), if_neg (by omega), if_neg (by omega)]; congr 1; omega

@[simp] theorem hostAddr_hostWord (s : Byte) (a : FlashAddr) (d x : Byte) : hostAddr (hostWord s a d x) = a := by
  apply BitVec.eq_of_getLsbD_eq; intro i hi
  simp only [hostAddr, BitVec.getLsbD_extractLsb', hostWord_bit, hi, decide_true, Bool.true_and]
  rw [if_neg (by omega), if_neg (by omega), if_pos (by omega)]; congr 1; omega

@[simp] theorem hostData_hostWord (s : Byte) (a : FlashAddr) (d x : Byte) : hostData (hostWord s a d x) = d := by
  apply BitVec.eq_of_getLsbD_eq; intro i hi
  simp only [hostData, BitVec.getLsbD_extractLsb', hostWord_bit, hi, decide_true, Bool.true_and]
  rw [if_neg (by omega), if_pos (by omega)]; congr 1; omega

@[simp] theorem hostAux_hostWord (s : Byte) (a : FlashAddr) (d x : Byte) : hostAux (hostWord s a d x) = x := by
  apply BitVec.eq_of_getLsbD_eq; intro i hi
  simp only [hostAux, BitVec.getLsbD_extractLsb', hostWord_bit, hi, decide_true, Bool.true_and]
  rw [if_pos (by omega)]; congr 1; omega
/-- A host word is its four fields. -/
theorem hostWord_fields (w : HostWord) : hostWord (hostSelector w) (hostAddr w) (hostData w) (hostAux w) = w := by
  apply BitVec.eq_of_getLsbD_eq; intro i hi
  simp only [hostWord_bit, hostSelector, hostAddr, hostData, hostAux, BitVec.getLsbD_extractLsb']
  repeat' split
  all_goals (rw [decide_eq_true (by omega), Bool.true_and]; congr 1; omega)

/-- The low half of a widened EEPROM address (R81). -/
@[simp] theorem extractLow_setWidth (a : EeAddr) : (a.setWidth 32 : FlashAddr).extractLsb' 0 16 = a := by
  apply BitVec.eq_of_getLsbD_eq; intro i hi; simp [hi]; intro; omega

end Sys2Proof
end

