-- ==== Sys2Proof/Laws/Log.lean ====
section
/-! SUPPORT. The readings of the log: every one is a reading of the actions alone, and what each does to what the pseudocode
logs. -/

namespace Sys2Proof.Machine

/-! ### Settles and Did -/

theorem settles_iff (u t : State) : Settles u t ↔ ∃ d e, t = { u with delayStart := d, env := e } :=
  ⟨fun h => ⟨_, _, h⟩, fun ⟨_, _, h⟩ => by subst h; rfl⟩

theorem Settles.refl (s : State) : Settles s s := rfl

theorem Settles.mk (u : State) (d : Tick) (e : Env) : Settles u { u with delayStart := d, env := e } := rfl

/-- Settling is kept by anything that does not look at `delay_start` and the environment. -/
theorem Settles.map {u t : State} (f : State → State)
    (hf : ∀ s d e, f { s with delayStart := d, env := e } = { f s with delayStart := d, env := e }) (h : Settles u t) :
    Settles (f u) (f t) := by
  obtain ⟨d, e, rfl⟩ := (settles_iff _ _).1 h
  rw [hf u d e]; rfl

theorem Settles.trans {u t w : State} (h : Settles u t) (k : Settles t w) : Settles u w := by
  obtain ⟨d, e, rfl⟩ := (settles_iff _ _).1 h
  obtain ⟨d', e', rfl⟩ := (settles_iff _ _).1 k
  rfl

theorem Did.refl (s : State) : Did [] s s := rfl

theorem Did.trans {es fs : List Event} {s t u : State} (h : Did es s t) (k : Did fs t u) : Did (fs ++ es) s u := by
  unfold Did at *
  rw [k, h, List.append_assoc]

/-! ### Readings of the actions -/

@[simp] theorem actions_nil : actions [] = [] := rfl

@[simp] theorem actions_wire (w : Wire) (t : List Event) : actions (.wire w :: t) = actions t := rfl

@[simp] theorem actions_line (l : Line) (v : Bool) (t : List Event) : actions (.line l v :: t) = .line l v :: actions t := rfl

@[simp] theorem actions_sample (v : Bool) (t : List Event) : actions (.sample v :: t) = .sample v :: actions t := rfl

@[simp] theorem actions_byte (a b : Byte) (t : List Event) : actions (.byte a b :: t) = .byte a b :: actions t := rfl

@[simp] theorem actions_wait (n : Nat) (t : List Event) : actions (.wait n :: t) = .wait n :: actions t := rfl

@[simp] theorem actions_delay (n : Tick) (t : List Event) : actions (.delay n :: t) = .delay n :: actions t := rfl

@[simp] theorem actions_tick (n : Tick) (t : List Event) : actions (.tick n :: t) = .tick n :: actions t := rfl

theorem exchanges_actions (t : List Event) : exchanges (actions t) = exchanges t := by
  induction t with
  | nil => rfl
  | cons e t ih => cases e <;> simp [exchanges, ih]

theorem byteTrace_actions (t : List Event) : byteTrace (actions t) = byteTrace t := by
  simp only [byteTrace, actions, List.filter_filter]
  congr 1
  funext e
  cases e with
  | line l v => cases l <;> rfl
  | _ => rfl

theorem mosiLevels_actions (t : List Event) : mosiLevels (actions t) = mosiLevels t := by
  induction t with
  | nil => rfl
  | cons e t ih =>
    cases e with
    | line l v => cases l <;> simp [mosiLevels, ih]
    | _ => simp [mosiLevels, ih]

theorem misoSamples_actions (t : List Event) : misoSamples (actions t) = misoSamples t := by
  induction t with
  | nil => rfl
  | cons e t ih => cases e <;> simp [misoSamples, ih]

theorem ticksWaited_actions (t : List Event) : ticksWaited (actions t) = ticksWaited t := by
  induction t with
  | nil => rfl
  | cons e t ih => cases e <;> simp [ticksWaited, ih]

theorem exchanges_append (a b : List Event) : exchanges (a ++ b) = exchanges a ++ exchanges b := by
  induction a with
  | nil => rfl
  | cons e a ih => cases e <;> simp [exchanges, ih]

theorem byteTrace_append (a b : List Event) : byteTrace (a ++ b) = byteTrace a ++ byteTrace b := List.filter_append _ _

theorem mosiLevels_append (a b : List Event) : mosiLevels (a ++ b) = mosiLevels a ++ mosiLevels b := by
  induction a with
  | nil => rfl
  | cons e a ih =>
    cases e with
    | line l v => cases l <;> simp [mosiLevels, ih]
    | _ => simp [mosiLevels, ih]

theorem misoSamples_append (a b : List Event) : misoSamples (a ++ b) = misoSamples a ++ misoSamples b := by
  induction a with
  | nil => rfl
  | cons e a ih => cases e <;> simp [misoSamples, ih]

theorem ticksWaited_append (a b : List Event) : ticksWaited (a ++ b) = ticksWaited a + ticksWaited b := by
  induction a with
  | nil => simp [ticksWaited]
  | cons e a ih => cases e <;> simp [ticksWaited, ih, Nat.add_assoc]

@[simp] theorem exchanges_nil : exchanges [] = [] := rfl

@[simp] theorem byteTrace_nil : byteTrace [] = [] := rfl

/-! ### What the logs of the pseudocode read as -/

theorem byteTrace_byteEvents (v : Variant) (d : Tick) (a b : Byte) : byteTrace (byteEvents v d a b) = [.byte a b] := by
  cases v <;> rfl

theorem exchanges_byteEvents (v : Variant) (d : Tick) (a b : Byte) : exchanges (byteEvents v d a b) = [(a, b)] := by
  cases v <;> rfl

theorem mosiLevels_byteEvents (v : Variant) (d : Tick) (a b : Byte) :
    mosiLevels (byteEvents v d a b) = bitsLatestFirst a := by cases v <;> rfl

theorem misoSamples_byteEvents (v : Variant) (d : Tick) (a b : Byte) :
    misoSamples (byteEvents v d a b) = bitsLatestFirst b := by cases v <;> rfl

theorem byteTrace_commandEvents (v : Variant) (d : Tick) (w : WireWord) (r : Response) :
    byteTrace (commandEvents v d w r) = [.byte (wireByte w 3) r.r4, .byte (wireByte w 2) r.r3, .byte (wireByte w 1) r.r2,
      .byte (wireByte w 0) r.r1] := by
  simp [commandEvents, byteTrace_append, byteTrace_byteEvents]

theorem exchanges_commandEvents (v : Variant) (d : Tick) (w : WireWord) (r : Response) :
    exchanges (commandEvents v d w r) = commandLog w r := by
  simp [commandEvents, exchanges_append, exchanges_byteEvents, commandLog]

theorem byteTrace_waitEvents (n : Nat) : byteTrace (waitEvents n) = [.wait n] := by
  rw [waitEvents, byteTrace_append]
  have : byteTrace (List.replicate n (.delay params.unitTicks)) = [] := by
    induction n with
    | zero => rfl
    | succ n ih => rw [List.replicate_succ]; exact ih
  rw [this]; rfl

theorem exchanges_waitEvents (n : Nat) : exchanges (waitEvents n) = [] := by
  rw [waitEvents, exchanges_append]
  have : exchanges (List.replicate n (.delay params.unitTicks)) = [] := by
    induction n with
    | zero => rfl
    | succ n ih => rw [List.replicate_succ]; exact ih
  rw [this]; rfl

theorem ticksWaited_waitEvents (n : Nat) : ticksWaited (waitEvents n) = 60 * n := by
  rw [waitEvents, ticksWaited_append]
  have : ticksWaited (List.replicate n (.delay params.unitTicks)) = 60 * n := by
    induction n with
    | zero => rfl
    | succ n ih =>
      rw [List.replicate_succ, ticksWaited, ih]
      have : params.unitTicks.toNat = 60 := rfl
      omega
  simp [this, ticksWaited]

theorem byteTrace_pulseEvents : byteTrace pulseEvents = [.line .rst false, .wait params.resetPulseUnits, .line .rst true] :=
  rfl

/-- From what was done to the readings. -/
theorem Did.exchanges {es : List Event} {s t : State} (h : Did es s t) :
    exchanges t.env.trace = Machine.exchanges es ++ Machine.exchanges s.env.trace := by
  rw [← exchanges_actions t.env.trace, h, exchanges_append, exchanges_actions]

theorem Did.byteTrace {es : List Event} {s t : State} (h : Did es s t) :
    byteTrace t.env.trace = Machine.byteTrace es ++ Machine.byteTrace s.env.trace := by
  rw [← byteTrace_actions t.env.trace, h, byteTrace_append, byteTrace_actions]

theorem Did.mosiLevels {es : List Event} {s t : State} (h : Did es s t) :
    mosiLevels t.env.trace = Machine.mosiLevels es ++ Machine.mosiLevels s.env.trace := by
  rw [← mosiLevels_actions t.env.trace, h, mosiLevels_append, mosiLevels_actions]

theorem Did.misoSamples {es : List Event} {s t : State} (h : Did es s t) :
    misoSamples t.env.trace = Machine.misoSamples es ++ Machine.misoSamples s.env.trace := by
  rw [← misoSamples_actions t.env.trace, h, misoSamples_append, misoSamples_actions]

theorem Did.ticksWaited {es : List Event} {s t : State} (h : Did es s t) :
    ticksWaited t.env.trace = Machine.ticksWaited es + Machine.ticksWaited s.env.trace := by
  rw [← ticksWaited_actions t.env.trace, h, ticksWaited_append, ticksWaited_actions]

end Sys2Proof.Machine
end

