-- ==== Sys2Proof/Laws/Memory.lean ====
section
/-! SUPPORT. The memories of the cooperative target: reads after writes, and every operation of the target keeps the
canonical form. -/

namespace Sys2Proof.Machine

theorem Memory.read_above {lo : Nat} {m : Memory} {a : Nat} (h : m.above lo = true) (w : m.wf = true) (ha : a ≤ lo) :
    m.read a = Memory.erased := by
  induction m generalizing lo with
  | nil => rfl
  | cons c rest ih =>
    obtain ⟨x, v⟩ := c
    simp only [Memory.above, decide_eq_true_eq] at h
    simp only [Memory.wf, Bool.and_eq_true, decide_eq_true_eq] at w
    rw [Memory.read, if_neg (by omega)]
    exact ih w.1.2 w.2 (by omega)

theorem Memory.read_write_same (m : Memory) (a : Nat) (v : Byte) (w : m.wf = true) : (m.write a v).read a = v := by
  induction m with
  | nil => by_cases h : v = Memory.erased <;> simp [Memory.write, Memory.read, h]
  | cons c rest ih =>
    obtain ⟨x, y⟩ := c
    simp only [Memory.wf, Bool.and_eq_true, decide_eq_true_eq] at w
    by_cases hx : x = a
    · subst hx
      by_cases h : v = Memory.erased
      · simp only [Memory.write, if_pos, h]
        exact Memory.read_above w.1.2 w.2 (Nat.le_refl _)
      · simp [Memory.write, Memory.read, h]
    · by_cases hl : a < x
      · by_cases h : v = Memory.erased
        · simp only [Memory.write, if_neg hx, if_pos hl, if_pos h, Memory.read]
          rw [h]; exact Memory.read_above w.1.2 w.2 (by omega)
        · simp [Memory.write, Memory.read, h, hx, hl]
      · simp only [Memory.write, if_neg hx, if_neg hl, Memory.read]
        exact ih w.2

theorem Memory.read_write_other (m : Memory) (a c : Nat) (v : Byte) (h : c ≠ a) : (m.write a v).read c = m.read c := by
  induction m with
  | nil => by_cases hv : v = Memory.erased <;> simp [Memory.write, Memory.read, hv, Ne.symm h]
  | cons d rest ih =>
    obtain ⟨x, y⟩ := d
    by_cases hx : x = a
    · subst hx
      by_cases hv : v = Memory.erased <;> simp [Memory.write, Memory.read, hv, Ne.symm h]
    · by_cases hl : a < x
      · by_cases hv : v = Memory.erased <;> simp [Memory.write, Memory.read, hv, hx, hl, Ne.symm h]
      · simp only [Memory.write, if_neg hx, if_neg hl, Memory.read, ih]

theorem Memory.above_write {lo : Nat} {m : Memory} (a : Nat) (v : Byte) (h : m.above lo = true) (w : m.wf = true)
    (hlo : lo < a) : (m.write a v).above lo = true := by
  cases m with
  | nil => by_cases hv : v = Memory.erased <;> simp [Memory.write, Memory.above, hv, hlo]
  | cons c rest =>
    obtain ⟨x, y⟩ := c
    simp only [Memory.above, decide_eq_true_eq] at h
    simp only [Memory.wf, Bool.and_eq_true, decide_eq_true_eq] at w
    by_cases hx : x = a
    · subst hx
      by_cases hv : v = Memory.erased
      · simp only [Memory.write, if_pos, hv]
        cases rest with
        | nil => rfl
        | cons d r => have := w.1.2; simp only [Memory.above, decide_eq_true_eq] at this ⊢; omega
      · simp [Memory.write, Memory.above, hv, hlo]
    · by_cases hl : a < x
      · by_cases hv : v = Memory.erased <;> simp [Memory.write, Memory.above, hv, hx, hl, h, hlo]
      · simp [Memory.write, Memory.above, hx, hl, h]

theorem Memory.write_wf (m : Memory) (a : Nat) (v : Byte) (w : m.wf = true) : (m.write a v).wf = true := by
  induction m with
  | nil => by_cases hv : v = Memory.erased <;> simp [Memory.write, Memory.wf, Memory.above, hv]
  | cons c rest ih =>
    obtain ⟨x, y⟩ := c
    have w' := w
    simp only [Memory.wf, Bool.and_eq_true, decide_eq_true_eq] at w
    by_cases hx : x = a
    · subst hx
      by_cases hv : v = Memory.erased
      · simpa [Memory.write, hv] using w.2
      · simpa [Memory.write, hv, Memory.wf] using And.intro w.1.2 w.2
    · by_cases hl : a < x
      · by_cases hv : v = Memory.erased
        · simpa only [Memory.write, if_neg hx, if_pos hl, if_pos hv] using w'
        · simp only [Memory.write, if_neg hx, if_pos hl, if_neg hv]
          rw [Memory.wf, w']
          simp [Memory.above, hv, hl]
      · simp only [Memory.write, if_neg hx, if_neg hl, Memory.wf, Bool.and_eq_true, decide_eq_true_eq]
        exact ⟨⟨w.1.1, Memory.above_write a v w.1.2 w.2 (by omega)⟩, ih w.2⟩

theorem Memory.writePage_wf (base : Nat) (buffer : Memory) (n : Nat) (m : Memory) (w : m.wf = true) :
    (Memory.writePage base buffer n m).wf = true := by
  induction n with
  | zero => exact w
  | succ n ih => exact Memory.write_wf _ _ _ ih

/-- A page write puts the buffer into the page and leaves every other byte alone. -/
theorem Memory.read_writePage (base : Nat) (buffer : Memory) (n : Nat) (m : Memory) (w : m.wf = true) (a : Nat) :
    (Memory.writePage base buffer n m).read a =
      if base ≤ a ∧ a < base + n then buffer.read (a - base) else m.read a := by
  induction n with
  | zero => rw [if_neg (by omega)]; rfl
  | succ n ih =>
    by_cases h : a = base + n
    · subst h
      rw [if_pos (by omega), Nat.add_sub_cancel_left]
      exact Memory.read_write_same _ _ _ (Memory.writePage_wf base buffer n m w)
    · have e : (base ≤ a ∧ a < base + (n + 1)) ↔ (base ≤ a ∧ a < base + n) := by omega
      rw [Memory.writePage, Memory.read_write_other _ _ _ _ h, ih]
      simp only [e]

/-! ### The target keeps the form -/

/-- The three memories of a cooperative target are in canonical form. -/
def Coop.wf (c : Coop) : Bool := Memory.wf c.flash && Memory.wf c.pageBuffer && Memory.wf c.eeprom

theorem Coop.readFlash_wf (c : Coop) (a : Nat) : (c.readFlash a).2.wf = c.wf := by
  unfold Coop.readFlash
  split
  · split <;> rfl
  · rfl

theorem Coop.fourthAnswer_wf (c : Coop) (b1 b2 b3 : Byte) : (c.fourthAnswer b1 b2 b3).2.wf = c.wf := by
  unfold Coop.fourthAnswer
  repeat' split
  all_goals first | exact Coop.readFlash_wf _ _ | rfl

theorem Coop.execute_wf (c : Coop) (b1 b2 b3 b4 : Byte) (w : c.wf = true) : (c.execute b1 b2 b3 b4).wf = true := by
  have w' := w
  simp only [Coop.wf, Bool.and_eq_true] at w
  unfold Coop.execute Coop.writeFlash Coop.writePage
  repeat' split
  all_goals first
    | exact w'
    | simp [Coop.wf, w.1.1, w.1.2, w.2, Memory.write_wf, Memory.writePage_wf, Memory.wf]

theorem Coop.receive_wf (c : Coop) (b : Byte) (w : c.wf = true) : (c.receive b).wf = true := by
  unfold Coop.receive
  split
  · exact w
  · exact w
  · split
    · exact (Coop.fourthAnswer_wf c _ _ _).trans w
    · exact w
  · have h : ∀ b1 b2 b3, (if c.progMode then c.execute b1 b2 b3 b else c).wf = true := fun b1 b2 b3 => by
      split
      · exact Coop.execute_wf c b1 b2 b3 b w
      · exact w
    exact h _ _ _

theorem Coop.onFall_wf (c : Coop) (w : c.wf = true) : c.onFall.wf = true := by
  unfold Coop.onFall
  repeat' split
  · exact w
  · exact w
  · exact Coop.receive_wf _ _ w

theorem Coop.onReset_wf (c : Coop) (a b : Wire) (w : c.wf = true) : (c.onReset a b).wf = true := by
  unfold Coop.onReset
  repeat' split
  all_goals exact w

theorem Coop.onClock_wf (c : Coop) (a b : Wire) (w : c.wf = true) : (c.onClock a b).wf = true := by
  unfold Coop.onClock
  repeat' split
  · exact w
  · exact w
  · exact Coop.onFall_wf c w
  · exact w

/-- Whatever the target sees of the wire, its memories stay in canonical form. -/
theorem Target.observe_wf {t : Target} (a b : Wire) (w : t.wf = true) : (t.observe a b).wf = true := by
  cases t with
  | oracle => rfl
  | absent => rfl
  | cooperative c => exact Coop.onClock_wf _ a b (Coop.onReset_wf c a b w)

end Sys2Proof.Machine
end

