-- ==== Sys2Proof/Laws/State.lean ====
section
/-! SUPPORT. One lemma per field per named update of the state: what each of the shared link operations leaves alone. -/

namespace Sys2Proof.Machine

/-! Logging an event changes the environment's log only. -/

@[simp] theorem State.log_speed (ev : Event) (s : State) : (s.log ev).speed = s.speed := rfl
@[simp] theorem State.log_xport (ev : Event) (s : State) : (s.log ev).xport = s.xport := rfl
@[simp] theorem State.log_swDelay (ev : Event) (s : State) : (s.log ev).swDelay = s.swDelay := rfl
@[simp] theorem State.log_hiaddr (ev : Event) (s : State) : (s.log ev).hiaddr = s.hiaddr := rfl
@[simp] theorem State.log_dirRst (ev : Event) (s : State) : (s.log ev).dirRst = s.dirRst := rfl
@[simp] theorem State.log_dirSck (ev : Event) (s : State) : (s.log ev).dirSck = s.dirSck := rfl
@[simp] theorem State.log_dirMosi (ev : Event) (s : State) : (s.log ev).dirMosi = s.dirMosi := rfl
@[simp] theorem State.log_outRst (ev : Event) (s : State) : (s.log ev).outRst = s.outRst := rfl
@[simp] theorem State.log_outSck (ev : Event) (s : State) : (s.log ev).outSck = s.outSck := rfl
@[simp] theorem State.log_outMosi (ev : Event) (s : State) : (s.log ev).outMosi = s.outMosi := rfl
@[simp] theorem State.log_pullupMiso (ev : Event) (s : State) : (s.log ev).pullupMiso = s.pullupMiso := rfl
@[simp] theorem State.log_ctrl (ev : Event) (s : State) : (s.log ev).ctrl = s.ctrl := rfl
@[simp] theorem State.log_status (ev : Event) (s : State) : (s.log ev).status = s.status := rfl
@[simp] theorem State.log_data (ev : Event) (s : State) : (s.log ev).data = s.data := rfl
@[simp] theorem State.log_engShift (ev : Event) (s : State) : (s.log ev).engShift = s.engShift := rfl
@[simp] theorem State.log_engCount (ev : Event) (s : State) : (s.log ev).engCount = s.engCount := rfl
@[simp] theorem State.log_engSck (ev : Event) (s : State) : (s.log ev).engSck = s.engSck := rfl
@[simp] theorem State.log_engMosi (ev : Event) (s : State) : (s.log ev).engMosi = s.engMosi := rfl
@[simp] theorem State.log_hsState (ev : Event) (s : State) : (s.log ev).hsState = s.hsState := rfl
@[simp] theorem State.log_tries (ev : Event) (s : State) : (s.log ev).tries = s.tries := rfl
@[simp] theorem State.log_retries (ev : Event) (s : State) : (s.log ev).retries = s.retries := rfl
@[simp] theorem State.log_delayStart (ev : Event) (s : State) : (s.log ev).delayStart = s.delayStart := rfl
@[simp] theorem State.log_winStart (ev : Event) (s : State) : (s.log ev).winStart = s.winStart := rfl
@[simp] theorem State.log_busy (ev : Event) (s : State) : (s.log ev).busy = s.busy := rfl
@[simp] theorem State.log_rc (ev : Event) (s : State) : (s.log ev).rc = s.rc := rfl
@[simp] theorem State.log_cmd (ev : Event) (s : State) : (s.log ev).cmd = s.cmd := rfl
@[simp] theorem State.log_pos (ev : Event) (s : State) : (s.log ev).pos = s.pos := rfl
@[simp] theorem State.log_resp (ev : Event) (s : State) : (s.log ev).resp = s.resp := rfl
@[simp] theorem State.log_host (ev : Event) (s : State) : (s.log ev).host = s.host := rfl

/-! What the environment sees of the wire changes the environment only. -/

@[simp] theorem State.onWire_speed (a b : State) : (a.onWire b).speed = b.speed := rfl
@[simp] theorem State.onWire_xport (a b : State) : (a.onWire b).xport = b.xport := rfl
@[simp] theorem State.onWire_swDelay (a b : State) : (a.onWire b).swDelay = b.swDelay := rfl
@[simp] theorem State.onWire_hiaddr (a b : State) : (a.onWire b).hiaddr = b.hiaddr := rfl
@[simp] theorem State.onWire_dirRst (a b : State) : (a.onWire b).dirRst = b.dirRst := rfl
@[simp] theorem State.onWire_dirSck (a b : State) : (a.onWire b).dirSck = b.dirSck := rfl
@[simp] theorem State.onWire_dirMosi (a b : State) : (a.onWire b).dirMosi = b.dirMosi := rfl
@[simp] theorem State.onWire_outRst (a b : State) : (a.onWire b).outRst = b.outRst := rfl
@[simp] theorem State.onWire_outSck (a b : State) : (a.onWire b).outSck = b.outSck := rfl
@[simp] theorem State.onWire_outMosi (a b : State) : (a.onWire b).outMosi = b.outMosi := rfl
@[simp] theorem State.onWire_pullupMiso (a b : State) : (a.onWire b).pullupMiso = b.pullupMiso := rfl
@[simp] theorem State.onWire_ctrl (a b : State) : (a.onWire b).ctrl = b.ctrl := rfl
@[simp] theorem State.onWire_status (a b : State) : (a.onWire b).status = b.status := rfl
@[simp] theorem State.onWire_data (a b : State) : (a.onWire b).data = b.data := rfl
@[simp] theorem State.onWire_engShift (a b : State) : (a.onWire b).engShift = b.engShift := rfl
@[simp] theorem State.onWire_engCount (a b : State) : (a.onWire b).engCount = b.engCount := rfl
@[simp] theorem State.onWire_engSck (a b : State) : (a.onWire b).engSck = b.engSck := rfl
@[simp] theorem State.onWire_engMosi (a b : State) : (a.onWire b).engMosi = b.engMosi := rfl
@[simp] theorem State.onWire_hsState (a b : State) : (a.onWire b).hsState = b.hsState := rfl
@[simp] theorem State.onWire_tries (a b : State) : (a.onWire b).tries = b.tries := rfl
@[simp] theorem State.onWire_retries (a b : State) : (a.onWire b).retries = b.retries := rfl
@[simp] theorem State.onWire_delayStart (a b : State) : (a.onWire b).delayStart = b.delayStart := rfl
@[simp] theorem State.onWire_winStart (a b : State) : (a.onWire b).winStart = b.winStart := rfl
@[simp] theorem State.onWire_busy (a b : State) : (a.onWire b).busy = b.busy := rfl
@[simp] theorem State.onWire_rc (a b : State) : (a.onWire b).rc = b.rc := rfl
@[simp] theorem State.onWire_cmd (a b : State) : (a.onWire b).cmd = b.cmd := rfl
@[simp] theorem State.onWire_pos (a b : State) : (a.onWire b).pos = b.pos := rfl
@[simp] theorem State.onWire_resp (a b : State) : (a.onWire b).resp = b.resp := rfl
@[simp] theorem State.onWire_host (a b : State) : (a.onWire b).host = b.host := rfl

/-! A latch write changes that latch only. -/

@[simp] theorem State.setOut_speed (l : Line) (v : Bool) (s : State) : (s.setOut l v).speed = s.speed := by cases l <;> rfl
@[simp] theorem State.setOut_xport (l : Line) (v : Bool) (s : State) : (s.setOut l v).xport = s.xport := by cases l <;> rfl
@[simp] theorem State.setOut_swDelay (l : Line) (v : Bool) (s : State) : (s.setOut l v).swDelay = s.swDelay := by cases l <;> rfl
@[simp] theorem State.setOut_hiaddr (l : Line) (v : Bool) (s : State) : (s.setOut l v).hiaddr = s.hiaddr := by cases l <;> rfl
@[simp] theorem State.setOut_dirRst (l : Line) (v : Bool) (s : State) : (s.setOut l v).dirRst = s.dirRst := by cases l <;> rfl
@[simp] theorem State.setOut_dirSck (l : Line) (v : Bool) (s : State) : (s.setOut l v).dirSck = s.dirSck := by cases l <;> rfl
@[simp] theorem State.setOut_dirMosi (l : Line) (v : Bool) (s : State) : (s.setOut l v).dirMosi = s.dirMosi := by cases l <;> rfl
@[simp] theorem State.setOut_pullupMiso (l : Line) (v : Bool) (s : State) : (s.setOut l v).pullupMiso = s.pullupMiso := by cases l <;> rfl
@[simp] theorem State.setOut_ctrl (l : Line) (v : Bool) (s : State) : (s.setOut l v).ctrl = s.ctrl := by cases l <;> rfl
@[simp] theorem State.setOut_status (l : Line) (v : Bool) (s : State) : (s.setOut l v).status = s.status := by cases l <;> rfl
@[simp] theorem State.setOut_data (l : Line) (v : Bool) (s : State) : (s.setOut l v).data = s.data := by cases l <;> rfl
@[simp] theorem State.setOut_engShift (l : Line) (v : Bool) (s : State) : (s.setOut l v).engShift = s.engShift := by cases l <;> rfl
@[simp] theorem State.setOut_engCount (l : Line) (v : Bool) (s : State) : (s.setOut l v).engCount = s.engCount := by cases l <;> rfl
@[simp] theorem State.setOut_engSck (l : Line) (v : Bool) (s : State) : (s.setOut l v).engSck = s.engSck := by cases l <;> rfl
@[simp] theorem State.setOut_engMosi (l : Line) (v : Bool) (s : State) : (s.setOut l v).engMosi = s.engMosi := by cases l <;> rfl
@[simp] theorem State.setOut_hsState (l : Line) (v : Bool) (s : State) : (s.setOut l v).hsState = s.hsState := by cases l <;> rfl
@[simp] theorem State.setOut_tries (l : Line) (v : Bool) (s : State) : (s.setOut l v).tries = s.tries := by cases l <;> rfl
@[simp] theorem State.setOut_retries (l : Line) (v : Bool) (s : State) : (s.setOut l v).retries = s.retries := by cases l <;> rfl
@[simp] theorem State.setOut_delayStart (l : Line) (v : Bool) (s : State) : (s.setOut l v).delayStart = s.delayStart := by cases l <;> rfl
@[simp] theorem State.setOut_winStart (l : Line) (v : Bool) (s : State) : (s.setOut l v).winStart = s.winStart := by cases l <;> rfl
@[simp] theorem State.setOut_busy (l : Line) (v : Bool) (s : State) : (s.setOut l v).busy = s.busy := by cases l <;> rfl
@[simp] theorem State.setOut_rc (l : Line) (v : Bool) (s : State) : (s.setOut l v).rc = s.rc := by cases l <;> rfl
@[simp] theorem State.setOut_cmd (l : Line) (v : Bool) (s : State) : (s.setOut l v).cmd = s.cmd := by cases l <;> rfl
@[simp] theorem State.setOut_pos (l : Line) (v : Bool) (s : State) : (s.setOut l v).pos = s.pos := by cases l <;> rfl
@[simp] theorem State.setOut_resp (l : Line) (v : Bool) (s : State) : (s.setOut l v).resp = s.resp := by cases l <;> rfl
@[simp] theorem State.setOut_host (l : Line) (v : Bool) (s : State) : (s.setOut l v).host = s.host := by cases l <;> rfl
@[simp] theorem State.setOut_rst_outRst (v : Bool) (s : State) : (s.setOut .rst v).outRst = v := rfl
@[simp] theorem State.setOut_rst_outSck (v : Bool) (s : State) : (s.setOut .rst v).outSck = s.outSck := rfl
@[simp] theorem State.setOut_rst_outMosi (v : Bool) (s : State) : (s.setOut .rst v).outMosi = s.outMosi := rfl
@[simp] theorem State.setOut_sck_outRst (v : Bool) (s : State) : (s.setOut .sck v).outRst = s.outRst := rfl
@[simp] theorem State.setOut_sck_outSck (v : Bool) (s : State) : (s.setOut .sck v).outSck = v := rfl
@[simp] theorem State.setOut_sck_outMosi (v : Bool) (s : State) : (s.setOut .sck v).outMosi = s.outMosi := rfl
@[simp] theorem State.setOut_mosi_outRst (v : Bool) (s : State) : (s.setOut .mosi v).outRst = s.outRst := rfl
@[simp] theorem State.setOut_mosi_outSck (v : Bool) (s : State) : (s.setOut .mosi v).outSck = s.outSck := rfl
@[simp] theorem State.setOut_mosi_outMosi (v : Bool) (s : State) : (s.setOut .mosi v).outMosi = v := rfl

/-! `Line(L) <- v` changes that latch only (R41). -/

@[simp] theorem State.setLine_speed (l : Line) (v : Bool) (s : State) : (s.setLine l v).speed = s.speed := by cases l <;> rfl
@[simp] theorem State.setLine_xport (l : Line) (v : Bool) (s : State) : (s.setLine l v).xport = s.xport := by cases l <;> rfl
@[simp] theorem State.setLine_swDelay (l : Line) (v : Bool) (s : State) : (s.setLine l v).swDelay = s.swDelay := by cases l <;> rfl
@[simp] theorem State.setLine_hiaddr (l : Line) (v : Bool) (s : State) : (s.setLine l v).hiaddr = s.hiaddr := by cases l <;> rfl
@[simp] theorem State.setLine_dirRst (l : Line) (v : Bool) (s : State) : (s.setLine l v).dirRst = s.dirRst := by cases l <;> rfl
@[simp] theorem State.setLine_dirSck (l : Line) (v : Bool) (s : State) : (s.setLine l v).dirSck = s.dirSck := by cases l <;> rfl
@[simp] theorem State.setLine_dirMosi (l : Line) (v : Bool) (s : State) : (s.setLine l v).dirMosi = s.dirMosi := by cases l <;> rfl
@[simp] theorem State.setLine_pullupMiso (l : Line) (v : Bool) (s : State) : (s.setLine l v).pullupMiso = s.pullupMiso := by cases l <;> rfl
@[simp] theorem State.setLine_ctrl (l : Line) (v : Bool) (s : State) : (s.setLine l v).ctrl = s.ctrl := by cases l <;> rfl
@[simp] theorem State.setLine_status (l : Line) (v : Bool) (s : State) : (s.setLine l v).status = s.status := by cases l <;> rfl
@[simp] theorem State.setLine_data (l : Line) (v : Bool) (s : State) : (s.setLine l v).data = s.data := by cases l <;> rfl
@[simp] theorem State.setLine_engShift (l : Line) (v : Bool) (s : State) : (s.setLine l v).engShift = s.engShift := by cases l <;> rfl
@[simp] theorem State.setLine_engCount (l : Line) (v : Bool) (s : State) : (s.setLine l v).engCount = s.engCount := by cases l <;> rfl
@[simp] theorem State.setLine_engSck (l : Line) (v : Bool) (s : State) : (s.setLine l v).engSck = s.engSck := by cases l <;> rfl
@[simp] theorem State.setLine_engMosi (l : Line) (v : Bool) (s : State) : (s.setLine l v).engMosi = s.engMosi := by cases l <;> rfl
@[simp] theorem State.setLine_hsState (l : Line) (v : Bool) (s : State) : (s.setLine l v).hsState = s.hsState := by cases l <;> rfl
@[simp] theorem State.setLine_tries (l : Line) (v : Bool) (s : State) : (s.setLine l v).tries = s.tries := by cases l <;> rfl
@[simp] theorem State.setLine_retries (l : Line) (v : Bool) (s : State) : (s.setLine l v).retries = s.retries := by cases l <;> rfl
@[simp] theorem State.setLine_delayStart (l : Line) (v : Bool) (s : State) : (s.setLine l v).delayStart = s.delayStart := by cases l <;> rfl
@[simp] theorem State.setLine_winStart (l : Line) (v : Bool) (s : State) : (s.setLine l v).winStart = s.winStart := by cases l <;> rfl
@[simp] theorem State.setLine_busy (l : Line) (v : Bool) (s : State) : (s.setLine l v).busy = s.busy := by cases l <;> rfl
@[simp] theorem State.setLine_rc (l : Line) (v : Bool) (s : State) : (s.setLine l v).rc = s.rc := by cases l <;> rfl
@[simp] theorem State.setLine_cmd (l : Line) (v : Bool) (s : State) : (s.setLine l v).cmd = s.cmd := by cases l <;> rfl
@[simp] theorem State.setLine_pos (l : Line) (v : Bool) (s : State) : (s.setLine l v).pos = s.pos := by cases l <;> rfl
@[simp] theorem State.setLine_resp (l : Line) (v : Bool) (s : State) : (s.setLine l v).resp = s.resp := by cases l <;> rfl
@[simp] theorem State.setLine_host (l : Line) (v : Bool) (s : State) : (s.setLine l v).host = s.host := by cases l <;> rfl
@[simp] theorem State.setLine_rst_outRst (v : Bool) (s : State) : (s.setLine .rst v).outRst = v := rfl
@[simp] theorem State.setLine_rst_outSck (v : Bool) (s : State) : (s.setLine .rst v).outSck = s.outSck := rfl
@[simp] theorem State.setLine_rst_outMosi (v : Bool) (s : State) : (s.setLine .rst v).outMosi = s.outMosi := rfl
@[simp] theorem State.setLine_sck_outRst (v : Bool) (s : State) : (s.setLine .sck v).outRst = s.outRst := rfl
@[simp] theorem State.setLine_sck_outSck (v : Bool) (s : State) : (s.setLine .sck v).outSck = v := rfl
@[simp] theorem State.setLine_sck_outMosi (v : Bool) (s : State) : (s.setLine .sck v).outMosi = s.outMosi := rfl
@[simp] theorem State.setLine_mosi_outRst (v : Bool) (s : State) : (s.setLine .mosi v).outRst = s.outRst := rfl
@[simp] theorem State.setLine_mosi_outSck (v : Bool) (s : State) : (s.setLine .mosi v).outSck = s.outSck := rfl
@[simp] theorem State.setLine_mosi_outMosi (v : Bool) (s : State) : (s.setLine .mosi v).outMosi = v := rfl

/-! A direction write changes that direction bit only (R16). -/

@[simp] theorem State.setDir_speed (l : Line) (v : Bool) (s : State) : (s.setDir l v).speed = s.speed := by cases l <;> rfl
@[simp] theorem State.setDir_xport (l : Line) (v : Bool) (s : State) : (s.setDir l v).xport = s.xport := by cases l <;> rfl
@[simp] theorem State.setDir_swDelay (l : Line) (v : Bool) (s : State) : (s.setDir l v).swDelay = s.swDelay := by cases l <;> rfl
@[simp] theorem State.setDir_hiaddr (l : Line) (v : Bool) (s : State) : (s.setDir l v).hiaddr = s.hiaddr := by cases l <;> rfl
@[simp] theorem State.setDir_outRst (l : Line) (v : Bool) (s : State) : (s.setDir l v).outRst = s.outRst := by cases l <;> rfl
@[simp] theorem State.setDir_outSck (l : Line) (v : Bool) (s : State) : (s.setDir l v).outSck = s.outSck := by cases l <;> rfl
@[simp] theorem State.setDir_outMosi (l : Line) (v : Bool) (s : State) : (s.setDir l v).outMosi = s.outMosi := by cases l <;> rfl
@[simp] theorem State.setDir_pullupMiso (l : Line) (v : Bool) (s : State) : (s.setDir l v).pullupMiso = s.pullupMiso := by cases l <;> rfl
@[simp] theorem State.setDir_ctrl (l : Line) (v : Bool) (s : State) : (s.setDir l v).ctrl = s.ctrl := by cases l <;> rfl
@[simp] theorem State.setDir_status (l : Line) (v : Bool) (s : State) : (s.setDir l v).status = s.status := by cases l <;> rfl
@[simp] theorem State.setDir_data (l : Line) (v : Bool) (s : State) : (s.setDir l v).data = s.data := by cases l <;> rfl
@[simp] theorem State.setDir_engShift (l : Line) (v : Bool) (s : State) : (s.setDir l v).engShift = s.engShift := by cases l <;> rfl
@[simp] theorem State.setDir_engCount (l : Line) (v : Bool) (s : State) : (s.setDir l v).engCount = s.engCount := by cases l <;> rfl
@[simp] theorem State.setDir_engSck (l : Line) (v : Bool) (s : State) : (s.setDir l v).engSck = s.engSck := by cases l <;> rfl
@[simp] theorem State.setDir_engMosi (l : Line) (v : Bool) (s : State) : (s.setDir l v).engMosi = s.engMosi := by cases l <;> rfl
@[simp] theorem State.setDir_hsState (l : Line) (v : Bool) (s : State) : (s.setDir l v).hsState = s.hsState := by cases l <;> rfl
@[simp] theorem State.setDir_tries (l : Line) (v : Bool) (s : State) : (s.setDir l v).tries = s.tries := by cases l <;> rfl
@[simp] theorem State.setDir_retries (l : Line) (v : Bool) (s : State) : (s.setDir l v).retries = s.retries := by cases l <;> rfl
@[simp] theorem State.setDir_delayStart (l : Line) (v : Bool) (s : State) : (s.setDir l v).delayStart = s.delayStart := by cases l <;> rfl
@[simp] theorem State.setDir_winStart (l : Line) (v : Bool) (s : State) : (s.setDir l v).winStart = s.winStart := by cases l <;> rfl
@[simp] theorem State.setDir_busy (l : Line) (v : Bool) (s : State) : (s.setDir l v).busy = s.busy := by cases l <;> rfl
@[simp] theorem State.setDir_rc (l : Line) (v : Bool) (s : State) : (s.setDir l v).rc = s.rc := by cases l <;> rfl
@[simp] theorem State.setDir_cmd (l : Line) (v : Bool) (s : State) : (s.setDir l v).cmd = s.cmd := by cases l <;> rfl
@[simp] theorem State.setDir_pos (l : Line) (v : Bool) (s : State) : (s.setDir l v).pos = s.pos := by cases l <;> rfl
@[simp] theorem State.setDir_resp (l : Line) (v : Bool) (s : State) : (s.setDir l v).resp = s.resp := by cases l <;> rfl
@[simp] theorem State.setDir_host (l : Line) (v : Bool) (s : State) : (s.setDir l v).host = s.host := by cases l <;> rfl
@[simp] theorem State.setDir_rst_dirRst (v : Bool) (s : State) : (s.setDir .rst v).dirRst = v := rfl
@[simp] theorem State.setDir_rst_dirSck (v : Bool) (s : State) : (s.setDir .rst v).dirSck = s.dirSck := rfl
@[simp] theorem State.setDir_rst_dirMosi (v : Bool) (s : State) : (s.setDir .rst v).dirMosi = s.dirMosi := rfl
@[simp] theorem State.setDir_sck_dirRst (v : Bool) (s : State) : (s.setDir .sck v).dirRst = s.dirRst := rfl
@[simp] theorem State.setDir_sck_dirSck (v : Bool) (s : State) : (s.setDir .sck v).dirSck = v := rfl
@[simp] theorem State.setDir_sck_dirMosi (v : Bool) (s : State) : (s.setDir .sck v).dirMosi = s.dirMosi := rfl
@[simp] theorem State.setDir_mosi_dirRst (v : Bool) (s : State) : (s.setDir .mosi v).dirRst = s.dirRst := rfl
@[simp] theorem State.setDir_mosi_dirSck (v : Bool) (s : State) : (s.setDir .mosi v).dirSck = s.dirSck := rfl
@[simp] theorem State.setDir_mosi_dirMosi (v : Bool) (s : State) : (s.setDir .mosi v).dirMosi = v := rfl

/-! A write of CTRL changes CTRL only. -/

@[simp] theorem State.setCtrl_speed (c : Byte) (s : State) : (s.setCtrl c).speed = s.speed := rfl
@[simp] theorem State.setCtrl_xport (c : Byte) (s : State) : (s.setCtrl c).xport = s.xport := rfl
@[simp] theorem State.setCtrl_swDelay (c : Byte) (s : State) : (s.setCtrl c).swDelay = s.swDelay := rfl
@[simp] theorem State.setCtrl_hiaddr (c : Byte) (s : State) : (s.setCtrl c).hiaddr = s.hiaddr := rfl
@[simp] theorem State.setCtrl_dirRst (c : Byte) (s : State) : (s.setCtrl c).dirRst = s.dirRst := rfl
@[simp] theorem State.setCtrl_dirSck (c : Byte) (s : State) : (s.setCtrl c).dirSck = s.dirSck := rfl
@[simp] theorem State.setCtrl_dirMosi (c : Byte) (s : State) : (s.setCtrl c).dirMosi = s.dirMosi := rfl
@[simp] theorem State.setCtrl_outRst (c : Byte) (s : State) : (s.setCtrl c).outRst = s.outRst := rfl
@[simp] theorem State.setCtrl_outSck (c : Byte) (s : State) : (s.setCtrl c).outSck = s.outSck := rfl
@[simp] theorem State.setCtrl_outMosi (c : Byte) (s : State) : (s.setCtrl c).outMosi = s.outMosi := rfl
@[simp] theorem State.setCtrl_pullupMiso (c : Byte) (s : State) : (s.setCtrl c).pullupMiso = s.pullupMiso := rfl
@[simp] theorem State.setCtrl_status (c : Byte) (s : State) : (s.setCtrl c).status = s.status := rfl
@[simp] theorem State.setCtrl_data (c : Byte) (s : State) : (s.setCtrl c).data = s.data := rfl
@[simp] theorem State.setCtrl_engShift (c : Byte) (s : State) : (s.setCtrl c).engShift = s.engShift := rfl
@[simp] theorem State.setCtrl_engCount (c : Byte) (s : State) : (s.setCtrl c).engCount = s.engCount := rfl
@[simp] theorem State.setCtrl_engSck (c : Byte) (s : State) : (s.setCtrl c).engSck = s.engSck := rfl
@[simp] theorem State.setCtrl_engMosi (c : Byte) (s : State) : (s.setCtrl c).engMosi = s.engMosi := rfl
@[simp] theorem State.setCtrl_hsState (c : Byte) (s : State) : (s.setCtrl c).hsState = s.hsState := rfl
@[simp] theorem State.setCtrl_tries (c : Byte) (s : State) : (s.setCtrl c).tries = s.tries := rfl
@[simp] theorem State.setCtrl_retries (c : Byte) (s : State) : (s.setCtrl c).retries = s.retries := rfl
@[simp] theorem State.setCtrl_delayStart (c : Byte) (s : State) : (s.setCtrl c).delayStart = s.delayStart := rfl
@[simp] theorem State.setCtrl_winStart (c : Byte) (s : State) : (s.setCtrl c).winStart = s.winStart := rfl
@[simp] theorem State.setCtrl_busy (c : Byte) (s : State) : (s.setCtrl c).busy = s.busy := rfl
@[simp] theorem State.setCtrl_rc (c : Byte) (s : State) : (s.setCtrl c).rc = s.rc := rfl
@[simp] theorem State.setCtrl_cmd (c : Byte) (s : State) : (s.setCtrl c).cmd = s.cmd := rfl
@[simp] theorem State.setCtrl_pos (c : Byte) (s : State) : (s.setCtrl c).pos = s.pos := rfl
@[simp] theorem State.setCtrl_resp (c : Byte) (s : State) : (s.setCtrl c).resp = s.resp := rfl
@[simp] theorem State.setCtrl_host (c : Byte) (s : State) : (s.setCtrl c).host = s.host := rfl
@[simp] theorem State.setCtrl_ctrl (c : Byte) (s : State) : (s.setCtrl c).ctrl = c := rfl

/-! The engine driving SCK changes no register. -/

@[simp] theorem State.engineSck_speed (v : Bool) (s : State) : (s.engineSck v).speed = s.speed := rfl
@[simp] theorem State.engineSck_xport (v : Bool) (s : State) : (s.engineSck v).xport = s.xport := rfl
@[simp] theorem State.engineSck_swDelay (v : Bool) (s : State) : (s.engineSck v).swDelay = s.swDelay := rfl
@[simp] theorem State.engineSck_hiaddr (v : Bool) (s : State) : (s.engineSck v).hiaddr = s.hiaddr := rfl
@[simp] theorem State.engineSck_dirRst (v : Bool) (s : State) : (s.engineSck v).dirRst = s.dirRst := rfl
@[simp] theorem State.engineSck_dirSck (v : Bool) (s : State) : (s.engineSck v).dirSck = s.dirSck := rfl
@[simp] theorem State.engineSck_dirMosi (v : Bool) (s : State) : (s.engineSck v).dirMosi = s.dirMosi := rfl
@[simp] theorem State.engineSck_outRst (v : Bool) (s : State) : (s.engineSck v).outRst = s.outRst := rfl
@[simp] theorem State.engineSck_outSck (v : Bool) (s : State) : (s.engineSck v).outSck = s.outSck := rfl
@[simp] theorem State.engineSck_outMosi (v : Bool) (s : State) : (s.engineSck v).outMosi = s.outMosi := rfl
@[simp] theorem State.engineSck_pullupMiso (v : Bool) (s : State) : (s.engineSck v).pullupMiso = s.pullupMiso := rfl
@[simp] theorem State.engineSck_ctrl (v : Bool) (s : State) : (s.engineSck v).ctrl = s.ctrl := rfl
@[simp] theorem State.engineSck_status (v : Bool) (s : State) : (s.engineSck v).status = s.status := rfl
@[simp] theorem State.engineSck_data (v : Bool) (s : State) : (s.engineSck v).data = s.data := rfl
@[simp] theorem State.engineSck_engShift (v : Bool) (s : State) : (s.engineSck v).engShift = s.engShift := rfl
@[simp] theorem State.engineSck_engCount (v : Bool) (s : State) : (s.engineSck v).engCount = s.engCount := rfl
@[simp] theorem State.engineSck_engMosi (v : Bool) (s : State) : (s.engineSck v).engMosi = s.engMosi := rfl
@[simp] theorem State.engineSck_hsState (v : Bool) (s : State) : (s.engineSck v).hsState = s.hsState := rfl
@[simp] theorem State.engineSck_tries (v : Bool) (s : State) : (s.engineSck v).tries = s.tries := rfl
@[simp] theorem State.engineSck_retries (v : Bool) (s : State) : (s.engineSck v).retries = s.retries := rfl
@[simp] theorem State.engineSck_delayStart (v : Bool) (s : State) : (s.engineSck v).delayStart = s.delayStart := rfl
@[simp] theorem State.engineSck_winStart (v : Bool) (s : State) : (s.engineSck v).winStart = s.winStart := rfl
@[simp] theorem State.engineSck_busy (v : Bool) (s : State) : (s.engineSck v).busy = s.busy := rfl
@[simp] theorem State.engineSck_rc (v : Bool) (s : State) : (s.engineSck v).rc = s.rc := rfl
@[simp] theorem State.engineSck_cmd (v : Bool) (s : State) : (s.engineSck v).cmd = s.cmd := rfl
@[simp] theorem State.engineSck_pos (v : Bool) (s : State) : (s.engineSck v).pos = s.pos := rfl
@[simp] theorem State.engineSck_resp (v : Bool) (s : State) : (s.engineSck v).resp = s.resp := rfl
@[simp] theorem State.engineSck_host (v : Bool) (s : State) : (s.engineSck v).host = s.host := rfl
@[simp] theorem State.engineSck_engSck (v : Bool) (s : State) : (s.engineSck v).engSck = v := rfl

/-! The engine driving MOSI changes no register. -/

@[simp] theorem State.engineMosi_speed (v : Bool) (s : State) : (s.engineMosi v).speed = s.speed := rfl
@[simp] theorem State.engineMosi_xport (v : Bool) (s : State) : (s.engineMosi v).xport = s.xport := rfl
@[simp] theorem State.engineMosi_swDelay (v : Bool) (s : State) : (s.engineMosi v).swDelay = s.swDelay := rfl
@[simp] theorem State.engineMosi_hiaddr (v : Bool) (s : State) : (s.engineMosi v).hiaddr = s.hiaddr := rfl
@[simp] theorem State.engineMosi_dirRst (v : Bool) (s : State) : (s.engineMosi v).dirRst = s.dirRst := rfl
@[simp] theorem State.engineMosi_dirSck (v : Bool) (s : State) : (s.engineMosi v).dirSck = s.dirSck := rfl
@[simp] theorem State.engineMosi_dirMosi (v : Bool) (s : State) : (s.engineMosi v).dirMosi = s.dirMosi := rfl
@[simp] theorem State.engineMosi_outRst (v : Bool) (s : State) : (s.engineMosi v).outRst = s.outRst := rfl
@[simp] theorem State.engineMosi_outSck (v : Bool) (s : State) : (s.engineMosi v).outSck = s.outSck := rfl
@[simp] theorem State.engineMosi_outMosi (v : Bool) (s : State) : (s.engineMosi v).outMosi = s.outMosi := rfl
@[simp] theorem State.engineMosi_pullupMiso (v : Bool) (s : State) : (s.engineMosi v).pullupMiso = s.pullupMiso := rfl
@[simp] theorem State.engineMosi_ctrl (v : Bool) (s : State) : (s.engineMosi v).ctrl = s.ctrl := rfl
@[simp] theorem State.engineMosi_status (v : Bool) (s : State) : (s.engineMosi v).status = s.status := rfl
@[simp] theorem State.engineMosi_data (v : Bool) (s : State) : (s.engineMosi v).data = s.data := rfl
@[simp] theorem State.engineMosi_engShift (v : Bool) (s : State) : (s.engineMosi v).engShift = s.engShift := rfl
@[simp] theorem State.engineMosi_engCount (v : Bool) (s : State) : (s.engineMosi v).engCount = s.engCount := rfl
@[simp] theorem State.engineMosi_engSck (v : Bool) (s : State) : (s.engineMosi v).engSck = s.engSck := rfl
@[simp] theorem State.engineMosi_hsState (v : Bool) (s : State) : (s.engineMosi v).hsState = s.hsState := rfl
@[simp] theorem State.engineMosi_tries (v : Bool) (s : State) : (s.engineMosi v).tries = s.tries := rfl
@[simp] theorem State.engineMosi_retries (v : Bool) (s : State) : (s.engineMosi v).retries = s.retries := rfl
@[simp] theorem State.engineMosi_delayStart (v : Bool) (s : State) : (s.engineMosi v).delayStart = s.delayStart := rfl
@[simp] theorem State.engineMosi_winStart (v : Bool) (s : State) : (s.engineMosi v).winStart = s.winStart := rfl
@[simp] theorem State.engineMosi_busy (v : Bool) (s : State) : (s.engineMosi v).busy = s.busy := rfl
@[simp] theorem State.engineMosi_rc (v : Bool) (s : State) : (s.engineMosi v).rc = s.rc := rfl
@[simp] theorem State.engineMosi_cmd (v : Bool) (s : State) : (s.engineMosi v).cmd = s.cmd := rfl
@[simp] theorem State.engineMosi_pos (v : Bool) (s : State) : (s.engineMosi v).pos = s.pos := rfl
@[simp] theorem State.engineMosi_resp (v : Bool) (s : State) : (s.engineMosi v).resp = s.resp := rfl
@[simp] theorem State.engineMosi_host (v : Bool) (s : State) : (s.engineMosi v).host = s.host := rfl
@[simp] theorem State.engineMosi_engMosi (v : Bool) (s : State) : (s.engineMosi v).engMosi = v := rfl

/-! A sample changes no register of the block. -/

@[simp] theorem State.afterSample_speed (s : State) : (s.afterSample).speed = s.speed := rfl
@[simp] theorem State.afterSample_xport (s : State) : (s.afterSample).xport = s.xport := rfl
@[simp] theorem State.afterSample_swDelay (s : State) : (s.afterSample).swDelay = s.swDelay := rfl
@[simp] theorem State.afterSample_hiaddr (s : State) : (s.afterSample).hiaddr = s.hiaddr := rfl
@[simp] theorem State.afterSample_dirRst (s : State) : (s.afterSample).dirRst = s.dirRst := rfl
@[simp] theorem State.afterSample_dirSck (s : State) : (s.afterSample).dirSck = s.dirSck := rfl
@[simp] theorem State.afterSample_dirMosi (s : State) : (s.afterSample).dirMosi = s.dirMosi := rfl
@[simp] theorem State.afterSample_outRst (s : State) : (s.afterSample).outRst = s.outRst := rfl
@[simp] theorem State.afterSample_outSck (s : State) : (s.afterSample).outSck = s.outSck := rfl
@[simp] theorem State.afterSample_outMosi (s : State) : (s.afterSample).outMosi = s.outMosi := rfl
@[simp] theorem State.afterSample_pullupMiso (s : State) : (s.afterSample).pullupMiso = s.pullupMiso := rfl
@[simp] theorem State.afterSample_ctrl (s : State) : (s.afterSample).ctrl = s.ctrl := rfl
@[simp] theorem State.afterSample_status (s : State) : (s.afterSample).status = s.status := rfl
@[simp] theorem State.afterSample_data (s : State) : (s.afterSample).data = s.data := rfl
@[simp] theorem State.afterSample_engShift (s : State) : (s.afterSample).engShift = s.engShift := rfl
@[simp] theorem State.afterSample_engCount (s : State) : (s.afterSample).engCount = s.engCount := rfl
@[simp] theorem State.afterSample_engSck (s : State) : (s.afterSample).engSck = s.engSck := rfl
@[simp] theorem State.afterSample_engMosi (s : State) : (s.afterSample).engMosi = s.engMosi := rfl
@[simp] theorem State.afterSample_hsState (s : State) : (s.afterSample).hsState = s.hsState := rfl
@[simp] theorem State.afterSample_tries (s : State) : (s.afterSample).tries = s.tries := rfl
@[simp] theorem State.afterSample_retries (s : State) : (s.afterSample).retries = s.retries := rfl
@[simp] theorem State.afterSample_delayStart (s : State) : (s.afterSample).delayStart = s.delayStart := rfl
@[simp] theorem State.afterSample_winStart (s : State) : (s.afterSample).winStart = s.winStart := rfl
@[simp] theorem State.afterSample_busy (s : State) : (s.afterSample).busy = s.busy := rfl
@[simp] theorem State.afterSample_rc (s : State) : (s.afterSample).rc = s.rc := rfl
@[simp] theorem State.afterSample_cmd (s : State) : (s.afterSample).cmd = s.cmd := rfl
@[simp] theorem State.afterSample_pos (s : State) : (s.afterSample).pos = s.pos := rfl
@[simp] theorem State.afterSample_resp (s : State) : (s.afterSample).resp = s.resp := rfl
@[simp] theorem State.afterSample_host (s : State) : (s.afterSample).host = s.host := rfl

/-! A tick reading changes no register of the block. -/

@[simp] theorem State.afterTick_speed (s : State) : (s.afterTick).speed = s.speed := rfl
@[simp] theorem State.afterTick_xport (s : State) : (s.afterTick).xport = s.xport := rfl
@[simp] theorem State.afterTick_swDelay (s : State) : (s.afterTick).swDelay = s.swDelay := rfl
@[simp] theorem State.afterTick_hiaddr (s : State) : (s.afterTick).hiaddr = s.hiaddr := rfl
@[simp] theorem State.afterTick_dirRst (s : State) : (s.afterTick).dirRst = s.dirRst := rfl
@[simp] theorem State.afterTick_dirSck (s : State) : (s.afterTick).dirSck = s.dirSck := rfl
@[simp] theorem State.afterTick_dirMosi (s : State) : (s.afterTick).dirMosi = s.dirMosi := rfl
@[simp] theorem State.afterTick_outRst (s : State) : (s.afterTick).outRst = s.outRst := rfl
@[simp] theorem State.afterTick_outSck (s : State) : (s.afterTick).outSck = s.outSck := rfl
@[simp] theorem State.afterTick_outMosi (s : State) : (s.afterTick).outMosi = s.outMosi := rfl
@[simp] theorem State.afterTick_pullupMiso (s : State) : (s.afterTick).pullupMiso = s.pullupMiso := rfl
@[simp] theorem State.afterTick_ctrl (s : State) : (s.afterTick).ctrl = s.ctrl := rfl
@[simp] theorem State.afterTick_status (s : State) : (s.afterTick).status = s.status := rfl
@[simp] theorem State.afterTick_data (s : State) : (s.afterTick).data = s.data := rfl
@[simp] theorem State.afterTick_engShift (s : State) : (s.afterTick).engShift = s.engShift := rfl
@[simp] theorem State.afterTick_engCount (s : State) : (s.afterTick).engCount = s.engCount := rfl
@[simp] theorem State.afterTick_engSck (s : State) : (s.afterTick).engSck = s.engSck := rfl
@[simp] theorem State.afterTick_engMosi (s : State) : (s.afterTick).engMosi = s.engMosi := rfl
@[simp] theorem State.afterTick_hsState (s : State) : (s.afterTick).hsState = s.hsState := rfl
@[simp] theorem State.afterTick_tries (s : State) : (s.afterTick).tries = s.tries := rfl
@[simp] theorem State.afterTick_retries (s : State) : (s.afterTick).retries = s.retries := rfl
@[simp] theorem State.afterTick_delayStart (s : State) : (s.afterTick).delayStart = s.delayStart := rfl
@[simp] theorem State.afterTick_winStart (s : State) : (s.afterTick).winStart = s.winStart := rfl
@[simp] theorem State.afterTick_busy (s : State) : (s.afterTick).busy = s.busy := rfl
@[simp] theorem State.afterTick_rc (s : State) : (s.afterTick).rc = s.rc := rfl
@[simp] theorem State.afterTick_cmd (s : State) : (s.afterTick).cmd = s.cmd := rfl
@[simp] theorem State.afterTick_pos (s : State) : (s.afterTick).pos = s.pos := rfl
@[simp] theorem State.afterTick_resp (s : State) : (s.afterTick).resp = s.resp := rfl
@[simp] theorem State.afterTick_host (s : State) : (s.afterTick).host = s.host := rfl

/-! `DelayTicks` changes `delay_start` only (R109). -/

@[simp] theorem State.delayTicks_speed (n : Tick) (s : State) : (s.delayTicks n).speed = s.speed := rfl
@[simp] theorem State.delayTicks_xport (n : Tick) (s : State) : (s.delayTicks n).xport = s.xport := rfl
@[simp] theorem State.delayTicks_swDelay (n : Tick) (s : State) : (s.delayTicks n).swDelay = s.swDelay := rfl
@[simp] theorem State.delayTicks_hiaddr (n : Tick) (s : State) : (s.delayTicks n).hiaddr = s.hiaddr := rfl
@[simp] theorem State.delayTicks_dirRst (n : Tick) (s : State) : (s.delayTicks n).dirRst = s.dirRst := rfl
@[simp] theorem State.delayTicks_dirSck (n : Tick) (s : State) : (s.delayTicks n).dirSck = s.dirSck := rfl
@[simp] theorem State.delayTicks_dirMosi (n : Tick) (s : State) : (s.delayTicks n).dirMosi = s.dirMosi := rfl
@[simp] theorem State.delayTicks_outRst (n : Tick) (s : State) : (s.delayTicks n).outRst = s.outRst := rfl
@[simp] theorem State.delayTicks_outSck (n : Tick) (s : State) : (s.delayTicks n).outSck = s.outSck := rfl
@[simp] theorem State.delayTicks_outMosi (n : Tick) (s : State) : (s.delayTicks n).outMosi = s.outMosi := rfl
@[simp] theorem State.delayTicks_pullupMiso (n : Tick) (s : State) : (s.delayTicks n).pullupMiso = s.pullupMiso := rfl
@[simp] theorem State.delayTicks_ctrl (n : Tick) (s : State) : (s.delayTicks n).ctrl = s.ctrl := rfl
@[simp] theorem State.delayTicks_status (n : Tick) (s : State) : (s.delayTicks n).status = s.status := rfl
@[simp] theorem State.delayTicks_data (n : Tick) (s : State) : (s.delayTicks n).data = s.data := rfl
@[simp] theorem State.delayTicks_engShift (n : Tick) (s : State) : (s.delayTicks n).engShift = s.engShift := rfl
@[simp] theorem State.delayTicks_engCount (n : Tick) (s : State) : (s.delayTicks n).engCount = s.engCount := rfl
@[simp] theorem State.delayTicks_engSck (n : Tick) (s : State) : (s.delayTicks n).engSck = s.engSck := rfl
@[simp] theorem State.delayTicks_engMosi (n : Tick) (s : State) : (s.delayTicks n).engMosi = s.engMosi := rfl
@[simp] theorem State.delayTicks_hsState (n : Tick) (s : State) : (s.delayTicks n).hsState = s.hsState := rfl
@[simp] theorem State.delayTicks_tries (n : Tick) (s : State) : (s.delayTicks n).tries = s.tries := rfl
@[simp] theorem State.delayTicks_retries (n : Tick) (s : State) : (s.delayTicks n).retries = s.retries := rfl
@[simp] theorem State.delayTicks_winStart (n : Tick) (s : State) : (s.delayTicks n).winStart = s.winStart := rfl
@[simp] theorem State.delayTicks_busy (n : Tick) (s : State) : (s.delayTicks n).busy = s.busy := rfl
@[simp] theorem State.delayTicks_rc (n : Tick) (s : State) : (s.delayTicks n).rc = s.rc := rfl
@[simp] theorem State.delayTicks_cmd (n : Tick) (s : State) : (s.delayTicks n).cmd = s.cmd := rfl
@[simp] theorem State.delayTicks_pos (n : Tick) (s : State) : (s.delayTicks n).pos = s.pos := rfl
@[simp] theorem State.delayTicks_resp (n : Tick) (s : State) : (s.delayTicks n).resp = s.resp := rfl
@[simp] theorem State.delayTicks_host (n : Tick) (s : State) : (s.delayTicks n).host = s.host := rfl
@[simp] theorem State.delayTicks_delayStart (n : Tick) (s : State) : (s.delayTicks n).delayStart = s.env.reading := rfl

/-! Waiting changes `delay_start` only. -/

/-- What every `DelayTicks` keeps, a wait keeps. -/
theorem State.waitUnits_keeps {α : Type} (f : State → α) (h : ∀ n s, f (State.delayTicks n s) = f s) (n : Nat) (s : State) :
    f (s.waitUnits n) = f s := by
  induction n generalizing s with
  | zero => rfl
  | succ n ih => rw [State.waitUnits, ih, h]

@[simp] theorem State.waitUnits_speed (n : Nat) (s : State) : (s.waitUnits n).speed = s.speed :=
  State.waitUnits_keeps (fun t => t.speed) (fun _ _ => rfl) n s
@[simp] theorem State.waitUnits_xport (n : Nat) (s : State) : (s.waitUnits n).xport = s.xport :=
  State.waitUnits_keeps (fun t => t.xport) (fun _ _ => rfl) n s
@[simp] theorem State.waitUnits_swDelay (n : Nat) (s : State) : (s.waitUnits n).swDelay = s.swDelay :=
  State.waitUnits_keeps (fun t => t.swDelay) (fun _ _ => rfl) n s
@[simp] theorem State.waitUnits_hiaddr (n : Nat) (s : State) : (s.waitUnits n).hiaddr = s.hiaddr :=
  State.waitUnits_keeps (fun t => t.hiaddr) (fun _ _ => rfl) n s
@[simp] theorem State.waitUnits_dirRst (n : Nat) (s : State) : (s.waitUnits n).dirRst = s.dirRst :=
  State.waitUnits_keeps (fun t => t.dirRst) (fun _ _ => rfl) n s
@[simp] theorem State.waitUnits_dirSck (n : Nat) (s : State) : (s.waitUnits n).dirSck = s.dirSck :=
  State.waitUnits_keeps (fun t => t.dirSck) (fun _ _ => rfl) n s
@[simp] theorem State.waitUnits_dirMosi (n : Nat) (s : State) : (s.waitUnits n).dirMosi = s.dirMosi :=
  State.waitUnits_keeps (fun t => t.dirMosi) (fun _ _ => rfl) n s
@[simp] theorem State.waitUnits_outRst (n : Nat) (s : State) : (s.waitUnits n).outRst = s.outRst :=
  State.waitUnits_keeps (fun t => t.outRst) (fun _ _ => rfl) n s
@[simp] theorem State.waitUnits_outSck (n : Nat) (s : State) : (s.waitUnits n).outSck = s.outSck :=
  State.waitUnits_keeps (fun t => t.outSck) (fun _ _ => rfl) n s
@[simp] theorem State.waitUnits_outMosi (n : Nat) (s : State) : (s.waitUnits n).outMosi = s.outMosi :=
  State.waitUnits_keeps (fun t => t.outMosi) (fun _ _ => rfl) n s
@[simp] theorem State.waitUnits_pullupMiso (n : Nat) (s : State) : (s.waitUnits n).pullupMiso = s.pullupMiso :=
  State.waitUnits_keeps (fun t => t.pullupMiso) (fun _ _ => rfl) n s
@[simp] theorem State.waitUnits_ctrl (n : Nat) (s : State) : (s.waitUnits n).ctrl = s.ctrl :=
  State.waitUnits_keeps (fun t => t.ctrl) (fun _ _ => rfl) n s
@[simp] theorem State.waitUnits_status (n : Nat) (s : State) : (s.waitUnits n).status = s.status :=
  State.waitUnits_keeps (fun t => t.status) (fun _ _ => rfl) n s
@[simp] theorem State.waitUnits_data (n : Nat) (s : State) : (s.waitUnits n).data = s.data :=
  State.waitUnits_keeps (fun t => t.data) (fun _ _ => rfl) n s
@[simp] theorem State.waitUnits_engShift (n : Nat) (s : State) : (s.waitUnits n).engShift = s.engShift :=
  State.waitUnits_keeps (fun t => t.engShift) (fun _ _ => rfl) n s
@[simp] theorem State.waitUnits_engCount (n : Nat) (s : State) : (s.waitUnits n).engCount = s.engCount :=
  State.waitUnits_keeps (fun t => t.engCount) (fun _ _ => rfl) n s
@[simp] theorem State.waitUnits_engSck (n : Nat) (s : State) : (s.waitUnits n).engSck = s.engSck :=
  State.waitUnits_keeps (fun t => t.engSck) (fun _ _ => rfl) n s
@[simp] theorem State.waitUnits_engMosi (n : Nat) (s : State) : (s.waitUnits n).engMosi = s.engMosi :=
  State.waitUnits_keeps (fun t => t.engMosi) (fun _ _ => rfl) n s
@[simp] theorem State.waitUnits_hsState (n : Nat) (s : State) : (s.waitUnits n).hsState = s.hsState :=
  State.waitUnits_keeps (fun t => t.hsState) (fun _ _ => rfl) n s
@[simp] theorem State.waitUnits_tries (n : Nat) (s : State) : (s.waitUnits n).tries = s.tries :=
  State.waitUnits_keeps (fun t => t.tries) (fun _ _ => rfl) n s
@[simp] theorem State.waitUnits_retries (n : Nat) (s : State) : (s.waitUnits n).retries = s.retries :=
  State.waitUnits_keeps (fun t => t.retries) (fun _ _ => rfl) n s
@[simp] theorem State.waitUnits_winStart (n : Nat) (s : State) : (s.waitUnits n).winStart = s.winStart :=
  State.waitUnits_keeps (fun t => t.winStart) (fun _ _ => rfl) n s
@[simp] theorem State.waitUnits_busy (n : Nat) (s : State) : (s.waitUnits n).busy = s.busy :=
  State.waitUnits_keeps (fun t => t.busy) (fun _ _ => rfl) n s
@[simp] theorem State.waitUnits_rc (n : Nat) (s : State) : (s.waitUnits n).rc = s.rc :=
  State.waitUnits_keeps (fun t => t.rc) (fun _ _ => rfl) n s
@[simp] theorem State.waitUnits_cmd (n : Nat) (s : State) : (s.waitUnits n).cmd = s.cmd :=
  State.waitUnits_keeps (fun t => t.cmd) (fun _ _ => rfl) n s
@[simp] theorem State.waitUnits_pos (n : Nat) (s : State) : (s.waitUnits n).pos = s.pos :=
  State.waitUnits_keeps (fun t => t.pos) (fun _ _ => rfl) n s
@[simp] theorem State.waitUnits_resp (n : Nat) (s : State) : (s.waitUnits n).resp = s.resp :=
  State.waitUnits_keeps (fun t => t.resp) (fun _ _ => rfl) n s
@[simp] theorem State.waitUnits_host (n : Nat) (s : State) : (s.waitUnits n).host = s.host :=
  State.waitUnits_keeps (fun t => t.host) (fun _ _ => rfl) n s

/-! `Wait(n)` changes `delay_start` only (R110). -/

@[simp] theorem State.wait_speed (n : Nat) (s : State) : (s.wait n).speed = s.speed := by simp [State.wait]
@[simp] theorem State.wait_xport (n : Nat) (s : State) : (s.wait n).xport = s.xport := by simp [State.wait]
@[simp] theorem State.wait_swDelay (n : Nat) (s : State) : (s.wait n).swDelay = s.swDelay := by simp [State.wait]
@[simp] theorem State.wait_hiaddr (n : Nat) (s : State) : (s.wait n).hiaddr = s.hiaddr := by simp [State.wait]
@[simp] theorem State.wait_dirRst (n : Nat) (s : State) : (s.wait n).dirRst = s.dirRst := by simp [State.wait]
@[simp] theorem State.wait_dirSck (n : Nat) (s : State) : (s.wait n).dirSck = s.dirSck := by simp [State.wait]
@[simp] theorem State.wait_dirMosi (n : Nat) (s : State) : (s.wait n).dirMosi = s.dirMosi := by simp [State.wait]
@[simp] theorem State.wait_outRst (n : Nat) (s : State) : (s.wait n).outRst = s.outRst := by simp [State.wait]
@[simp] theorem State.wait_outSck (n : Nat) (s : State) : (s.wait n).outSck = s.outSck := by simp [State.wait]
@[simp] theorem State.wait_outMosi (n : Nat) (s : State) : (s.wait n).outMosi = s.outMosi := by simp [State.wait]
@[simp] theorem State.wait_pullupMiso (n : Nat) (s : State) : (s.wait n).pullupMiso = s.pullupMiso := by simp [State.wait]
@[simp] theorem State.wait_ctrl (n : Nat) (s : State) : (s.wait n).ctrl = s.ctrl := by simp [State.wait]
@[simp] theorem State.wait_status (n : Nat) (s : State) : (s.wait n).status = s.status := by simp [State.wait]
@[simp] theorem State.wait_data (n : Nat) (s : State) : (s.wait n).data = s.data := by simp [State.wait]
@[simp] theorem State.wait_engShift (n : Nat) (s : State) : (s.wait n).engShift = s.engShift := by simp [State.wait]
@[simp] theorem State.wait_engCount (n : Nat) (s : State) : (s.wait n).engCount = s.engCount := by simp [State.wait]
@[simp] theorem State.wait_engSck (n : Nat) (s : State) : (s.wait n).engSck = s.engSck := by simp [State.wait]
@[simp] theorem State.wait_engMosi (n : Nat) (s : State) : (s.wait n).engMosi = s.engMosi := by simp [State.wait]
@[simp] theorem State.wait_hsState (n : Nat) (s : State) : (s.wait n).hsState = s.hsState := by simp [State.wait]
@[simp] theorem State.wait_tries (n : Nat) (s : State) : (s.wait n).tries = s.tries := by simp [State.wait]
@[simp] theorem State.wait_retries (n : Nat) (s : State) : (s.wait n).retries = s.retries := by simp [State.wait]
@[simp] theorem State.wait_winStart (n : Nat) (s : State) : (s.wait n).winStart = s.winStart := by simp [State.wait]
@[simp] theorem State.wait_busy (n : Nat) (s : State) : (s.wait n).busy = s.busy := by simp [State.wait]
@[simp] theorem State.wait_rc (n : Nat) (s : State) : (s.wait n).rc = s.rc := by simp [State.wait]
@[simp] theorem State.wait_cmd (n : Nat) (s : State) : (s.wait n).cmd = s.cmd := by simp [State.wait]
@[simp] theorem State.wait_pos (n : Nat) (s : State) : (s.wait n).pos = s.pos := by simp [State.wait]
@[simp] theorem State.wait_resp (n : Nat) (s : State) : (s.wait n).resp = s.resp := by simp [State.wait]
@[simp] theorem State.wait_host (n : Nat) (s : State) : (s.wait n).host = s.host := by simp [State.wait]

/-! `PulseReset` touches neither SCK nor MOSI (R126). -/

@[simp] theorem State.pulseReset_speed (s : State) : (s.pulseReset).speed = s.speed := by simp [State.pulseReset]
@[simp] theorem State.pulseReset_xport (s : State) : (s.pulseReset).xport = s.xport := by simp [State.pulseReset]
@[simp] theorem State.pulseReset_swDelay (s : State) : (s.pulseReset).swDelay = s.swDelay := by simp [State.pulseReset]
@[simp] theorem State.pulseReset_hiaddr (s : State) : (s.pulseReset).hiaddr = s.hiaddr := by simp [State.pulseReset]
@[simp] theorem State.pulseReset_dirRst (s : State) : (s.pulseReset).dirRst = s.dirRst := by simp [State.pulseReset]
@[simp] theorem State.pulseReset_dirSck (s : State) : (s.pulseReset).dirSck = s.dirSck := by simp [State.pulseReset]
@[simp] theorem State.pulseReset_dirMosi (s : State) : (s.pulseReset).dirMosi = s.dirMosi := by simp [State.pulseReset]
@[simp] theorem State.pulseReset_pullupMiso (s : State) : (s.pulseReset).pullupMiso = s.pullupMiso := by simp [State.pulseReset]
@[simp] theorem State.pulseReset_ctrl (s : State) : (s.pulseReset).ctrl = s.ctrl := by simp [State.pulseReset]
@[simp] theorem State.pulseReset_status (s : State) : (s.pulseReset).status = s.status := by simp [State.pulseReset]
@[simp] theorem State.pulseReset_data (s : State) : (s.pulseReset).data = s.data := by simp [State.pulseReset]
@[simp] theorem State.pulseReset_engShift (s : State) : (s.pulseReset).engShift = s.engShift := by simp [State.pulseReset]
@[simp] theorem State.pulseReset_engCount (s : State) : (s.pulseReset).engCount = s.engCount := by simp [State.pulseReset]
@[simp] theorem State.pulseReset_engSck (s : State) : (s.pulseReset).engSck = s.engSck := by simp [State.pulseReset]
@[simp] theorem State.pulseReset_engMosi (s : State) : (s.pulseReset).engMosi = s.engMosi := by simp [State.pulseReset]
@[simp] theorem State.pulseReset_hsState (s : State) : (s.pulseReset).hsState = s.hsState := by simp [State.pulseReset]
@[simp] theorem State.pulseReset_tries (s : State) : (s.pulseReset).tries = s.tries := by simp [State.pulseReset]
@[simp] theorem State.pulseReset_retries (s : State) : (s.pulseReset).retries = s.retries := by simp [State.pulseReset]
@[simp] theorem State.pulseReset_winStart (s : State) : (s.pulseReset).winStart = s.winStart := by simp [State.pulseReset]
@[simp] theorem State.pulseReset_busy (s : State) : (s.pulseReset).busy = s.busy := by simp [State.pulseReset]
@[simp] theorem State.pulseReset_rc (s : State) : (s.pulseReset).rc = s.rc := by simp [State.pulseReset]
@[simp] theorem State.pulseReset_cmd (s : State) : (s.pulseReset).cmd = s.cmd := by simp [State.pulseReset]
@[simp] theorem State.pulseReset_pos (s : State) : (s.pulseReset).pos = s.pos := by simp [State.pulseReset]
@[simp] theorem State.pulseReset_resp (s : State) : (s.pulseReset).resp = s.resp := by simp [State.pulseReset]
@[simp] theorem State.pulseReset_host (s : State) : (s.pulseReset).host = s.host := by simp [State.pulseReset]
@[simp] theorem State.pulseReset_outRst (s : State) : s.pulseReset.outRst = false := rfl
@[simp] theorem State.pulseReset_outSck (s : State) : s.pulseReset.outSck = s.outSck := by simp [State.pulseReset]
@[simp] theorem State.pulseReset_outMosi (s : State) : s.pulseReset.outMosi = s.outMosi := by simp [State.pulseReset]

/-! `DisableHw` writes CTRL only (R127). -/

@[simp] theorem State.disableHw_speed (s : State) : (s.disableHw).speed = s.speed := rfl
@[simp] theorem State.disableHw_xport (s : State) : (s.disableHw).xport = s.xport := rfl
@[simp] theorem State.disableHw_swDelay (s : State) : (s.disableHw).swDelay = s.swDelay := rfl
@[simp] theorem State.disableHw_hiaddr (s : State) : (s.disableHw).hiaddr = s.hiaddr := rfl
@[simp] theorem State.disableHw_dirRst (s : State) : (s.disableHw).dirRst = s.dirRst := rfl
@[simp] theorem State.disableHw_dirSck (s : State) : (s.disableHw).dirSck = s.dirSck := rfl
@[simp] theorem State.disableHw_dirMosi (s : State) : (s.disableHw).dirMosi = s.dirMosi := rfl
@[simp] theorem State.disableHw_outRst (s : State) : (s.disableHw).outRst = s.outRst := rfl
@[simp] theorem State.disableHw_outSck (s : State) : (s.disableHw).outSck = s.outSck := rfl
@[simp] theorem State.disableHw_outMosi (s : State) : (s.disableHw).outMosi = s.outMosi := rfl
@[simp] theorem State.disableHw_pullupMiso (s : State) : (s.disableHw).pullupMiso = s.pullupMiso := rfl
@[simp] theorem State.disableHw_status (s : State) : (s.disableHw).status = s.status := rfl
@[simp] theorem State.disableHw_data (s : State) : (s.disableHw).data = s.data := rfl
@[simp] theorem State.disableHw_engShift (s : State) : (s.disableHw).engShift = s.engShift := rfl
@[simp] theorem State.disableHw_engCount (s : State) : (s.disableHw).engCount = s.engCount := rfl
@[simp] theorem State.disableHw_engSck (s : State) : (s.disableHw).engSck = s.engSck := rfl
@[simp] theorem State.disableHw_engMosi (s : State) : (s.disableHw).engMosi = s.engMosi := rfl
@[simp] theorem State.disableHw_hsState (s : State) : (s.disableHw).hsState = s.hsState := rfl
@[simp] theorem State.disableHw_tries (s : State) : (s.disableHw).tries = s.tries := rfl
@[simp] theorem State.disableHw_retries (s : State) : (s.disableHw).retries = s.retries := rfl
@[simp] theorem State.disableHw_delayStart (s : State) : (s.disableHw).delayStart = s.delayStart := rfl
@[simp] theorem State.disableHw_winStart (s : State) : (s.disableHw).winStart = s.winStart := rfl
@[simp] theorem State.disableHw_busy (s : State) : (s.disableHw).busy = s.busy := rfl
@[simp] theorem State.disableHw_rc (s : State) : (s.disableHw).rc = s.rc := rfl
@[simp] theorem State.disableHw_cmd (s : State) : (s.disableHw).cmd = s.cmd := rfl
@[simp] theorem State.disableHw_pos (s : State) : (s.disableHw).pos = s.pos := rfl
@[simp] theorem State.disableHw_resp (s : State) : (s.disableHw).resp = s.resp := rfl
@[simp] theorem State.disableHw_host (s : State) : (s.disableHw).host = s.host := rfl
@[simp] theorem State.disableHw_ctrl (s : State) : s.disableHw.ctrl = ctrlDisabled := rfl

/-! ### The environment after each of them -/

@[simp] theorem Env.afterTick_target (e : Env) : e.afterTick.target = e.target := by unfold Env.afterTick; split <;> rfl
@[simp] theorem Env.afterTick_miso (e : Env) : e.afterTick.miso = e.miso := by unfold Env.afterTick; split <;> rfl
@[simp] theorem Env.afterTick_samples (e : Env) : e.afterTick.samples = e.samples := by unfold Env.afterTick; split <;> rfl
@[simp] theorem Env.afterTick_trace (e : Env) : e.afterTick.trace = e.trace := by unfold Env.afterTick; split <;> rfl

@[simp] theorem State.log_env_target (ev : Event) (s : State) : (s.log ev).env.target = s.env.target := rfl
@[simp] theorem State.log_env_miso (ev : Event) (s : State) : (s.log ev).env.miso = s.env.miso := rfl
@[simp] theorem State.log_env_samples (ev : Event) (s : State) : (s.log ev).env.samples = s.env.samples := rfl
@[simp] theorem State.log_env_ticks (ev : Event) (s : State) : (s.log ev).env.ticks = s.env.ticks := rfl
@[simp] theorem State.log_env_tickDraws (ev : Event) (s : State) : (s.log ev).env.tickDraws = s.env.tickDraws := rfl
@[simp] theorem State.log_env_trace (ev : Event) (s : State) : (s.log ev).env.trace = ev :: s.env.trace := rfl

@[simp] theorem State.onWire_env_target (a b : State) : (a.onWire b).env.target = b.env.target.observe a.wire b.wire := rfl
@[simp] theorem State.onWire_env_miso (a b : State) : (a.onWire b).env.miso = b.env.miso := rfl
@[simp] theorem State.onWire_env_samples (a b : State) : (a.onWire b).env.samples = b.env.samples := rfl
@[simp] theorem State.onWire_env_ticks (a b : State) : (a.onWire b).env.ticks = b.env.ticks := rfl
@[simp] theorem State.onWire_env_tickDraws (a b : State) : (a.onWire b).env.tickDraws = b.env.tickDraws := rfl
@[simp] theorem State.onWire_env_trace (a b : State) : (a.onWire b).env.trace = .wire b.wire :: b.env.trace := rfl

@[simp] theorem State.setOut_env_target (l : Line) (v : Bool) (s : State) : (s.setOut l v).env.target = s.env.target.observe s.wire (s.setOut l v).wire := by cases l <;> rfl
@[simp] theorem State.setOut_env_miso (l : Line) (v : Bool) (s : State) : (s.setOut l v).env.miso = s.env.miso := by cases l <;> rfl
@[simp] theorem State.setOut_env_samples (l : Line) (v : Bool) (s : State) : (s.setOut l v).env.samples = s.env.samples := by cases l <;> rfl
@[simp] theorem State.setOut_env_ticks (l : Line) (v : Bool) (s : State) : (s.setOut l v).env.ticks = s.env.ticks := by cases l <;> rfl
@[simp] theorem State.setOut_env_tickDraws (l : Line) (v : Bool) (s : State) : (s.setOut l v).env.tickDraws = s.env.tickDraws := by cases l <;> rfl
@[simp] theorem State.setOut_env_trace (l : Line) (v : Bool) (s : State) : (s.setOut l v).env.trace = .wire (s.setOut l v).wire :: s.env.trace := by cases l <;> rfl

@[simp] theorem State.setLine_env_target (l : Line) (v : Bool) (s : State) : (s.setLine l v).env.target = s.env.target.observe s.wire (s.setLine l v).wire := by cases l <;> rfl
@[simp] theorem State.setLine_env_miso (l : Line) (v : Bool) (s : State) : (s.setLine l v).env.miso = s.env.miso := by cases l <;> rfl
@[simp] theorem State.setLine_env_samples (l : Line) (v : Bool) (s : State) : (s.setLine l v).env.samples = s.env.samples := by cases l <;> rfl
@[simp] theorem State.setLine_env_ticks (l : Line) (v : Bool) (s : State) : (s.setLine l v).env.ticks = s.env.ticks := by cases l <;> rfl
@[simp] theorem State.setLine_env_tickDraws (l : Line) (v : Bool) (s : State) : (s.setLine l v).env.tickDraws = s.env.tickDraws := by cases l <;> rfl
@[simp] theorem State.setLine_env_trace (l : Line) (v : Bool) (s : State) : (s.setLine l v).env.trace = .wire (s.setLine l v).wire :: .line l v :: s.env.trace := by cases l <;> rfl

@[simp] theorem State.setDir_env_target (l : Line) (v : Bool) (s : State) : (s.setDir l v).env.target = s.env.target.observe s.wire (s.setDir l v).wire := by cases l <;> rfl
@[simp] theorem State.setDir_env_miso (l : Line) (v : Bool) (s : State) : (s.setDir l v).env.miso = s.env.miso := by cases l <;> rfl
@[simp] theorem State.setDir_env_samples (l : Line) (v : Bool) (s : State) : (s.setDir l v).env.samples = s.env.samples := by cases l <;> rfl
@[simp] theorem State.setDir_env_ticks (l : Line) (v : Bool) (s : State) : (s.setDir l v).env.ticks = s.env.ticks := by cases l <;> rfl
@[simp] theorem State.setDir_env_tickDraws (l : Line) (v : Bool) (s : State) : (s.setDir l v).env.tickDraws = s.env.tickDraws := by cases l <;> rfl
@[simp] theorem State.setDir_env_trace (l : Line) (v : Bool) (s : State) : (s.setDir l v).env.trace = .wire (s.setDir l v).wire :: s.env.trace := by cases l <;> rfl

@[simp] theorem State.setCtrl_env_target (c : Byte) (s : State) : (s.setCtrl c).env.target = s.env.target.observe s.wire (s.setCtrl c).wire := rfl
@[simp] theorem State.setCtrl_env_miso (c : Byte) (s : State) : (s.setCtrl c).env.miso = s.env.miso := rfl
@[simp] theorem State.setCtrl_env_samples (c : Byte) (s : State) : (s.setCtrl c).env.samples = s.env.samples := rfl
@[simp] theorem State.setCtrl_env_ticks (c : Byte) (s : State) : (s.setCtrl c).env.ticks = s.env.ticks := rfl
@[simp] theorem State.setCtrl_env_tickDraws (c : Byte) (s : State) : (s.setCtrl c).env.tickDraws = s.env.tickDraws := rfl
@[simp] theorem State.setCtrl_env_trace (c : Byte) (s : State) : (s.setCtrl c).env.trace = .wire (s.setCtrl c).wire :: s.env.trace := rfl

@[simp] theorem State.engineSck_env_target (v : Bool) (s : State) : (s.engineSck v).env.target = s.env.target.observe s.wire (s.engineSck v).wire := rfl
@[simp] theorem State.engineSck_env_miso (v : Bool) (s : State) : (s.engineSck v).env.miso = s.env.miso := rfl
@[simp] theorem State.engineSck_env_samples (v : Bool) (s : State) : (s.engineSck v).env.samples = s.env.samples := rfl
@[simp] theorem State.engineSck_env_ticks (v : Bool) (s : State) : (s.engineSck v).env.ticks = s.env.ticks := rfl
@[simp] theorem State.engineSck_env_tickDraws (v : Bool) (s : State) : (s.engineSck v).env.tickDraws = s.env.tickDraws := rfl
@[simp] theorem State.engineSck_env_trace (v : Bool) (s : State) : (s.engineSck v).env.trace = .wire (s.engineSck v).wire :: .line .sck v :: s.env.trace := rfl

@[simp] theorem State.engineMosi_env_target (v : Bool) (s : State) : (s.engineMosi v).env.target = s.env.target.observe s.wire (s.engineMosi v).wire := rfl
@[simp] theorem State.engineMosi_env_miso (v : Bool) (s : State) : (s.engineMosi v).env.miso = s.env.miso := rfl
@[simp] theorem State.engineMosi_env_samples (v : Bool) (s : State) : (s.engineMosi v).env.samples = s.env.samples := rfl
@[simp] theorem State.engineMosi_env_ticks (v : Bool) (s : State) : (s.engineMosi v).env.ticks = s.env.ticks := rfl
@[simp] theorem State.engineMosi_env_tickDraws (v : Bool) (s : State) : (s.engineMosi v).env.tickDraws = s.env.tickDraws := rfl
@[simp] theorem State.engineMosi_env_trace (v : Bool) (s : State) : (s.engineMosi v).env.trace = .wire (s.engineMosi v).wire :: .line .mosi v :: s.env.trace := rfl

@[simp] theorem State.afterSample_env_target (s : State) : (s.afterSample).env.target = s.env.target := rfl
@[simp] theorem State.afterSample_env_miso (s : State) : (s.afterSample).env.miso = (if s.env.asksOracle then s.env.miso.tail else s.env.miso) := rfl
@[simp] theorem State.afterSample_env_samples (s : State) : (s.afterSample).env.samples = s.env.samples + 1 := rfl
@[simp] theorem State.afterSample_env_ticks (s : State) : (s.afterSample).env.ticks = s.env.ticks := rfl
@[simp] theorem State.afterSample_env_tickDraws (s : State) : (s.afterSample).env.tickDraws = s.env.tickDraws := rfl
@[simp] theorem State.afterSample_env_trace (s : State) : (s.afterSample).env.trace = .sample s.sampled :: s.env.trace := rfl

@[simp] theorem State.delayTicks_env_target (n : Tick) (s : State) : (s.delayTicks n).env.target = s.env.target := by simp [State.delayTicks, State.log]
@[simp] theorem State.delayTicks_env_miso (n : Tick) (s : State) : (s.delayTicks n).env.miso = s.env.miso := by simp [State.delayTicks, State.log]
@[simp] theorem State.delayTicks_env_samples (n : Tick) (s : State) : (s.delayTicks n).env.samples = s.env.samples := by simp [State.delayTicks, State.log]
@[simp] theorem State.delayTicks_env_ticks (n : Tick) (s : State) : (s.delayTicks n).env.ticks = spin n s.env.reading s.env.afterTick.ticks := rfl
@[simp] theorem State.delayTicks_env_tickDraws (n : Tick) (s : State) : (s.delayTicks n).env.tickDraws = s.env.afterTick.tickDraws := rfl
@[simp] theorem State.delayTicks_env_trace (n : Tick) (s : State) : (s.delayTicks n).env.trace = .delay n :: s.env.trace := by simp [State.delayTicks, State.log]

@[simp] theorem State.afterTick_env_target (s : State) : (s.afterTick).env.target = s.env.target := by simp [State.afterTick, State.log]
@[simp] theorem State.afterTick_env_miso (s : State) : (s.afterTick).env.miso = s.env.miso := by simp [State.afterTick, State.log]
@[simp] theorem State.afterTick_env_samples (s : State) : (s.afterTick).env.samples = s.env.samples := by simp [State.afterTick, State.log]
@[simp] theorem State.afterTick_env_ticks (s : State) : (s.afterTick).env.ticks = s.env.afterTick.ticks := rfl
@[simp] theorem State.afterTick_env_tickDraws (s : State) : (s.afterTick).env.tickDraws = s.env.afterTick.tickDraws := rfl
@[simp] theorem State.afterTick_env_trace (s : State) : (s.afterTick).env.trace = .tick s.env.reading :: s.env.trace := by simp [State.afterTick, State.log]

@[simp] theorem State.waitUnits_env_target (n : Nat) (s : State) : (s.waitUnits n).env.target = s.env.target :=
  State.waitUnits_keeps (fun t => t.env.target) (fun n s => State.delayTicks_env_target n s) n s
@[simp] theorem State.wait_env_target (n : Nat) (s : State) : (s.wait n).env.target = s.env.target := by simp [State.wait]
@[simp] theorem State.waitUnits_env_miso (n : Nat) (s : State) : (s.waitUnits n).env.miso = s.env.miso :=
  State.waitUnits_keeps (fun t => t.env.miso) (fun n s => State.delayTicks_env_miso n s) n s
@[simp] theorem State.wait_env_miso (n : Nat) (s : State) : (s.wait n).env.miso = s.env.miso := by simp [State.wait]
@[simp] theorem State.waitUnits_env_samples (n : Nat) (s : State) : (s.waitUnits n).env.samples = s.env.samples :=
  State.waitUnits_keeps (fun t => t.env.samples) (fun n s => State.delayTicks_env_samples n s) n s
@[simp] theorem State.wait_env_samples (n : Nat) (s : State) : (s.wait n).env.samples = s.env.samples := by simp [State.wait]

end Sys2Proof.Machine
end

