-- ==== Sys2Proof/Laws/Transport.lean ====
section
/-! SUPPORT. What a byte exchange can do, said once: one lemma for each of TransmitSw, TransmitHw, Transmit and the exchange
of a wire command, with the state after as a record and the log in full. -/

namespace Sys2Proof.Machine

theorem Target.observe_absent {t : Target} (a b : Wire) (h : t = .absent) : t.observe a b = .absent := by subst h; rfl

/-- The bit shifted in is bit 0; the others move up (R103). -/
@[simp] theorem shiftInBit_zero (rx : Byte) (v : Bool) : (shiftInBit rx v).getLsbD 0 = v := by
  cases v <;> simp [shiftInBit]

theorem shiftInBit_succ (rx : Byte) (v : Bool) (k : Nat) (h : k < 7) :
    (shiftInBit rx v).getLsbD (k + 1) = rx.getLsbD k := by
  have : decide (k + 1 < 8) = true := by simpa using by omega
  cases v <;> simp [shiftInBit, this, BitVec.getLsbD_one]

/-- A byte is its eight bits. -/
theorem byte_ext {a b : Byte} (h : ∀ k, k < 8 → a.getLsbD k = b.getLsbD k) : a = b := BitVec.eq_of_getLsbD_eq h

/-! ### The software variant -/

/-- One bit of `TransmitSw` (R101). -/
@[irreducible] def swBit (v : Bool) (s : State) : State :=
  let s1 := s.setLine .mosi v
  let s2 := s1.afterSample.setLine .sck true
  let s3 := (s2.delayTicks s2.swDelay).setLine .sck false
  s3.delayTicks s3.swDelay

/-- The level a bit of `TransmitSw` samples: MOSI is already driven (R101, R102). -/
def swSample (v : Bool) (s : State) : Bool := (s.setLine .mosi v).sampled

theorem swBits_succ (k : Nat) (b rx : Byte) (s : State) :
    swBits (k + 1) b rx s = swBits k b (shiftInBit rx (swSample (b.getLsbD k) s)) (swBit (b.getLsbD k) s) := by
  simp only [swBits, swBit, swSample]

theorem swBit_settles (v : Bool) (s : State) : Settles { s with outSck := false, outMosi := v } (swBit v s) := by
  unfold Settles
  apply State.ext <;> simp [swBit]

theorem swBit_did (v : Bool) (s : State) : Did (bitEvents .sw s.swDelay v (swSample v s)) s (swBit v s) := by
  simp [Did, swBit, bitEvents, swSample]

theorem swBit_swDelay (v : Bool) (s : State) : (swBit v s).swDelay = s.swDelay := by rw [swBit_settles]

theorem swBit_pullup (v : Bool) (s : State) : (swBit v s).pullupMiso = s.pullupMiso := by rw [swBit_settles]

theorem swBit_wf (v : Bool) (s : State) (h : s.env.target.wf = true) : (swBit v s).env.target.wf = true := by
  simp only [swBit, State.delayTicks_env_target, State.setLine_env_target, State.afterSample_env_target]
  exact Target.observe_wf _ _ (Target.observe_wf _ _ (Target.observe_wf _ _ h))

theorem swBit_absent (v : Bool) (s : State) (h : s.env.target = .absent) : (swBit v s).env.target = .absent := by
  simp only [swBit, State.delayTicks_env_target, State.setLine_env_target, State.afterSample_env_target]
  exact Target.observe_absent _ _ (Target.observe_absent _ _ (Target.observe_absent _ _ h))

/-- With nobody driving MISO and the pull-up on, a sample is 1 (R57). -/
theorem sampled_absent {s : State} (h : s.env.target = .absent) (p : s.pullupMiso = true) : s.sampled = true := by
  simp [State.sampled, Env.misoLevel, Env.drive, h, p]

theorem swSample_absent (v : Bool) (s : State) (h : s.env.target = .absent) (p : s.pullupMiso = true) :
    swSample v s = true := by
  have t : (s.setLine .mosi v).env.target = .absent := by
    simp only [State.setLine_env_target]; exact Target.observe_absent _ _ h
  exact sampled_absent t ((State.setLine_pullupMiso _ _ _).trans p)

/-- What every bit keeps, the byte keeps. -/
theorem swBits_keeps {P : State → Prop} (h : ∀ v s, P s → P (swBit v s)) (k : Nat) (b rx : Byte) (s : State) (p : P s) :
    P (swBits k b rx s).2 := by
  induction k generalizing rx s with
  | zero => exact p
  | succ k ih => rw [swBits_succ]; exact ih _ _ (h _ _ p)

theorem swBits_settles (k : Nat) (b rx : Byte) (s : State) :
    Settles { s with outSck := false, outMosi := b.getLsbD 0 } (swBits (k + 1) b rx s).2 := by
  induction k generalizing rx s with
  | zero => rw [swBits_succ]; exact swBit_settles _ s
  | succ k ih =>
    have h := ih (shiftInBit rx (swSample (b.getLsbD (k + 1)) s)) (swBit (b.getLsbD (k + 1)) s)
    obtain ⟨d, e, hd⟩ := (settles_iff _ _).1 (swBit_settles (b.getLsbD (k + 1)) s)
    rw [swBits_succ]
    rw [hd] at h ⊢
    exact (settles_iff _ _).2 ((settles_iff _ _).1 h)

/-- Bits already received move up as the rest come in (R103). -/
theorem swBits_high (k : Nat) (b rx : Byte) (s : State) (j : Nat) (hj : k ≤ j) (h8 : j < 8) :
    (swBits k b rx s).1.getLsbD j = rx.getLsbD (j - k) := by
  induction k generalizing rx s j with
  | zero => rfl
  | succ k ih =>
    rw [swBits_succ, ih _ _ j (by omega) h8]
    obtain ⟨m, rfl⟩ : ∃ m, j = m + (k + 1) := ⟨j - (k + 1), by omega⟩
    rw [show m + (k + 1) - k = m + 1 by omega, shiftInBit_succ _ _ _ (by omega)]
    congr 1; omega

theorem swBits_did (k : Nat) (b rx : Byte) (s : State) (h8 : k ≤ 8) :
    Did ((List.range k).flatMap fun j => bitEvents .sw s.swDelay (b.getLsbD j) ((swBits k b rx s).1.getLsbD j))
      s (swBits k b rx s).2 := by
  induction k generalizing rx s with
  | zero => exact Did.refl s
  | succ k ih =>
    have h := ih (shiftInBit rx (swSample (b.getLsbD k) s)) (swBit (b.getLsbD k) s) (by omega)
    have hk : (swBits (k + 1) b rx s).1.getLsbD k = swSample (b.getLsbD k) s := by
      rw [swBits_succ, swBits_high k _ _ _ k (Nat.le_refl _) (by omega), Nat.sub_self, shiftInBit_zero]
    rw [List.range_succ, List.flatMap_append, List.flatMap_singleton, hk]
    rw [swBit_swDelay] at h
    rw [swBits_succ]
    exact (swBit_did _ s).trans h

/-! ### The hardware variant -/

/-- The level the engine samples: MOSI is driven and SCK is high (R105). -/
def hwSample (v : Bool) (s : State) : Bool := ((s.engineMosi v).engineSck true).sampled

/-- One bit of the engine (R105). -/
@[irreducible] def engineBit (v : Bool) (s : State) : State :=
  let s1 := (s.engineMosi v).engineSck true
  let s2 := { s1.afterSample with engShift := shiftInBit s1.engShift s1.sampled }
  let s3 := s2.engineSck false
  { s3 with engCount := s3.engCount + 1 }

theorem engineBits_succ (k : Nat) (b : Byte) (s : State) :
    engineBits (k + 1) b s = engineBits k b (engineBit (b.getLsbD k) s) := by
  simp only [engineBits, engineBit]

theorem engineBit_state (v : Bool) (s : State) :
    engineBit v s = { s with
      engShift := shiftInBit s.engShift (hwSample v s), engCount := s.engCount + 1, engSck := false, engMosi := v,
      env := (engineBit v s).env } := by
  apply State.ext <;> simp [engineBit, hwSample]

theorem engineBit_did (v : Bool) (s : State) : Did (bitEvents .hw s.swDelay v (hwSample v s)) s (engineBit v s) := by
  simp [Did, engineBit, bitEvents, hwSample]

theorem engineBit_engShift (v : Bool) (s : State) :
    (engineBit v s).engShift = shiftInBit s.engShift (hwSample v s) := by rw [engineBit_state]

theorem engineBit_swDelay (v : Bool) (s : State) : (engineBit v s).swDelay = s.swDelay := by rw [engineBit_state]

theorem engineBit_pullup (v : Bool) (s : State) : (engineBit v s).pullupMiso = s.pullupMiso := by rw [engineBit_state]

theorem engineBit_wf (v : Bool) (s : State) (h : s.env.target.wf = true) : (engineBit v s).env.target.wf = true := by
  simp only [engineBit, State.engineSck_env_target, State.afterSample_env_target, State.engineMosi_env_target]
  exact Target.observe_wf _ _ (Target.observe_wf _ _ (Target.observe_wf _ _ h))

theorem engineBit_absent (v : Bool) (s : State) (h : s.env.target = .absent) : (engineBit v s).env.target = .absent := by
  simp only [engineBit, State.engineSck_env_target, State.afterSample_env_target, State.engineMosi_env_target]
  exact Target.observe_absent _ _ (Target.observe_absent _ _ (Target.observe_absent _ _ h))

theorem hwSample_absent (v : Bool) (s : State) (h : s.env.target = .absent) (p : s.pullupMiso = true) :
    hwSample v s = true := by
  have t : ((s.engineMosi v).engineSck true).env.target = .absent := by
    simp only [State.engineSck_env_target, State.engineMosi_env_target]
    exact Target.observe_absent _ _ (Target.observe_absent _ _ h)
  exact sampled_absent t (by simpa using p)

/-- What every bit of the engine keeps, the transfer keeps. -/
theorem engineBits_keeps {P : State → Prop} (h : ∀ v s, P s → P (engineBit v s)) (k : Nat) (b : Byte) (s : State) (p : P s) :
    P (engineBits k b s) := by
  induction k generalizing s with
  | zero => exact p
  | succ k ih => rw [engineBits_succ]; exact ih _ (h _ _ p)

theorem engineBits_state (k : Nat) (b : Byte) (s : State) :
    engineBits (k + 1) b s = { s with
      engShift := (engineBits (k + 1) b s).engShift, engCount := s.engCount + BitVec.ofNat 3 (k + 1), engSck := false,
      engMosi := b.getLsbD 0, env := (engineBits (k + 1) b s).env } := by
  induction k generalizing s with
  | zero => rw [engineBits_succ, engineBits, engineBit_engShift]; exact engineBit_state _ s
  | succ k ih =>
    have h := ih (engineBit (b.getLsbD (k + 1)) s)
    rw [engineBits_succ]
    have hb := engineBit_state (b.getLsbD (k + 1)) s
    have c : s.engCount + 1 + BitVec.ofNat 3 (k + 1) = s.engCount + BitVec.ofNat 3 (k + 1 + 1) := by
      apply BitVec.eq_of_toNat_eq; simp; omega
    rw [← c]
    generalize engineBits (k + 1) b (engineBit (b.getLsbD (k + 1)) s) = t at h ⊢
    rw [hb] at h
    exact h

theorem engineBits_high (k : Nat) (b : Byte) (s : State) (j : Nat) (hj : k ≤ j) (h8 : j < 8) :
    (engineBits k b s).engShift.getLsbD j = s.engShift.getLsbD (j - k) := by
  induction k generalizing s j with
  | zero => rfl
  | succ k ih =>
    rw [engineBits_succ, ih _ j (by omega) h8]
    obtain ⟨m, rfl⟩ : ∃ m, j = m + (k + 1) := ⟨j - (k + 1), by omega⟩
    rw [show m + (k + 1) - k = m + 1 by omega, engineBit_state]
    exact (shiftInBit_succ _ _ _ (by omega)).trans (by congr 1; omega)

theorem engineBits_did (k : Nat) (b : Byte) (s : State) (h8 : k ≤ 8) :
    Did ((List.range k).flatMap fun j => bitEvents .hw s.swDelay (b.getLsbD j) ((engineBits k b s).engShift.getLsbD j))
      s (engineBits k b s) := by
  induction k generalizing s with
  | zero => exact Did.refl s
  | succ k ih =>
    have h := ih (engineBit (b.getLsbD k) s) (by omega)
    have hk : (engineBits (k + 1) b s).engShift.getLsbD k = hwSample (b.getLsbD k) s := by
      rw [engineBits_succ, engineBits_high k _ _ k (Nat.le_refl _) (by omega), Nat.sub_self, engineBit_state]
      exact shiftInBit_zero _ _
    rw [List.range_succ, List.flatMap_append, List.flatMap_singleton, hk]
    rw [engineBit_swDelay] at h
    rw [engineBits_succ]
    exact (engineBit_did _ s).trans h

/-- The state from which the engine shifts the byte `b` (R105). -/
def engineLoaded (b : Byte) (s : State) : State := { s with data := b, engShift := 0x00, engCount := 0 }

/-- Setting the flag and clearing it leaves a clear flag (R21, R106). -/
theorem withFlag_false_true (st : Byte) : withFlag false (withFlag true st) = withFlag false st := by
  apply byte_ext
  intro k hk
  interval_cases k <;> simp [withFlag]

theorem withFlag_false_false (st : Byte) : withFlag false (withFlag false st) = withFlag false st := by
  apply byte_ext
  intro k hk
  interval_cases k <;> simp [withFlag]

/-- STATUS at rest stays as it was (R19, R21). -/
theorem withFlag_false_rest {st : Byte} (h : statusAtRest st = true) : withFlag false st = st := by
  simp only [statusAtRest, Bool.or_eq_true, decide_eq_true_eq] at h
  rcases h with rfl | rfl <;> rfl

/-- A transfer and the read of DATA as a record (R105, R106). -/
theorem transfer_state (b : Byte) (s : State) :
    (s.transfer b).readData = { afterByte .hw b (s.transfer b).data s with env := (s.transfer b).env } := by
  have h := engineBits_state 7 b (engineLoaded b s)
  have e : (s.transfer b).readData = { engineBits 8 b (engineLoaded b s) with
      data := (engineBits 8 b (engineLoaded b s)).engShift
      status := withFlag false (withFlag true (engineBits 8 b (engineLoaded b s)).status) } := rfl
  have d : (s.transfer b).data = (engineBits 8 b (engineLoaded b s)).engShift := rfl
  have v : (s.transfer b).env = (engineBits 8 b (engineLoaded b s)).env := rfl
  rw [e, d, v, withFlag_false_true]
  generalize (engineBits 8 b (engineLoaded b s)).engShift = x at h ⊢
  generalize (engineBits 8 b (engineLoaded b s)).env = y at h ⊢
  rw [h]
  rfl

/-! ### Transmit -/

/-- Everything a completed `Transmit(b)` that received `r` can do. -/
structure Sent (v : Variant) (b r : Byte) (s t : State) : Prop where
  settles : Settles (afterByte v b r s) t
  did : Did (byteEvents v s.swDelay b r) s t
  delayStart : v = .hw → t.delayStart = s.delayStart
  ticks : v = .hw → t.env.ticks = s.env.ticks ∧ t.env.tickDraws = s.env.tickDraws
  wf : s.env.target.wf = true → t.env.target.wf = true
  absent : s.env.target = .absent → t.env.target = .absent ∧ (s.pullupMiso = true → r = 0xFF)

theorem allOnes_byte {a : Byte} (h : ∀ k, k < 8 → a.getLsbD k = true) : a = 0xFF := by
  apply byte_ext
  intro k hk
  rw [h k hk]
  interval_cases k <;> rfl

theorem swBits_absent (k : Nat) (b rx : Byte) (s : State) (h8 : k ≤ 8) (h : s.env.target = .absent)
    (p : s.pullupMiso = true) (j : Nat) (hj : j < k) : (swBits k b rx s).1.getLsbD j = true := by
  induction k generalizing rx s with
  | zero => omega
  | succ k ih =>
    rw [swBits_succ]
    by_cases e : j = k
    · subst e
      rw [swBits_high j _ _ _ j (Nat.le_refl _) (by omega), Nat.sub_self, shiftInBit_zero, swSample_absent _ _ h p]
    · exact ih _ _ (by omega) (swBit_absent _ _ h) ((swBit_pullup _ _).trans p) (by omega)

theorem engineBits_absent (k : Nat) (b : Byte) (s : State) (h8 : k ≤ 8) (h : s.env.target = .absent)
    (p : s.pullupMiso = true) (j : Nat) (hj : j < k) : (engineBits k b s).engShift.getLsbD j = true := by
  induction k generalizing s with
  | zero => omega
  | succ k ih =>
    rw [engineBits_succ]
    by_cases e : j = k
    · subst e
      rw [engineBits_high j _ _ j (Nat.le_refl _) (by omega), Nat.sub_self, engineBit_state]
      exact (shiftInBit_zero _ _).trans (hwSample_absent _ _ h p)
    · exact ih _ (by omega) (engineBit_absent _ _ h) ((engineBit_pullup _ _).trans p) (by omega)

theorem transmitSw_sent (b : Byte) (s : State) :
    Sent .sw b (transmitSw b s).1 s ((transmitSw b s).2.log (.byte b (transmitSw b s).1)) := by
  have hs : Settles (afterByte .sw b (transmitSw b s).1 s) (transmitSw b s).2 := swBits_settles 7 b 0x00 s
  have hd : Did ((List.range 8).flatMap fun j => bitEvents .sw s.swDelay (b.getLsbD j) ((transmitSw b s).1.getLsbD j)) s
      (transmitSw b s).2 := swBits_did 8 b 0x00 s (Nat.le_refl _)
  have hw : s.env.target.wf = true → (transmitSw b s).2.env.target.wf = true := fun h =>
    swBits_keeps (P := fun t => t.env.target.wf = true) (fun v s => swBit_wf v s) 8 b 0x00 s h
  have ha : s.env.target = .absent → (transmitSw b s).2.env.target = .absent := fun h =>
    swBits_keeps (P := fun t => t.env.target = .absent) (fun v s => swBit_absent v s) 8 b 0x00 s h
  have hp : s.env.target = .absent → s.pullupMiso = true → (transmitSw b s).1 = 0xFF := fun h p =>
    allOnes_byte fun k hk => swBits_absent 8 b 0x00 s (Nat.le_refl _) h p k hk
  generalize transmitSw b s = x at hs hd hw ha hp ⊢
  exact {
    settles := hs.trans (Settles.mk x.2 x.2.delayStart _)
    did := by
      unfold Did at hd ⊢
      simp only [byteEvents, List.cons_append, ← hd, State.log_env_trace, actions_byte]
    delayStart := nofun
    ticks := nofun
    wf := hw
    absent := fun h => ⟨ha h, hp h⟩ }

theorem transfer_sent (b : Byte) (s : State) :
    Sent .hw b (s.transfer b).data s ((s.transfer b).readData.log (.byte b (s.transfer b).data)) where
  settles := by
    rw [transfer_state]
    exact rfl
  did := by
    have h := engineBits_did 8 b (engineLoaded b s) (Nat.le_refl _)
    unfold Did at h ⊢
    simp only [byteEvents, List.cons_append, State.log_env_trace, actions_byte]
    exact congrArg _ h
  delayStart := fun _ => by rw [transfer_state]; rfl
  ticks := fun _ => engineBits_keeps (P := fun t => t.env.ticks = s.env.ticks ∧ t.env.tickDraws = s.env.tickDraws)
    (fun v t h => by simpa [engineBit] using h) 8 b (engineLoaded b s) ⟨rfl, rfl⟩
  wf := fun h => engineBits_keeps (P := fun t => t.env.target.wf = true) (fun v s => engineBit_wf v s) 8 b (engineLoaded b s) h
  absent := fun h =>
    ⟨engineBits_keeps (P := fun t => t.env.target = .absent) (fun v s => engineBit_absent v s) 8 b (engineLoaded b s) h,
    fun p => allOnes_byte fun k hk => engineBits_absent 8 b (engineLoaded b s) (Nat.le_refl _) h p k hk⟩

/-- `Transmit` completes wherever the variant is live (R101, R105). -/
theorem transmit_live {v : Variant} {s : State} (b : Byte) (h : live v s = true) :
    ∃ r t, transmit v b s = .returned r t ∧ Sent v b r s t := by
  cases v with
  | sw => exact ⟨_, _, rfl, transmitSw_sent b s⟩
  | hw =>
    have e : s.engineEnabled = true := h
    exact ⟨_, _, by simp only [transmit, transmitHw, e, if_true, Run.bind], transfer_sent b s⟩

/-- Otherwise the sequencer never leaves the busy-wait (R107). -/
theorem transmit_hung {v : Variant} {s : State} (b : Byte) (h : live v s = false) :
    transmit v b s = .inside { s with data := b, pos := .hung } := by
  cases v with
  | sw => simp [live] at h
  | hw =>
    have e : s.engineEnabled = false := h
    simp [transmit, transmitHw, e, Run.bind]

@[simp] theorem live_afterByte (v : Variant) (u : Variant) (b r : Byte) (s : State) : live v (afterByte u b r s) = live v s := by
  cases v <;> cases u <;> rfl

theorem live_settles {v : Variant} {u t : State} (h : Settles u t) : live v t = live v u := by
  obtain ⟨d, e, rfl⟩ := (settles_iff _ _).1 h
  cases v <;> rfl

theorem Sent.live {v : Variant} {b r : Byte} {s t : State} (h : Sent v b r s t) : Machine.live v t = Machine.live v s :=
  (live_settles h.settles).trans (live_afterByte v v b r s)

theorem Sent.swDelay {v : Variant} {b r : Byte} {s t : State} (h : Sent v b r s t) : t.swDelay = s.swDelay := by
  rw [h.settles]; cases v <;> rfl

theorem Sent.pullup {v : Variant} {b r : Byte} {s t : State} (h : Sent v b r s t) : t.pullupMiso = s.pullupMiso := by
  rw [h.settles]; cases v <;> rfl

theorem afterByte_afterByte (v : Variant) (a x b y : Byte) (s : State) :
    afterByte v b y (afterByte v a x s) = afterByte v b y s := by
  cases v
  · rfl
  · simp [afterByte, withFlag_false_false]

theorem afterByte_settles {v : Variant} {b r : Byte} {u t : State} (h : Settles u t) :
    Settles (afterByte v b r u) (afterByte v b r t) := h.map _ (by cases v <;> intros <;> rfl)

/-- Everything a completed exchange of the wire command `w` with response `r` can do. -/
structure Exchanged (v : Variant) (w : WireWord) (r : Response) (s t : State) : Prop where
  settles : Settles (afterCommand v w r s) t
  did : Did (commandEvents v s.swDelay w r) s t
  delayStart : v = .hw → t.delayStart = s.delayStart
  ticks : v = .hw → t.env.ticks = s.env.ticks ∧ t.env.tickDraws = s.env.tickDraws
  wf : s.env.target.wf = true → t.env.target.wf = true
  absent : s.env.target = .absent → t.env.target = .absent ∧ (s.pullupMiso = true → r = ⟨0xFF, 0xFF, 0xFF, 0xFF⟩)

theorem exchange_live {v : Variant} {s : State} (w : WireWord) (h : live v s = true) :
    ∃ r t, exchange v w s = .returned r t ∧ Exchanged v w r s t := by
  obtain ⟨r1, s1, e1, h1⟩ := transmit_live (wireByte w 0) h
  have l1 := h1.live.trans h
  obtain ⟨r2, s2, e2, h2⟩ := transmit_live (wireByte w 1) l1
  have l2 := h2.live.trans l1
  obtain ⟨r3, s3, e3, h3⟩ := transmit_live (wireByte w 2) l2
  have l3 := h3.live.trans l2
  obtain ⟨r4, s4, e4, h4⟩ := transmit_live (wireByte w 3) l3
  have d2 := h1.swDelay
  have d3 := h2.swDelay.trans d2
  have d4 := h3.swDelay.trans d3
  refine ⟨⟨r1, r2, r3, r4⟩, { s4 with resp := ⟨r1, r2, r3, r4⟩ }, by simp [exchange, Run.bind, e1, e2, e3, e4], ?_⟩
  exact {
    settles := by
      have q : Settles (afterByte v (wireByte w 3) r4 s) s4 := by
        have q2 := (afterByte_settles (b := wireByte w 1) (r := r2) h1.settles).trans h2.settles
        rw [afterByte_afterByte] at q2
        have q3 := (afterByte_settles (b := wireByte w 2) (r := r3) q2).trans h3.settles
        rw [afterByte_afterByte] at q3
        have q4 := (afterByte_settles (b := wireByte w 3) (r := r4) q3).trans h4.settles
        rw [afterByte_afterByte] at q4
        exact q4
      exact q.map (fun u => { u with resp := ⟨r1, r2, r3, r4⟩ }) (fun _ _ _ => rfl)
    did := by
      have a1 := h1.did
      have a2 := h2.did
      have a3 := h3.did
      have a4 := h4.did
      rw [d2] at a2
      rw [d3] at a3
      rw [d4] at a4
      have := ((a1.trans a2).trans a3).trans a4
      simp only [commandEvents, List.append_assoc]
      exact this
    delayStart := fun hv => by simp [h4.delayStart hv, h3.delayStart hv, h2.delayStart hv, h1.delayStart hv]
    ticks := fun hv => ⟨by simp [(h4.ticks hv).1, (h3.ticks hv).1, (h2.ticks hv).1, (h1.ticks hv).1],
      by simp [(h4.ticks hv).2, (h3.ticks hv).2, (h2.ticks hv).2, (h1.ticks hv).2]⟩
    wf := fun k => h4.wf (h3.wf (h2.wf (h1.wf k)))
    absent := fun k => by
      have b1 := h1.absent k
      have b2 := h2.absent b1.1
      have b3 := h3.absent b2.1
      have b4 := h4.absent b3.1
      refine ⟨b4.1, fun p => ?_⟩
      have p1 := h1.pullup.trans p
      have p2 := h2.pullup.trans p1
      have p3 := h3.pullup.trans p2
      rw [b1.2 p, b2.2 p1, b3.2 p2, b4.2 p3] }

theorem exchange_hung {v : Variant} {s : State} (w : WireWord) (h : live v s = false) :
    exchange v w s = .inside { s with data := wireByte w 0, pos := .hung } := by
  simp [exchange, transmit_hung _ h, Run.bind]

@[simp] theorem live_afterCommand (v u : Variant) (w : WireWord) (r : Response) (s : State) :
    live v (afterCommand u w r s) = live v s := by cases v <;> cases u <;> rfl

theorem Exchanged.live {v : Variant} {w : WireWord} {r : Response} {s t : State} (h : Exchanged v w r s t) :
    Machine.live v t = Machine.live v s := (live_settles h.settles).trans (live_afterCommand v v w r s)

end Sys2Proof.Machine
end

