-- ==== Sys2Proof/Laws/Operations.lean ====
section
/-! SUPPORT. One lemma for each operation over the transport: runs and their issue, the waits and the pulse, the Address
Tracker, the flash commands and the poll iteration. -/

namespace Sys2Proof.Machine

/-! ### Runs and issue -/

@[simp] theorem Run.bind_returned {α β : Type} (a : α) (s : State) (f : α → State → Run β) :
    (Run.returned a s).bind f = f a s := rfl

@[simp] theorem Run.bind_inside {α β : Type} (s : State) (f : α → State → Run β) : (Run.inside s).bind f = .inside s := rfl

@[simp] theorem Run.finish_returned (v : Byte) (s : State) : (Run.returned v s).finish = returnedWith v s := rfl

@[simp] theorem Run.finish_inside (s : State) : (Run.inside s : Run Byte).finish = s := rfl

@[simp] theorem Run.finishWire_returned (r : Response) (s : State) :
    (Run.returned r s).finishWire = { s with busy := false, pos := .idle } := rfl

@[simp] theorem Run.finishWire_inside (s : State) : (Run.inside s : Run Response).finishWire = s := rfl

theorem issueLocal_idle (op : State → Run Byte) {s : State} (h : s.busy = false) :
    issueLocal op s = .next (op { s with busy := true }).finish := by simp [issueLocal, h]

theorem issueTransmitting_bound (op : Variant → State → Run Byte) {s : State} {v : Variant} (h : s.busy = false)
    (hv : xportVariant s.xport = some v) :
    issueTransmitting op s = .next (op v { s with busy := true }).finish := by simp [issueTransmitting, h, hv]

theorem issueWire_bound (op : Variant → State → Run Response) {s : State} {v : Variant} (h : s.busy = false)
    (hv : xportVariant s.xport = some v) :
    issueWire op s = .next (op v { s with busy := true }).finishWire := by simp [issueWire, h, hv]

theorem issueTransmitting_unbound (op : Variant → State → Run Byte) {s : State} (h : s.busy = false) (hx : s.xport = .none) :
    issueTransmitting op s = .refused .transmitUnbound := by simp [issueTransmitting, h, hx, xportVariant]

theorem issueWire_unbound (op : Variant → State → Run Response) {s : State} (h : s.busy = false) (hx : s.xport = .none) :
    issueWire op s = .refused .transmitUnbound := by simp [issueWire, h, hx, xportVariant]

/-- A bound variant that completes its transfers names `xport`. -/
theorem ready_variant {s : State} (h : ready s = true) : ∃ v, xportVariant s.xport = some v ∧ live v s = true := by
  unfold ready at h
  split at h
  · cases h
  · exact ⟨_, ‹_›, h⟩

theorem ready_of_live {s : State} {v : Variant} (h : xportVariant s.xport = some v) (l : live v s = true) :
    ready s = true := by unfold ready; rw [h]; exact l

/-! ### What the target keeps -/

/-- The target's memories stay in canonical form, and an absent target stays absent. -/
structure TargetKept (s t : State) : Prop where
  wf : s.env.target.wf = true → t.env.target.wf = true
  absent : s.env.target = .absent → t.env.target = .absent

theorem TargetKept.refl (s : State) : TargetKept s s := ⟨id, id⟩

theorem TargetKept.trans {s t u : State} (h : TargetKept s t) (k : TargetKept t u) : TargetKept s u :=
  ⟨fun w => k.wf (h.wf w), fun w => k.absent (h.absent w)⟩

theorem TargetKept.of_observe {s t : State} (a b : Wire) (h : t.env.target = s.env.target.observe a b) : TargetKept s t :=
  ⟨fun w => h ▸ Target.observe_wf a b w, fun w => h ▸ Target.observe_absent a b w⟩

theorem TargetKept.of_eq {s t : State} (h : t.env.target = s.env.target) : TargetKept s t := ⟨fun w => h ▸ w, fun w => h ▸ w⟩

/-! ### Single writes of the link -/

theorem setLine_rst_settles (v : Bool) (s : State) : Settles { s with outRst := v } (s.setLine .rst v) := by
  unfold Settles
  apply State.ext <;> simp

theorem setLine_did (l : Line) (v : Bool) (s : State) : Did [.line l v] s (s.setLine l v) := by simp [Did]

theorem setLine_target (l : Line) (v : Bool) (s : State) : TargetKept s (s.setLine l v) :=
  .of_observe _ _ (State.setLine_env_target l v s)

theorem setOut_did (l : Line) (v : Bool) (s : State) : Did [] s (s.setOut l v) := by simp [Did]

theorem setOut_target (l : Line) (v : Bool) (s : State) : TargetKept s (s.setOut l v) :=
  .of_observe _ _ (State.setOut_env_target l v s)

theorem setDir_did (l : Line) (v : Bool) (s : State) : Did [] s (s.setDir l v) := by simp [Did]

theorem setDir_target (l : Line) (v : Bool) (s : State) : TargetKept s (s.setDir l v) :=
  .of_observe _ _ (State.setDir_env_target l v s)

theorem setCtrl_settles (c : Byte) (s : State) : Settles { s with ctrl := c } (s.setCtrl c) := by
  unfold Settles
  apply State.ext <;> simp

theorem setCtrl_did (c : Byte) (s : State) : Did [] s (s.setCtrl c) := by simp [Did]

theorem setCtrl_target (c : Byte) (s : State) : TargetKept s (s.setCtrl c) := .of_observe _ _ (State.setCtrl_env_target c s)

/-! ### Waits and the pulse -/

theorem delayTicks_settles (n : Tick) (s : State) : Settles s (s.delayTicks n) := by
  unfold Settles
  apply State.ext <;> simp

theorem waitUnits_settles (n : Nat) (s : State) : Settles s (s.waitUnits n) := by
  induction n generalizing s with
  | zero => exact Settles.refl s
  | succ n ih => exact (delayTicks_settles _ s).trans (ih _)

theorem waitUnits_did (n : Nat) (s : State) : Did (List.replicate n (.delay params.unitTicks)) s (s.waitUnits n) := by
  induction n generalizing s with
  | zero => exact Did.refl s
  | succ n ih =>
    have h : Did [.delay params.unitTicks] s (s.delayTicks params.unitTicks) := by simp [Did]
    have k := h.trans (ih (s.delayTicks params.unitTicks))
    rw [List.replicate_succ']
    exact k

theorem wait_settles (n : Nat) (s : State) : Settles s (s.wait n) :=
  (show Settles s (s.log (.wait n)) from rfl).trans (waitUnits_settles n _)

theorem wait_did (n : Nat) (s : State) : Did (waitEvents n) s (s.wait n) :=
  (show Did [.wait n] s (s.log (.wait n)) from rfl).trans (waitUnits_did n _)

theorem wait_target (n : Nat) (s : State) : TargetKept s (s.wait n) := .of_eq (State.wait_env_target n s)

theorem pulseReset_settles (s : State) : Settles { s with outRst := false } s.pulseReset := by
  have h := (setLine_rst_settles true s).trans (wait_settles params.resetPulseUnits _)
  exact (h.map (fun t => { t with outRst := false }) (fun _ _ _ => rfl)).trans (setLine_rst_settles false _)

theorem pulseReset_did (s : State) : Did pulseEvents s s.pulseReset :=
  ((setLine_did .rst true s).trans (wait_did params.resetPulseUnits _)).trans (setLine_did .rst false _)

theorem pulseReset_target (s : State) : TargetKept s s.pulseReset :=
  ((setLine_target .rst true s).trans (wait_target params.resetPulseUnits _)).trans (setLine_target .rst false _)

/-! ### The Address Tracker and the flash commands -/

theorem Exchanged.target {v : Variant} {w : WireWord} {r : Response} {s t : State} (h : Exchanged v w r s t) :
    TargetKept s t := ⟨h.wf, fun k => (h.absent k).1⟩

theorem afterCommand_afterCommand (v : Variant) (w w' : WireWord) (r r' : Response) (s : State) :
    afterCommand v w r (afterCommand v w' r' s) = afterCommand v w r s := by
  cases v
  · rfl
  · simp [afterCommand, afterByte, withFlag_false_false]

theorem afterCommand_settles {v : Variant} {w : WireWord} {r : Response} {u t : State} (h : Settles u t) :
    Settles (afterCommand v w r u) (afterCommand v w r t) := h.map _ (by cases v <;> intros <;> rfl)

/-- Everything a completed flash command can do (R164). -/
structure FlashSent (v : Variant) (address : FlashAddr) (w : WireWord) (load r : Response) (s t : State) : Prop where
  settles : Settles (afterFlash v address w r s) t
  did : Did (flashEvents v s.swDelay s.hiaddr address load w r) s t
  delayStart : v = .hw → t.delayStart = s.delayStart
  ticks : v = .hw → t.env.ticks = s.env.ticks ∧ t.env.tickDraws = s.env.tickDraws
  wf : s.env.target.wf = true → t.env.target.wf = true
  absent : s.env.target = .absent → t.env.target = .absent ∧ (s.pullupMiso = true → r = ⟨0xFF, 0xFF, 0xFF, 0xFF⟩)

theorem live_hiaddr {v : Variant} {s : State} (h : Byte) : live v { s with hiaddr := h } = live v s := by cases v <;> rfl

theorem Exchanged.swDelay {v : Variant} {w : WireWord} {r : Response} {s t : State} (h : Exchanged v w r s t) :
    t.swDelay = s.swDelay := by rw [h.settles]; cases v <;> rfl

theorem Exchanged.pullup {v : Variant} {w : WireWord} {r : Response} {s t : State} (h : Exchanged v w r s t) :
    t.pullupMiso = s.pullupMiso := by rw [h.settles]; cases v <;> rfl

theorem flashCommand_live {v : Variant} {s : State} (address : FlashAddr) (w : WireWord) (h : live v s = true) :
    ∃ load r t, flashCommand v address w s = .returned r t ∧ FlashSent v address w load r s t := by
  by_cases e : extByte address = s.hiaddr
  · obtain ⟨r, t, ht, st⟩ := exchange_live w h
    refine ⟨⟨0, 0, 0, 0⟩, r, t, by simp [flashCommand, updateExtended, e, ht], ?_⟩
    have es : ({ s with hiaddr := extByte address } : State) = s := by rw [e]
    exact {
      settles := by rw [afterFlash, es]; exact st.settles
      did := by simpa [flashEvents, e] using st.did
      delayStart := st.delayStart
      ticks := st.ticks
      wf := st.wf
      absent := st.absent }
  · obtain ⟨r0, u, hu, su⟩ := exchange_live (s := { s with hiaddr := extByte address }) (loadExtWord (extByte address))
      ((live_hiaddr _).trans h)
    obtain ⟨r, t, ht, st⟩ := exchange_live w (su.live.trans ((live_hiaddr _).trans h))
    refine ⟨r0, r, t, by simp [flashCommand, updateExtended, e, loadExtended, hu, ht], ?_⟩
    have hd := su.swDelay
    exact {
      settles := by
        have k := (afterCommand_settles (v := v) (w := w) (r := r) su.settles).trans st.settles
        rwa [afterCommand_afterCommand] at k
      did := by
        have a := st.did
        rw [hd] at a
        have k := su.did.trans a
        simp only [flashEvents, if_neg e]
        exact k
      delayStart := fun hv => (st.delayStart hv).trans (su.delayStart hv)
      ticks := fun hv => ⟨(st.ticks hv).1.trans (su.ticks hv).1, (st.ticks hv).2.trans (su.ticks hv).2⟩
      wf := fun k => st.wf (su.wf k)
      absent := fun k => ⟨(st.absent (su.absent k).1).1, fun p => (st.absent (su.absent k).1).2 (su.pullup.trans p)⟩ }

/-- A flash command from a state that is not live: the cache is written, DATA holds the first byte, nothing returns (R160,
R107). -/
theorem flashCommand_hung {v : Variant} {s : State} (address : FlashAddr) (w : WireWord) (h : live v s = false) :
    flashCommand v address w s = .inside { s with
      hiaddr := extByte address
      data := if extByte address = s.hiaddr then wireByte w 0 else 0x4D
      pos := .hung } := by
  by_cases e : extByte address = s.hiaddr
  · simp [flashCommand, updateExtended, e, exchange_hung _ h]
  · have hw : wireByte (loadExtWord (extByte address)) 0 = 0x4D := wireByte_wireWord_0 _ _ _ _
    simp only [flashCommand, updateExtended, if_neg e, loadExtended, exchange_hung _ ((live_hiaddr _).trans h), hw,
      Run.bind_inside]

theorem readFlash_live {v : Variant} {s : State} (address : FlashAddr) (h : live v s = true) :
    ∃ load r t, readFlash v address s = .returned r.r4 t ∧ FlashSent v address (readFlashWord address) load r s t := by
  obtain ⟨load, r, t, ht, st⟩ := flashCommand_live address (readFlashWord address) h
  exact ⟨load, r, t, by simp [readFlash, ht], st⟩

/-! ### The poll iteration -/

theorem afterTick_settles (s : State) : Settles s s.afterTick := by
  unfold Settles
  apply State.ext <;> simp

theorem afterTick_did (s : State) : Did [.tick s.env.reading] s s.afterTick := by simp [Did]

theorem windowTest_inside {s : State} (h : ¬ params.unitTicks < elapsed s.env.reading s.winStart) :
    windowTest s = s.afterTick := by simp [windowTest, h]

theorem windowTest_elapsed {s : State} (h : params.unitTicks < elapsed s.env.reading s.winStart) :
    windowTest s = { s.afterTick.afterTick with winStart := s.afterTick.env.reading, retries := s.retries - 1 } := by
  simp [windowTest, h]

theorem FlashSent.winStart {v : Variant} {a : FlashAddr} {w : WireWord} {l r : Response} {s t : State}
    (h : FlashSent v a w l r s t) : t.winStart = s.winStart := by rw [h.settles]; cases v <;> rfl

theorem FlashSent.retries {v : Variant} {a : FlashAddr} {w : WireWord} {l r : Response} {s t : State}
    (h : FlashSent v a w l r s t) : t.retries = s.retries := by rw [h.settles]; cases v <;> rfl

theorem FlashSent.live {v : Variant} {a : FlashAddr} {w : WireWord} {l r : Response} {s t : State}
    (h : FlashSent v a w l r s t) : Machine.live v t = Machine.live v s :=
  (live_settles h.settles).trans ((live_afterCommand _ _ _ _ _).trans (live_hiaddr _))

/-- One iteration of the poll loop from a live state with a budget left (R176). -/
theorem pollIteration_live {v : Variant} {s : State} (address : FlashAddr) (marker : Byte) (h : live v s = true)
    (hr : s.retries ≠ 0) : PollIterated v address marker s (pollIteration v address marker s).finish := by
  obtain ⟨load, r, t, ht, st⟩ := readFlash_live address h
  refine ⟨load, r, ?_⟩
  by_cases hm : r.r4 = marker
  · right
    by_cases hw : params.unitTicks < elapsed t.env.reading t.winStart
    · right
      have ew : params.unitTicks < elapsed t.env.reading s.winStart := by rw [← st.winStart]; exact hw
      have sw := (afterTick_settles t).trans (afterTick_settles t.afterTick)
      have dw := (st.did.trans (afterTick_did t)).trans (afterTick_did t.afterTick)
      have key := (st.settles.trans sw)
      by_cases h1 : s.retries = 1
      · right
        refine ⟨hm, t.env.reading, t.afterTick.env.reading, ew, h1, ?_⟩
        have hz : t.retries - 1 = 0 := by rw [st.retries, h1]; rfl
        have e : (pollIteration v address marker s).finish = returnedWith 1
            { t.afterTick.afterTick with winStart := t.afterTick.env.reading, retries := 0 } := by
          simp only [pollIteration, if_neg hr, ht, Run.bind_returned, hm, ne_eq, not_true_eq_false, if_false,
            windowTest_elapsed hw, hz, if_true, Run.finish_returned]
        rw [e]
        exact ⟨key.map (fun u => returnedWith 1 { u with winStart := t.afterTick.env.reading, retries := 0 })
          (fun _ _ _ => rfl), dw⟩
      · left
        refine ⟨hm, t.env.reading, t.afterTick.env.reading, ew, h1, ?_⟩
        have hz : t.retries - 1 ≠ 0 := by
          rw [st.retries]; intro k; apply h1
          apply BitVec.eq_of_toNat_eq
          have k' := congrArg BitVec.toNat k
          have h0 : s.retries.toNat ≠ 0 := fun z => hr (BitVec.eq_of_toNat_eq z)
          simp at k' ⊢
          omega
        have e : (pollIteration v address marker s).finish =
            { t.afterTick.afterTick with
              winStart := t.afterTick.env.reading, retries := t.retries - 1, pos := .polling address marker } := by
          simp only [pollIteration, if_neg hr, ht, Run.bind_returned, hm, ne_eq, not_true_eq_false, if_false,
            windowTest_elapsed hw, hz, Run.finish_inside]
        rw [e, st.retries]
        exact ⟨key.map (fun u => { u with
            winStart := t.afterTick.env.reading, retries := s.retries - 1, pos := .polling address marker })
          (fun _ _ _ => rfl), dw⟩
    · left
      have hz : t.afterTick.retries ≠ 0 := by rw [State.afterTick_retries, st.retries]; exact hr
      refine ⟨hm, t.env.reading, by rw [← st.winStart]; exact hw, ?_⟩
      have e : (pollIteration v address marker s).finish = { t.afterTick with pos := .polling address marker } := by
        simp only [pollIteration, if_neg hr, ht, Run.bind_returned, hm, ne_eq, not_true_eq_false, if_false,
          windowTest_inside hw, if_neg hz, Run.finish_inside]
      rw [e]
      exact ⟨(st.settles.trans (afterTick_settles t)).map (fun u => { u with pos := .polling address marker })
        (fun _ _ _ => rfl), st.did.trans (afterTick_did t)⟩
  · left
    have e : (pollIteration v address marker s).finish = returnedWith 0 t := by
      simp only [pollIteration, if_neg hr, ht, Run.bind_returned, ne_eq, hm, not_false_eq_true, if_true, Run.finish_returned]
    rw [e]
    exact ⟨hm, st.settles.map (returnedWith 0) (fun _ _ _ => rfl), st.did⟩

/-- The target after one poll iteration. -/
theorem pollIteration_target {v : Variant} {s : State} (address : FlashAddr) (marker : Byte) (h : live v s = true) :
    TargetKept s (pollIteration v address marker s).finish := by
  by_cases hr : s.retries = 0
  · simp only [pollIteration, if_pos hr, Run.finish_returned]; exact TargetKept.of_eq rfl
  · obtain ⟨load, r, t, ht, st⟩ := readFlash_live address h
    have k : TargetKept s t := ⟨st.wf, fun a => (st.absent a).1⟩
    have kt : ∀ u : State, TargetKept u u.afterTick := fun u => .of_eq (State.afterTick_env_target u)
    have kw : TargetKept t (windowTest t) := by
      unfold windowTest
      split
      · exact ((kt t).trans (kt t.afterTick)).trans (.of_eq rfl)
      · exact kt t
    simp only [pollIteration, if_neg hr, ht, Run.bind_returned]
    split
    · exact k.trans (.of_eq rfl)
    · split
      · exact (k.trans kw).trans (.of_eq rfl)
      · exact (k.trans kw).trans (.of_eq rfl)

end Sys2Proof.Machine
end

