-- ==== Sys2Proof/Laws/Session.lean ====
section
/-! SUPPORT. SetSpeed, connect, disconnect and the handshake: what each can do, said once. -/

namespace Sys2Proof.Machine

/-! ### SetSpeed -/

theorem setSetting_hardware {o : Setting} {row : HwRow} (h : isHardware o = true) (hr : hwRow o = some row) (s : State) :
    Settles (boundHardware o row.presc row.dbl s) (setSetting o s) := by
  simp only [setSetting, h, if_true, hr, bindHardware]
  exact (setCtrl_settles _ _).map (fun t => { t with speed := o }) (fun _ _ _ => rfl)

theorem setSetting_software {o : Setting} (h : isHardware o = false) (s : State) :
    Settles (boundSoftware o (softwareDelay o) s) (setSetting o s) := by
  simp only [setSetting, h, Bool.false_eq_true, if_false, bindSoftware]
  exact (setCtrl_settles _ _).map (fun t => { t with speed := o }) (fun _ _ _ => rfl)

theorem setSetting_did (o : Setting) (s : State) : Did [] s (setSetting o s) := by
  unfold setSetting
  split
  · split
    · exact setCtrl_did _ _
    · exact Did.refl s
  · exact setCtrl_did _ _

theorem setSetting_target (o : Setting) (s : State) : TargetKept s (setSetting o s) := by
  unfold setSetting
  split
  · split
    · exact .of_observe _ _ rfl
    · exact TargetKept.refl s
  · exact .of_observe _ _ rfl

/-- Every hardware setting up to 12 has its row (R63). -/
theorem hwRow_some {o : Setting} (h : isHardware o = true) (k : o.toNat ≤ 12) : ∃ row, hwRow o = some row := by
  have key : ∀ o : Setting, isHardware o = true → o.toNat ≤ 12 → (hwRow o).isSome = true := by decide
  exact Option.isSome_iff_exists.1 (key o h k)

/-- A setting binds its variant (R61, R13). -/
theorem setSetting_variant {o : Setting} (k : o.toNat ≤ 12) (s : State) :
    xportVariant (setSetting o s).xport = some (settingVariant o) := by
  by_cases h : isHardware o = true
  · obtain ⟨row, hr⟩ := hwRow_some h k
    rw [setSetting_hardware h hr s]
    simp [boundHardware, xportVariant, settingVariant, h]
  · have h' : isHardware o = false := by simpa using h
    rw [setSetting_software h' s]
    simp [boundSoftware, xportVariant, settingVariant, h']

theorem ctrlEnabled_live (p : BitVec 2) : (ctrlEn (ctrlEnabled p) && ctrlMstr (ctrlEnabled p)) = true := by
  revert p; decide

theorem setSetting_live {o : Setting} (k : o.toNat ≤ 12) (s : State) : live (settingVariant o) (setSetting o s) = true := by
  by_cases h : isHardware o = true
  · obtain ⟨row, hr⟩ := hwRow_some h k
    rw [setSetting_hardware h hr s]
    simp only [settingVariant, h, if_true, live, State.engineEnabled, boundHardware]
    exact ctrlEnabled_live row.presc
  · simp [settingVariant, h, live]

theorem statusDbl_withDbl (v : Bool) (st : Byte) : statusDbl (withDbl v st) = v := by
  cases v <;> simp [statusDbl, withDbl]

/-- What is bound is what `speed` says (R13, R92, R93, R95). -/
theorem setSetting_bound {o : Setting} (k : o.toNat ≤ 12) (s : State) : speedBoundTo (setSetting o s) = true := by
  by_cases h : isHardware o = true
  · obtain ⟨row, hr⟩ := hwRow_some h k
    rw [setSetting_hardware h hr s]
    simp [speedBoundTo, boundHardware, h, hr, statusDbl_withDbl, ctrlEnabled, params]
  · have h' : isHardware o = false := by simpa using h
    rw [setSetting_software h' s]
    simp [speedBoundTo, boundSoftware, h']

theorem mapAuto_of_ne {o : Setting} (h : o ≠ 0) : mapAuto o = o := if_neg h

theorem mapAuto_le {o : Setting} (k : o.toNat ≤ 12) : (mapAuto o).toNat ≤ 12 := by revert k; revert o; decide

theorem withDbl_rest {st : Byte} (v : Bool) (h : statusAtRest st = true) : statusAtRest (withDbl v st) = true := by
  simp only [statusAtRest, Bool.or_eq_true, decide_eq_true_eq] at h
  rcases h with rfl | rfl <;> cases v <;> rfl

/-! ### connect and disconnect -/

theorem connect_settles (s : State) : Settles (connected s) (connect s) := by
  let t : State :=
    { (((((s.setOut .rst false).setOut .sck false).setDir .rst true).setDir .sck true).setDir .mosi true) with
      pullupMiso := true }
  have h : Settles { s with
      outRst := false, outSck := false, dirRst := true, dirSck := true, dirMosi := true, pullupMiso := true } t := by
    unfold Settles
    apply State.ext <;> simp [t]
  have k := (h.map (fun u => { u with outRst := false }) (fun _ _ _ => rfl)).trans (pulseReset_settles t)
  exact k.map (fun u => { u with hiaddr := params.hiaddrSentinel }) (fun _ _ _ => rfl)

theorem connect_did (s : State) : Did pulseEvents s (connect s) := by
  let t : State :=
    { (((((s.setOut .rst false).setOut .sck false).setDir .rst true).setDir .sck true).setDir .mosi true) with
      pullupMiso := true }
  have h : Did [] s t := by simp [Did, t]
  have k := h.trans (pulseReset_did t)
  rw [List.append_nil] at k
  exact k

theorem connect_target (s : State) : TargetKept s (connect s) := by
  let t : State :=
    { (((((s.setOut .rst false).setOut .sck false).setDir .rst true).setDir .sck true).setDir .mosi true) with
      pullupMiso := true }
  have h := ((((setOut_target .rst false s).trans (setOut_target .sck false _)).trans (setDir_target .rst true _)).trans
    (setDir_target .sck true _)).trans (setDir_target .mosi true _)
  have k : TargetKept s t := ⟨h.wf, h.absent⟩
  have l := k.trans (pulseReset_target t)
  exact ⟨l.wf, l.absent⟩

theorem disconnect_settles (s : State) : Settles (disconnected s) (disconnect s) := by
  unfold Settles
  apply State.ext <;> simp [disconnect, disconnected, State.disableHw, ctrlDisabled, params]

theorem disconnect_did (s : State) : Did [] s (disconnect s) := by
  simp [Did, disconnect, State.disableHw]

theorem disconnect_target (s : State) : TargetKept s (disconnect s) := by
  let t : State :=
    { ((((((s.setDir .rst false).setDir .sck false).setDir .mosi false).setOut .rst false).setOut .sck false).setOut .mosi
        false) with pullupMiso := false }
  have h := ((((setDir_target .rst false s).trans (setDir_target .sck false _)).trans (setDir_target .mosi false _)).trans
    (setOut_target .rst false _)).trans ((setOut_target .sck false _).trans (setOut_target .mosi false _))
  have k : TargetKept s t := ⟨h.wf, h.absent⟩
  have l := k.trans (setCtrl_target ctrlDisabled t)
  exact ⟨l.wf, l.absent⟩

end Sys2Proof.Machine
end

