-- ==== Sys2Proof/Laws/Handshake.lean ====
section
/-! SUPPORT. The handshake, said once: one try, the tries at one speed, the loop over the speeds. -/

namespace Sys2Proof.Machine

/-- What no try touches. -/
structure TryFrame (s t : State) : Prop where
  hiaddr : t.hiaddr = s.hiaddr
  dirRst : t.dirRst = s.dirRst
  dirSck : t.dirSck = s.dirSck
  dirMosi : t.dirMosi = s.dirMosi
  pullupMiso : t.pullupMiso = s.pullupMiso
  retries : t.retries = s.retries
  winStart : t.winStart = s.winStart
  busy : t.busy = s.busy
  rc : t.rc = s.rc
  cmd : t.cmd = s.cmd
  pos : t.pos = s.pos
  host : t.host = s.host
  outRst : s.outRst = false → t.outRst = false
  outSck : s.outSck = false → t.outSck = false
  engSck : s.engSck = false → t.engSck = false
  engCount : s.engCount = 0 → t.engCount = 0
  rest : statusAtRest s.status = true → statusAtRest t.status = true
  target : TargetKept s t

theorem TryFrame.refl (s : State) : TryFrame s s := by
  constructor <;> first | rfl | exact TargetKept.refl s | exact fun h => h

theorem TryFrame.trans {s t u : State} (h : TryFrame s t) (k : TryFrame t u) : TryFrame s u where
  hiaddr := k.hiaddr.trans h.hiaddr
  dirRst := k.dirRst.trans h.dirRst
  dirSck := k.dirSck.trans h.dirSck
  dirMosi := k.dirMosi.trans h.dirMosi
  pullupMiso := k.pullupMiso.trans h.pullupMiso
  retries := k.retries.trans h.retries
  winStart := k.winStart.trans h.winStart
  busy := k.busy.trans h.busy
  rc := k.rc.trans h.rc
  cmd := k.cmd.trans h.cmd
  pos := k.pos.trans h.pos
  host := k.host.trans h.host
  outRst := fun w => k.outRst (h.outRst w)
  outSck := fun w => k.outSck (h.outSck w)
  engSck := fun w => k.engSck (h.engSck w)
  engCount := fun w => k.engCount (h.engCount w)
  rest := fun w => k.rest (h.rest w)
  target := h.target.trans k.target

/-- What is bound stays bound through the tries at one speed (R141, R145). -/
structure BoundKept (s t : State) : Prop where
  speed : t.speed = s.speed
  xport : t.xport = s.xport
  swDelay : t.swDelay = s.swDelay
  ctrl : t.ctrl = s.ctrl
  dbl : statusDbl t.status = statusDbl s.status

theorem BoundKept.trans {s t u : State} (h : BoundKept s t) (k : BoundKept t u) : BoundKept s u :=
  ⟨k.speed.trans h.speed, k.xport.trans h.xport, k.swDelay.trans h.swDelay, k.ctrl.trans h.ctrl, k.dbl.trans h.dbl⟩

theorem BoundKept.refl (s : State) : BoundKept s s := ⟨rfl, rfl, rfl, rfl, rfl⟩

theorem BoundKept.bound {s t : State} (h : BoundKept s t) : speedBoundTo t = speedBoundTo s := by
  unfold speedBoundTo
  rw [h.speed, h.xport, h.swDelay, h.ctrl, h.dbl]

theorem BoundKept.live {v : Variant} {s t : State} (h : BoundKept s t) : Machine.live v t = Machine.live v s := by
  cases v <;> simp [Machine.live, State.engineEnabled, h.ctrl]

theorem statusDbl_withFlag (st : Byte) : statusDbl (withFlag false st) = statusDbl st := by
  simp [statusDbl, withFlag]

/-- One try (R139): exactly one pulse, one settle wait and the four bytes, in that order. -/
theorem handshakeTry_live {v : Variant} {s : State} (h : live v s = true) :
    ∃ r t, handshakeTry v s = .returned r t ∧ TryFrame s t ∧ BoundKept s t ∧ t.outRst = false ∧ t.tries = s.tries ∧
      byteTrace t.env.trace = tryTrace r ++ byteTrace s.env.trace ∧
      (s.env.target = .absent → s.pullupMiso = true → r = ⟨0xFF, 0xFF, 0xFF, 0xFF⟩) := by
  let u : State := { s with hsState := .tryHandshake }
  have hs : Settles { u with outRst := false } (u.pulseReset.wait params.settleUnits) :=
    (pulseReset_settles u).trans (wait_settles _ _)
  have hd : Did (waitEvents params.settleUnits ++ pulseEvents) u (u.pulseReset.wait params.settleUnits) :=
    (pulseReset_did u).trans (wait_did _ _)
  have ht : TargetKept s (u.pulseReset.wait params.settleUnits) := by
    have k := (pulseReset_target u).trans (wait_target params.settleUnits _)
    exact ⟨k.wf, k.absent⟩
  have he : handshakeTry v s = exchange v progEnableWord (u.pulseReset.wait params.settleUnits) := rfl
  rw [he]
  generalize u.pulseReset.wait params.settleUnits = w at hs hd ht
  have lw : live v w = true := by
    rw [live_settles hs]; cases v
    · rfl
    · exact h
  obtain ⟨r, t, e, st⟩ := exchange_live progEnableWord lw
  have key := (afterCommand_settles (v := v) (w := progEnableWord) (r := r) hs).trans st.settles
  have dd := (hd.trans st.did).byteTrace
  have pw : w.pullupMiso = s.pullupMiso := by rw [hs]
  refine ⟨r, t, e, ?_, ?_, ?_, ?_, ?_, fun a p => (st.absent (ht.absent a)).2 (pw.trans p)⟩
  · have tk := ht.trans st.target
    rw [key] at tk ⊢
    cases v with
    | sw =>
      constructor <;> first | rfl | exact tk | (intro k; first | rfl | exact k)
    | hw =>
      constructor <;> first | rfl | exact tk | (intro k; first | rfl | exact k | skip)
      exact (show statusAtRest (withFlag false s.status) = true by rw [withFlag_false_rest k]; exact k)
  · rw [key]
    cases v with
    | sw => constructor <;> rfl
    | hw => exact ⟨rfl, rfl, rfl, rfl, statusDbl_withFlag _⟩
  · rw [key]; cases v <;> rfl
  · rw [key]; cases v <;> rfl
  · rw [dd]
    simp only [byteTrace_append, byteTrace_commandEvents, byteTrace_waitEvents, byteTrace_pulseEvents]
    simp [tryTrace, progEnableWord, u]

theorem failedTry_frame (s : State) : TryFrame s (failedTry s) := by
  unfold failedTry
  dsimp only
  split <;> (constructor <;> first | rfl | exact ⟨id, id⟩ | exact fun h => h)

theorem failedTry_kept (s : State) : BoundKept s (failedTry s) := by
  unfold failedTry
  dsimp only
  split <;> exact ⟨rfl, rfl, rfl, rfl, rfl⟩

theorem failedTry_tries (s : State) : (failedTry s).tries = s.tries - 1 := by
  unfold failedTry
  dsimp only
  split <;> rfl

theorem failedTry_outRst (s : State) : (failedTry s).outRst = s.outRst := by
  unfold failedTry
  dsimp only
  split <;> rfl

theorem failedTry_trace (s : State) : (failedTry s).env = s.env := by
  unfold failedTry
  dsimp only
  split <;> rfl

/-- The tries at one speed (R141, R143, R145): the responses, the latest first. -/
theorem triesAtSpeed_live {v : Variant} (n : Nat) (hn : n ≤ 3) {s : State} (h : live v s = true)
    (ho : n = 0 → s.outRst = false) (ht : s.tries = BitVec.ofNat 2 n) :
    ∃ rs ok t, triesAtSpeed v n s = .returned ok t ∧ TryFrame s t ∧ BoundKept s t ∧ t.outRst = false ∧
      byteTrace t.env.trace = rs.flatMap tryTrace ++ byteTrace s.env.trace ∧
      (s.env.target = .absent → s.pullupMiso = true → ok = false) ∧
      (if ok then t.hsState = .success ∧ t.tries.toNat + rs.length = n + 1 ∧ 1 ≤ t.tries.toNat ∧
        ∃ r rest, rs = r :: rest ∧ echoed r = true ∧ ∀ x ∈ rest, echoed x = false
      else rs.length = n ∧ t.tries = 0 ∧ ∀ x ∈ rs, echoed x = false) := by
  induction n generalizing s with
  | zero => exact ⟨[], false, s, rfl, .refl s, .refl s, ho rfl, rfl, fun _ _ => rfl, by simpa using ht⟩
  | succ n ih =>
    obtain ⟨r, t, e, fr, bk, orst, tr, bt, ab⟩ := handshakeTry_live h
    by_cases hr : echoed r = true
    · refine ⟨[r], true, { t with hsState := .success }, by simp [triesAtSpeed, e, hr], ?_, ?_, orst, ?_, ?_, ?_⟩
      · exact fr.trans (by constructor <;> first | rfl | exact ⟨id, id⟩ | exact fun h => h)
      · exact bk.trans ⟨rfl, rfl, rfl, rfl, rfl⟩
      · simpa using bt
      · intro a p; rw [ab a p] at hr; exact absurd hr (by decide)
      · have hh : t.tries.toNat = n + 1 := by rw [tr, ht]; simp; omega
        simp only [if_true]
        exact ⟨trivial, by show t.tries.toNat + _ = _; rw [hh]; simp, by show 1 ≤ t.tries.toNat; omega,
          r, [], rfl, hr, by simp⟩
    · have hr' : echoed r = false := by simpa using hr
      have k1 := fr.trans (failedTry_frame t)
      have k2 := bk.trans (failedTry_kept t)
      have tt : (failedTry t).tries = BitVec.ofNat 2 n := by
        rw [failedTry_tries, tr, ht]
        apply BitVec.eq_of_toNat_eq
        simp; omega
      obtain ⟨rs, ok, u, e2, fr2, bk2, o2, bt2, ab2, c2⟩ :=
        ih (by omega) (k2.live.trans h) (fun _ => (failedTry_outRst t).trans orst) tt
      refine ⟨rs ++ [r], ok, u, by simp [triesAtSpeed, e, hr', e2], k1.trans fr2, k2.trans bk2, o2, ?_, ?_, ?_⟩
      · rw [bt2, failedTry_trace, bt]; simp
      · exact fun a p => ab2 (k1.target.absent a) (k1.pullupMiso.trans p)
      · cases ok with
        | false =>
          simp only [Bool.false_eq_true, if_false] at c2 ⊢
          exact ⟨by simp [c2.1], c2.2.1, by
            intro x hx
            rcases List.mem_append.1 hx with hx | hx
            · exact c2.2.2 x hx
            · rw [List.mem_singleton.1 hx]; exact hr'⟩
        | true =>
          simp only [if_true] at c2 ⊢
          obtain ⟨c, d, l, q, rest, hq, eq1, er⟩ := c2
          refine ⟨c, by simp; omega, l, q, rest ++ [r], by simp [hq], eq1, ?_⟩
          intro x hx
          rcases List.mem_append.1 hx with hx | hx
          · exact er x hx
          · rw [List.mem_singleton.1 hx]; exact hr'

/-! ### The loop over the speeds -/

theorem Settles.frame_enter {o : Setting} (k : o.toNat ≤ 12) (h0 : o ≠ 0) (s : State) :
    TryFrame s (enterSpeed o s) ∧ (enterSpeed o s).outRst = s.outRst ∧
      byteTrace (enterSpeed o s).env.trace = byteTrace s.env.trace := by
  have hm : mapAuto o = o := mapAuto_of_ne h0
  have tk := setSetting_target o s
  have bt := (setSetting_did o s).byteTrace
  unfold enterSpeed setSpeed
  rw [hm]
  by_cases h : isHardware o = true
  · obtain ⟨row, hr⟩ := hwRow_some h k
    have e := setSetting_hardware h hr s
    generalize setSetting o s = t at *
    refine ⟨?_, by rw [e]; rfl, by simpa using bt⟩
    have tk' : TargetKept s { t with tries := BitVec.ofNat 2 params.triesPerSpeed } := ⟨tk.wf, tk.absent⟩
    rw [e] at tk' ⊢
    constructor <;> first | rfl | exact tk' | (intro k; first | rfl | exact k | exact withDbl_rest _ k)
  · have h' : isHardware o = false := by simpa using h
    have e := setSetting_software h' s
    generalize setSetting o s = t at *
    refine ⟨?_, by rw [e]; rfl, by simpa using bt⟩
    have tk' : TargetKept s { t with tries := BitVec.ofNat 2 params.triesPerSpeed } := ⟨tk.wf, tk.absent⟩
    rw [e] at tk' ⊢
    constructor <;> first | rfl | exact tk' | (intro k; first | rfl | exact k)

theorem enterSpeed_bound {o : Setting} (k : o.toNat ≤ 12) (h0 : o ≠ 0) (s : State) :
    speedBoundTo (enterSpeed o s) = true ∧ live (settingVariant o) (enterSpeed o s) = true ∧
      (enterSpeed o s).tries = 3 ∧ (enterSpeed o s).speed = o := by
  have hm : mapAuto o = o := mapAuto_of_ne h0
  have b := setSetting_bound k s
  have l := setSetting_live k s
  have sp : (setSetting o s).speed = o := by
    by_cases h : isHardware o = true
    · obtain ⟨row, hr⟩ := hwRow_some h k
      rw [setSetting_hardware h hr s]; rfl
    · rw [setSetting_software (by simpa using h) s]; rfl
  unfold enterSpeed setSpeed
  rw [hm]
  refine ⟨b, ?_, rfl, sp⟩
  generalize settingVariant o = v at l ⊢
  cases v <;> exact l

theorem stepDown_frame (s : State) : TryFrame s (stepDown s) ∧ (stepDown s).outRst = s.outRst ∧
    byteTrace (stepDown s).env.trace = byteTrace s.env.trace ∧ (stepDown s).tries = s.tries := by
  have p : TryFrame s { s with hsState := .stepDownSpeed } := by
    constructor <;> first | rfl | exact ⟨id, id⟩ | exact fun h => h
  unfold stepDown
  dsimp only
  split
  · have tk := setCtrl_target ctrlDisabled { s with hsState := .stepDownSpeed }
    have bt := (setCtrl_did ctrlDisabled { s with hsState := .stepDownSpeed }).byteTrace
    have e := setCtrl_settles ctrlDisabled { s with hsState := .stepDownSpeed }
    unfold State.disableHw
    generalize State.setCtrl ctrlDisabled { s with hsState := .stepDownSpeed } = t at *
    refine ⟨p.trans ?_, by rw [e], by simpa using bt, by rw [e]⟩
    rw [e] at tk ⊢
    constructor <;> first | rfl | exact tk | (intro k; first | rfl | exact k)
  · exact ⟨p, rfl, rfl, rfl⟩
  · exact ⟨p, rfl, rfl, rfl⟩

/-- Stepping down leaves the engine off (R146), and the rest of what is bound. -/
theorem stepDown_bound {s : State} (h : speedBoundTo s = true) (h1 : isHardware s.speed = false) :
    (stepDown s).xport = .sw ∧ (stepDown s).swDelay = softwareDelay s.speed ∧ (stepDown s).ctrl = s.ctrl := by
  have q : s.xport = .sw ∧ s.swDelay = softwareDelay s.speed := by simpa [speedBoundTo, h1] using h
  unfold stepDown
  simp only [q.1]
  exact ⟨trivial, q.2, trivial⟩

/-- Entering a software speed switches the engine off (R93). -/
theorem enterSpeed_software {o : Setting} (h : isHardware o = false) (h0 : o ≠ 0) (s : State) :
    (enterSpeed o s).ctrl = 0x00 := by
  have hm : mapAuto o = o := mapAuto_of_ne h0
  unfold enterSpeed setSpeed
  rw [hm, setSetting_software h s]
  rfl

/-- The outcome of the loop over the speeds from `n` down (R135, R144, R147, R148). -/
structure LoopOutcome (n : Nat) (rs : List Response) (s t : State) (rc : Byte) : Prop where
  frame : TryFrame s t
  outRst : t.outRst = false
  trace : byteTrace t.env.trace = rs.flatMap tryTrace ++ byteTrace s.env.trace
  absent : s.env.target = .absent → s.pullupMiso = true → rc = 1
  outcome : (rc = 0 ∧ t.hsState = .success ∧ speedBoundTo t = true ∧ 1 ≤ t.speed.toNat ∧ t.speed.toNat ≤ n ∧
      1 ≤ t.tries.toNat ∧ rs.length + t.tries.toNat + 3 * t.speed.toNat = 3 * n + 4 ∧
      (t.xport ≠ .hw → t.ctrl = 0x00) ∧
      ∃ r rest, rs = r :: rest ∧ echoed r = true ∧ ∀ x ∈ rest, echoed x = false) ∨
    (rc = 1 ∧ t.hsState = .fail ∧ t.speed = 0 ∧ rs.length = 3 * n ∧ (∀ x ∈ rs, echoed x = false) ∧
      (1 ≤ n → t.xport = .sw ∧ t.swDelay = 96 ∧ t.ctrl = 0x00 ∧ t.tries = 0))

theorem speedsFrom_live (n : Nat) (hn : n ≤ 12) (s : State) (ho : n = 0 → s.outRst = false) :
    ∃ rs rc t, speedsFrom n s = .returned rc t ∧ LoopOutcome n rs s t rc ∧
      (n = 0 → t = handshakeFail s) := by
  induction n generalizing s with
  | zero =>
    refine ⟨[], 1, handshakeFail s, rfl, ⟨?_, ho rfl, rfl, fun _ _ => rfl, .inr ⟨rfl, rfl, rfl, rfl, by simp, by simp⟩⟩,
      fun _ => rfl⟩
    constructor <;> first | rfl | exact ⟨id, id⟩ | exact fun h => h
  | succ n ih =>
    have ko : (BitVec.ofNat 4 (n + 1)).toNat = n + 1 := by simp; omega
    have kl : (BitVec.ofNat 4 (n + 1)).toNat ≤ 12 := by omega
    have k0 : BitVec.ofNat 4 (n + 1) ≠ 0 := fun e => by rw [e] at ko; simp at ko
    have hmin : ¬ n + 1 < params.idxSwMin.toNat := Nat.not_lt.2 (Nat.le_add_left 1 n)
    generalize hO : BitVec.ofNat 4 (n + 1) = o at ko kl k0
    obtain ⟨ef, eo, et⟩ := Settles.frame_enter kl k0 s
    obtain ⟨eb, el, etr, esp⟩ := enterSpeed_bound kl k0 s
    obtain ⟨rs, ok, t, e, fr, bk, o1, bt, ab, c⟩ := triesAtSpeed_live 3 (Nat.le_refl _) el (by simp) etr
    have hb : speedBoundTo t = true := bk.bound.trans eb
    have hs : t.speed = o := bk.speed.trans esp
    have hc : isHardware o = false → t.ctrl = 0x00 := fun q => bk.ctrl.trans (enterSpeed_software q k0 s)
    cases ok with
    | true =>
      simp only [if_true] at c
      obtain ⟨c1, c2, c3, c4⟩ := c
      have er : speedsFrom (n + 1) s = .returned 0 t := by
        simp only [speedsFrom, hO, if_neg hmin]
        rw [show params.triesPerSpeed = 3 from rfl, e]
        simp [speedBump, params]
      refine ⟨rs, 0, t, er, ⟨ef.trans fr, o1, by rw [bt, et], ?_, .inl ⟨rfl, c1, hb, by rw [hs]; omega, by rw [hs]; omega,
        c3, by rw [hs]; omega, ?_, c4⟩⟩, by simp⟩
      · intro a p
        exact absurd (ab (ef.target.absent a) (ef.pullupMiso.trans p)) (by simp)
      · intro hx
        apply hc
        by_contra hh
        have hh' : isHardware t.speed = true := by rw [hs]; simpa using hh
        unfold speedBoundTo at hb
        rw [hh'] at hb
        simp only [if_true] at hb
        split at hb
        · simp [hx] at hb
        · simp at hb
    | false =>
      simp only [Bool.false_eq_true, if_false] at c
      obtain ⟨c1, c2, c3⟩ := c
      obtain ⟨df, d1, dt, dtr⟩ := stepDown_frame t
      obtain ⟨rs2, rc, u, e2, L, z⟩ := ih (by omega) (stepDown t) (fun _ => d1.trans o1)
      have er : speedsFrom (n + 1) s = .returned rc u := by
        simp only [speedsFrom, hO, if_neg hmin]
        rw [show params.triesPerSpeed = 3 from rfl, e]
        simpa using e2
      have F := (ef.trans fr).trans df
      refine ⟨rs2 ++ rs, rc, u, er, ⟨F.trans L.frame, L.outRst, ?_, ?_, ?_⟩, by simp⟩
      · rw [L.trace, dt, bt, et]; simp
      · exact fun a p => L.absent (F.target.absent a) (F.pullupMiso.trans p)
      · rcases L.outcome with ⟨h1, h2, h3, h4, h5, h6, h7, h8, r, rest, h9, h10, h11⟩ | ⟨h1, h2, h3, h4, h5, h6⟩
        · refine .inl ⟨h1, h2, h3, h4, by omega, h6, by simp; omega, h8, r, rest ++ rs, by simp [h9], h10, ?_⟩
          intro x hx
          rcases List.mem_append.1 hx with hx | hx
          · exact h11 x hx
          · exact c3 x hx
        · refine .inr ⟨h1, h2, h3, by simp; omega, ?_, fun _ => ?_⟩
          · intro x hx
            rcases List.mem_append.1 hx with hx | hx
            · exact h5 x hx
            · exact c3 x hx
          · by_cases n0 : n = 0
            · have hw : isHardware t.speed = false := by
                rw [hs]; subst n0; rw [← hO]; rfl
              have b := stepDown_bound hb hw
              have q := z n0
              rw [q]
              refine ⟨b.1, ?_, b.2.2.trans (hc (by rw [← hs]; exact hw)), dtr.trans c2⟩
              show (stepDown t).swDelay = 96
              rw [b.2.1, hs, ← hO, n0]; rfl
            · exact h6 (by omega)

end Sys2Proof.Machine
end

