-- ==== Sys2Proof/Laws/Issue.lean ====
section
/-! SUPPORT. What an issued instruction can answer: from a next state back to the run it came from, and from a live bound
variant forward to the run there is. -/

namespace Sys2Proof.Machine

/-! ### From a next state back -/

theorem issueLocal_next {op : State → Run Byte} {s t : State} (h : issueLocal op s = .next t) :
    s.busy = false ∧ t = (op { s with busy := true }).finish := by
  unfold issueLocal at h
  split at h
  · cases h
  · cases h; exact ⟨by simp_all, rfl⟩

theorem issueTransmitting_next {op : Variant → State → Run Byte} {s t : State} (h : issueTransmitting op s = .next t) :
    s.busy = false ∧ ∃ v, xportVariant s.xport = some v ∧ t = (op v { s with busy := true }).finish := by
  unfold issueTransmitting at h
  split at h
  · cases h
  · split at h
    · cases h
    · cases h; exact ⟨by simp_all, _, ‹_›, rfl⟩

theorem issueWire_next {op : Variant → State → Run Response} {s t : State} (h : issueWire op s = .next t) :
    s.busy = false ∧ ∃ v, xportVariant s.xport = some v ∧ t = (op v { s with busy := true }).finishWire := by
  unfold issueWire at h
  split at h
  · cases h
  · split at h
    · cases h
    · cases h; exact ⟨by simp_all, _, ‹_›, rfl⟩

/-- `SetSpeed` completes only for an option that is no reserved one (R94). -/
theorem execSetSpeed_next {o : Setting} {s t : State} (h : execSetSpeed o s = .next t) :
    s.busy = false ∧ o.toNat ≤ 12 ∧ t = returnedWith 0 (setSetting (mapAuto o) { s with busy := true }) := by
  unfold execSetSpeed at h
  split at h
  · cases h
  · rename_i g
    obtain ⟨b, e⟩ := issueLocal_next h
    refine ⟨b, ?_, e⟩
    rw [b] at g
    simp [params] at g
    omega

theorem execEnterProg_next {s t : State} (h : execEnterProg s = .next t) :
    s.busy = false ∧ s.speed.toNat ≤ 12 ∧ t = (enterProg { s with busy := true }).finish := by
  unfold execEnterProg at h
  split at h
  · cases h
  · rename_i g
    obtain ⟨b, e⟩ := issueLocal_next h
    refine ⟨b, ?_, e⟩
    rw [b] at g
    simp [params] at g
    omega

/-- A `Transmit` that returned was of a variant that completes (R107). -/
theorem transmit_returned {v : Variant} {b r : Byte} {s t : State} (h : transmit v b s = .returned r t) :
    live v s = true ∧ Sent v b r s t := by
  by_cases l : live v s = true
  · obtain ⟨r', t', e, st⟩ := transmit_live b l
    rw [e] at h; cases h; exact ⟨l, st⟩
  · rw [transmit_hung b (by simpa using l)] at h; cases h

theorem exchange_returned {v : Variant} {w : WireWord} {r : Response} {s t : State} (h : exchange v w s = .returned r t) :
    live v s = true ∧ Exchanged v w r s t := by
  by_cases l : live v s = true
  · obtain ⟨r', t', e, st⟩ := exchange_live w l
    rw [e] at h; cases h; exact ⟨l, st⟩
  · rw [exchange_hung w (by simpa using l)] at h; cases h

theorem updateExtended_returned {v : Variant} {a : FlashAddr} {s t : State} (h : updateExtended v a s = .returned () t) :
    (extByte a = s.hiaddr ∧ t = s) ∨
      (extByte a ≠ s.hiaddr ∧ ∃ r, Exchanged v (loadExtWord (extByte a)) r { s with hiaddr := extByte a } t) := by
  unfold updateExtended at h
  split at h
  · cases h; exact .inl ⟨‹_›, rfl⟩
  · rename_i ne
    unfold loadExtended at h
    cases e : exchange v (loadExtWord (extByte a)) { s with hiaddr := extByte a } with
    | inside u => rw [e] at h; cases h
    | returned r u => rw [e] at h; cases h; exact .inr ⟨ne, r, (exchange_returned e).2⟩

/-- The bound variant that does not complete is the hardware one, with the engine disabled (R107). -/
theorem not_live {v : Variant} {s : State} (hv : xportVariant s.xport = some v) (l : ¬ live v s = true) :
    v = .hw ∧ s.xport = .hw ∧ s.engineEnabled = false := by
  cases v with
  | sw => exact absurd rfl l
  | hw =>
    refine ⟨rfl, ?_, by simpa [live] using l⟩
    cases h : s.xport <;> simp [xportVariant, h] at hv ⊢

/-! ### From a live variant forward -/

theorem live_busy {v : Variant} {s : State} (l : live v s = true) : live v { s with busy := true } = true := by
  cases v <;> exact l

theorem returned_settles {u t : State} (x : Byte) (h : Settles { u with busy := true } t) :
    Settles (returnedWith x u) (returnedWith x t) :=
  Settles.map (u := { u with busy := true }) (returnedWith x) (fun _ _ _ => rfl) h

theorem returned_did {es : List Event} {s t : State} (x : Byte) (h : Did es s t) : Did es s (returnedWith x t) := by
  unfold Did at *
  exact h

theorem issued_exchange {v : Variant} {s : State} (w : WireWord) (l : live v s = true) :
    ∃ r t, exchange v w { s with busy := true } = .returned r t ∧ Settles { afterCommand v w r s with busy := true } t ∧
      Did (commandEvents v s.swDelay w r) s t ∧ (v = .hw → t.delayStart = s.delayStart) := by
  obtain ⟨r, t, e, st⟩ := exchange_live w (live_busy l)
  refine ⟨r, t, e, ?_, st.did, st.delayStart⟩
  have := st.settles
  cases v <;> exact this

theorem issued_flash {v : Variant} {s : State} (a : FlashAddr) (w : WireWord) (l : live v s = true) :
    ∃ load r t, flashCommand v a w { s with busy := true } = .returned r t ∧
      Settles { afterFlash v a w r s with busy := true } t ∧ Did (flashEvents v s.swDelay s.hiaddr a load w r) s t ∧
      (v = .hw → t.delayStart = s.delayStart) ∧ live v t = true := by
  obtain ⟨load, r, t, e, st⟩ := flashCommand_live a w (live_busy l)
  refine ⟨load, r, t, e, ?_, st.did, st.delayStart, st.live.trans (live_busy l)⟩
  have := st.settles
  cases v <;> exact this

/-- `PollFlash` up to the end of its first iteration: the window is opened at a reading `x`, with the whole budget (R176). -/
theorem pollFlash_iterated {v : Variant} {u : State} (a : FlashAddr) (m : Byte) (l : live v u = true) :
    ∃ x w, Settles { u with retries := 30, winStart := x } w ∧ Did [.tick x] u w ∧
      PollIterated v a m w (pollFlash v a m u).finish := by
  refine ⟨u.env.reading, { u.afterTick with retries := params.pollBudget, winStart := u.env.reading }, ?_,
    afterTick_did u, ?_⟩
  · exact (afterTick_settles u).map (fun t => { t with retries := params.pollBudget, winStart := u.env.reading })
      (fun _ _ _ => rfl)
  · have ll : live v { u.afterTick with retries := params.pollBudget, winStart := u.env.reading } = true := by
      cases v with
      | sw => rfl
      | hw => simpa [live, State.engineEnabled] using l
    exact pollIteration_live a m ll (show params.pollBudget ≠ 0 by decide)

theorem startSpeed_bounds {s : State} (h : s.speed.toNat ≤ 12) : 1 ≤ startSpeed s ∧ startSpeed s ≤ 12 := by
  have : ∀ q : Setting, q.toNat ≤ 12 →
      1 ≤ (if q = params.idxAuto then params.entryDefault.toNat else q.toNat) ∧
        (if q = params.idxAuto then params.entryDefault.toNat else q.toNat) ≤ 12 := by decide
  exact this s.speed h

/-- The handshake always returns (R148). -/
theorem enterProg_run {s : State} (h : s.speed.toNat ≤ 12) :
    ∃ rs rc t, enterProg { s with busy := true } = .returned rc t ∧
      LoopOutcome (startSpeed s) rs { s with busy := true, hsState := .idle } t rc := by
  obtain ⟨b1, b2⟩ := startSpeed_bounds h
  obtain ⟨rs, rc, t, e, L, -⟩ := speedsFrom_live (startSpeed s) b2 { s with busy := true, hsState := .idle } (by omega)
  exact ⟨rs, rc, t, e, L⟩

/-! ### Runs -/

/-- One step of a run. -/
theorem run_succ {s t : State} (n : Nat) (h : step s = .next t) : core.run (n + 1) s = core.run n t := by
  have e : core.step s = .next t := h
  simp only [Host.Core.run, e]

end Sys2Proof.Machine
end

