-- ==== Sys2Proof/Laws/Cache.lean ====
section
/-! SUPPORT. The Transport Primitive, the exchange and the waits neither read nor write the cached byte (R48, R160): they
commute with putting another value there. -/

namespace Sys2Proof.Machine

/-- The state with another cached byte. -/
def withCache (h : Byte) (s : State) : State := { s with hiaddr := h }

/-- A run ending in the state with another cached byte. -/
def Run.withCache {α : Type} (h : Byte) : Run α → Run α
  | .returned a s => .returned a (Machine.withCache h s)
  | .inside s => .inside (Machine.withCache h s)

theorem delay_withCache (h : Byte) (n : Tick) (s : State) : (withCache h s).delayTicks n = withCache h (s.delayTicks n) := rfl

theorem setLine_withCache (h : Byte) (l : Line) (v : Bool) (s : State) : (withCache h s).setLine l v =
    withCache h (s.setLine l v) := by
  cases l <;> rfl

theorem swBit_withCache (h : Byte) (v : Bool) (s : State) : swBit v (withCache h s) = withCache h (swBit v s) ∧
    swSample v (withCache h s) = swSample v s := by
  refine ⟨?_, ?_⟩
  · simp only [swBit, setLine_withCache]; rfl
  · simp only [swSample, setLine_withCache]; rfl

theorem engineBit_withCache (h : Byte) (v : Bool) (s : State) : engineBit v (withCache h s) =
    withCache h (engineBit v s) := by
  simp only [engineBit]; rfl

theorem swBits_withCache (h : Byte) (k : Nat) (b rx : Byte) (s : State) : swBits k b rx (withCache h s) =
    ((swBits k b rx s).1, withCache h (swBits k b rx s).2) := by
  induction k generalizing rx s with
  | zero => rfl
  | succ k ih => rw [swBits_succ, swBits_succ, (swBit_withCache h _ s).1, (swBit_withCache h _ s).2, ih]

theorem engineBits_withCache (h : Byte) (k : Nat) (b : Byte) (s : State) : engineBits k b (withCache h s) =
    withCache h (engineBits k b s) := by
  induction k generalizing s with
  | zero => rfl
  | succ k ih => rw [engineBits_succ, engineBits_succ, engineBit_withCache, ih]

theorem transmit_withCache (h : Byte) (v : Variant) (b : Byte) (s : State) : transmit v b (withCache h s) =
    Run.withCache h (transmit v b s) := by
  cases v with
  | sw =>
    show Run.returned (transmitSw b (withCache h s)).1 ((transmitSw b (withCache h s)).2.log (.byte b (transmitSw b
      (withCache h s)).1)) = Run.returned (transmitSw b s).1 (withCache h ((transmitSw b s).2.log (.byte b (transmitSw b
        s).1)))
    have : transmitSw b (withCache h s) = ((transmitSw b s).1, withCache h (transmitSw b s).2) := swBits_withCache h 8 b 0 s
    rw [this]
    generalize transmitSw b s = x
    rfl
  | hw =>
    have ee : (withCache h s).engineEnabled = s.engineEnabled := rfl
    have : (withCache h s).transfer b = withCache h (s.transfer b) := by
      unfold State.transfer
      have := engineBits_withCache h 8 b (engineLoaded b s)
      dsimp only
      rw [show ({ withCache h s with data := b, engShift := 0x00, engCount := 0 } : State) =
        withCache h (engineLoaded b s) from rfl, this]
      rfl
    by_cases e : s.engineEnabled = true
    · simp only [transmit, transmitHw, ee, e, if_true, Run.bind, this, Run.withCache]; rfl
    · simp only [transmit, transmitHw, ee, e, Run.bind, Run.withCache]; rfl

theorem bind_withCache {α β : Type} (h : Byte) (r : Run α) (f g : α → State → Run β) (hf : ∀ a s, f a (withCache h s) =
    Run.withCache h (g a s)) :
   (Run.withCache h r).bind f = Run.withCache h (r.bind g) := by
  cases r with
  | returned a s => exact hf a s
  | inside s => rfl

theorem exchange_withCache (h : Byte) (v : Variant) (w : WireWord) (s : State) : exchange v w (withCache h s) =
    Run.withCache h (exchange v w s) := by
  unfold exchange
  rw [transmit_withCache]
  refine bind_withCache h _ _ _ fun r1 s1 => ?_
  rw [transmit_withCache]
  refine bind_withCache h _ _ _ fun r2 s2 => ?_
  rw [transmit_withCache]
  refine bind_withCache h _ _ _ fun r3 s3 => ?_
  rw [transmit_withCache]
  exact bind_withCache h _ _ _ fun r4 s4 => rfl

theorem wait_withCache (h : Byte) (n : Nat) (s : State) : (withCache h s).wait n = withCache h (s.wait n) := by
  have : ∀ n (s : State), State.waitUnits n (withCache h s) = withCache h (State.waitUnits n s) := by
    intro n; induction n with
    | zero => intro s; rfl
    | succ n ih => intro s; rw [State.waitUnits, State.waitUnits, delay_withCache, ih]
  exact this n (s.log (.wait n))

end Sys2Proof.Machine
end

