-- ==== Sys2Proof/Laws/Target.lean ====
section
/-! SUPPORT. The cooperative target on the wire (R56): what it sees of a byte, of a wire command and of a reset pulse. -/

namespace Sys2Proof.Machine

/-! ### One byte, seen by the target alone -/

/-- The target sees one clock pulse with MOSI at `v`. -/
def Coop.pulse (v : Bool) (c : Coop) : Coop := (c.onRise (some v)).onFall

/-- The target sees the bits `k - 1` down to 0 of a byte. -/
def Coop.bits : Nat → Byte → Coop → Coop
  | 0, _, c => c
  | k + 1, b, c => Coop.bits k b (c.pulse (b.getLsbD k))

/-- The answer presented before does not matter for what a whole byte does. -/
theorem Coop.receive_answer (c : Coop) (x : Option Byte) (b : Byte) : { c with answer := x }.receive b = c.receive b := by
  have fr : ∀ a, ({ c with answer := x } : Coop).readFlash a = ((c.readFlash a).1,
    { (c.readFlash a).2 with answer := x }) := by
    intro a
    unfold Coop.readFlash
    dsimp only
    split
    · split <;> rfl
    · rfl
  have ff : ∀ b1 b2 b3, ({ c with answer := x } : Coop).fourthAnswer b1 b2 b3 =
      ((c.fourthAnswer b1 b2 b3).1, { (c.fourthAnswer b1 b2 b3).2 with answer := x }) := by
    intro b1 b2 b3
    unfold Coop.fourthAnswer
    split
    · exact fr _
    · split
      · exact fr _
      · split <;> rfl
  have fe : ∀ b1 b2 b3 b4, ({ c with answer := x } : Coop).execute b1 b2 b3 b4 =
      { c.execute b1 b2 b3 b4 with answer := x } := by
    intro b1 b2 b3 b4
    unfold Coop.execute Coop.writeFlash Coop.writePage
    repeat' split
    all_goals rfl
  unfold Coop.receive
  dsimp only
  split
  · rfl
  · rfl
  · simp only [ff]
  · simp only [fe]
    split <;> rfl

/-- The eight bits shifted in are the byte. -/
theorem shiftIn_byte (b : Byte) :
    shiftInBit (shiftInBit (shiftInBit (shiftInBit (shiftInBit (shiftInBit (shiftInBit (shiftInBit 0 (b.getLsbD 7))
      (b.getLsbD 6)) (b.getLsbD 5)) (b.getLsbD 4)) (b.getLsbD 3)) (b.getLsbD 2)) (b.getLsbD 1)) (b.getLsbD 0) = b := by
  apply byte_ext
  intro k hk
  interval_cases k <;> simp only [shiftInBit_zero, shiftInBit_succ _ _ _ (show (0 : Nat) < 7 by decide),
    shiftInBit_succ _ _ _ (show (1 : Nat) < 7 by decide), shiftInBit_succ _ _ _ (show (2 : Nat) < 7 by decide),
    shiftInBit_succ _ _ _ (show (3 : Nat) < 7 by decide), shiftInBit_succ _ _ _ (show (4 : Nat) < 7 by decide),
    shiftInBit_succ _ _ _ (show (5 : Nat) < 7 by decide), shiftInBit_succ _ _ _ (show (6 : Nat) < 7 by decide)]

/-- Eight pulses from a byte boundary are one whole byte (R56). -/
theorem Coop.bits_eight (b : Byte) (c : Coop) (hb : c.bitCount = 0) (hs : c.shiftIn = 0) :
    c.bits 8 b = c.receive b := by
  have h : c.bits 8 b = { c with answer := (c.bits 7 (b >>> 1)).answer }.receive b := by
    simp only [Coop.bits, Coop.pulse, Coop.onRise, Coop.onFall, hb, hs, Option.getD_some]
    simp only [Nat.reduceAdd, Nat.reduceLT, Nat.reduceEqDiff, if_true, if_false, shiftIn_byte]
  rw [h, Coop.receive_answer]

/-! ### The wire of a session -/

/-- The lines as a session has them, with the variant `v` owning SCK and MOSI (R41, R227). -/
structure Wired (v : Variant) (s : State) : Prop where
  dirRst : s.dirRst = true
  dirSck : s.dirSck = true
  dirMosi : s.dirMosi = true
  outRst : s.outRst = false
  outSck : s.outSck = false
  engSck : s.engSck = false
  owner : ctrlEn s.ctrl = (match v with | .sw => false | .hw => true)

theorem onReset_low (c : Coop) {a b : Wire} (ha : a.rst = some false) (hb : b.rst = some false) : c.onReset a b = c := by
  simp [Coop.onReset, ha, hb]

theorem observe_still (c : Coop) {a b : Wire} (ha : a.rst = some false) (hb : b.rst = some false) (h : a.sck = b.sck) :
    (Target.cooperative c).observe a b = .cooperative c := by
  have k : c.onClock a b = c := by
    unfold Coop.onClock
    rw [h]
    simp only [hb]
    cases b.sck with
    | none => simp
    | some x => cases x <;> simp
  simp only [Target.observe, onReset_low c ha hb, k]

theorem observe_rise (c : Coop) {a b : Wire} (ha : a.rst = some false) (hb : b.rst = some false) (h : a.sck = some false)
    (k : b.sck = some true) : (Target.cooperative c).observe a b = .cooperative (c.onRise b.mosi) := by
  simp only [Target.observe, onReset_low c ha hb, Coop.onClock, hb, h, k]
  simp

theorem observe_fall (c : Coop) {a b : Wire} (ha : a.rst = some false) (hb : b.rst = some false) (h : a.sck = some true)
    (k : b.sck = some false) : (Target.cooperative c).observe a b = .cooperative c.onFall := by
  simp only [Target.observe, onReset_low c ha hb, Coop.onClock, hb, h, k]
  simp

/-- A level the target drives is what a sample reads (R42 as R57 has it). -/
theorem sampled_coop {s : State} {c : Coop} {x : Bool} (h : s.env.target = .cooperative c) (k : c.level = some x) :
    s.sampled = x := by
  simp [State.sampled, Env.misoLevel, Env.drive, h, k]

/-- One bit of the software variant, as the target sees it. -/
theorem swBit_coop {s : State} {c : Coop} (w : Wired .sw s) (ht : s.env.target = .cooperative c) (v : Bool) :
    (swBit v s).env.target = .cooperative (c.pulse v) ∧ (∀ x, c.level = some x → swSample v s = x) := by
  have e := w.owner
  simp only at e
  have h1 : (s.setLine .mosi v).env.target = .cooperative c := by
    rw [State.setLine_env_target, ht]
    apply observe_still <;> simp [State.wire, w.dirRst, w.outRst, e]
  constructor
  · unfold swBit
    simp only [State.delayTicks_env_target, State.setLine_env_target (l := .sck), State.afterSample_env_target, h1]
    rw [observe_rise, observe_fall] <;> simp [State.wire, w.dirRst, w.outRst, w.dirSck, w.dirMosi, w.outSck, e, Coop.pulse]
  · intro x hx
    exact sampled_coop h1 hx

/-- One bit of the hardware variant, as the target sees it. -/
theorem engineBit_coop {s : State} {c : Coop} (w : Wired .hw s) (ht : s.env.target = .cooperative c) (v : Bool) :
    (engineBit v s).env.target = .cooperative (c.pulse v) ∧ (∀ x, c.level = some x → hwSample v s = x) := by
  have e := w.owner
  simp only at e
  have h1 : (s.engineMosi v).env.target = .cooperative c := by
    rw [State.engineMosi_env_target, ht]
    apply observe_still <;> simp [State.wire, w.dirRst, w.outRst, e]
  have h2 : ((s.engineMosi v).engineSck true).env.target = .cooperative (c.onRise (some v)) := by
    rw [State.engineSck_env_target, h1]
    rw [observe_rise] <;> simp [State.wire, w.dirRst, w.outRst, w.dirSck, w.dirMosi, w.engSck, e]
  constructor
  · unfold engineBit
    simp only [State.engineSck_env_target (v := false), State.afterSample_env_target, h2]
    rw [observe_fall] <;> simp [State.wire, w.dirRst, w.outRst, w.dirSck, e, Coop.pulse]
  · intro x hx
    exact sampled_coop h2 (x := x) hx

/-- A byte of either variant keeps the lines as they are. -/
theorem Wired.afterByte {v : Variant} {s : State} (w : Wired v s) (b r : Byte) : Wired v (afterByte v b r s) := by
  have e := w.owner
  cases v
  · exact ⟨w.dirRst, w.dirSck, w.dirMosi, w.outRst, rfl, w.engSck, e⟩
  · exact ⟨w.dirRst, w.dirSck, w.dirMosi, w.outRst, w.outSck, rfl, e⟩

theorem Wired.settles {v : Variant} {s t : State} (w : Wired v s) (h : Settles s t) : Wired v t := by
  obtain ⟨d, e, rfl⟩ := (settles_iff _ _).1 h
  exact ⟨w.dirRst, w.dirSck, w.dirMosi, w.outRst, w.outSck, w.engSck, w.owner⟩

theorem swBit_wired {s : State} (w : Wired .sw s) (v : Bool) : Wired .sw (swBit v s) :=
  Wired.settles (s := { s with outSck := false, outMosi := v })
    ⟨w.dirRst, w.dirSck, w.dirMosi, w.outRst, rfl, w.engSck, w.owner⟩ (swBit_settles v s)

theorem engineBit_wired {s : State} (w : Wired .hw s) (v : Bool) : Wired .hw (engineBit v s) := by
  rw [engineBit_state]
  exact ⟨w.dirRst, w.dirSck, w.dirMosi, w.outRst, w.outSck, rfl, w.owner⟩

theorem swBits_coop (k : Nat) (b rx : Byte) {s : State} {c : Coop} (w : Wired .sw s) (ht : s.env.target = .cooperative c) :
    (swBits k b rx s).2.env.target = .cooperative (c.bits k b) := by
  induction k generalizing rx s c with
  | zero => exact ht
  | succ k ih => rw [swBits_succ]; exact ih _ (swBit_wired w _) (swBit_coop w ht _).1

theorem engineBits_coop (k : Nat) (b : Byte) {s : State} {c : Coop} (w : Wired .hw s) (ht : s.env.target = .cooperative c) :
    (engineBits k b s).env.target = .cooperative (c.bits k b) := by
  induction k generalizing s c with
  | zero => exact ht
  | succ k ih => rw [engineBits_succ]; exact ih (engineBit_wired w _) (engineBit_coop w ht _).1

/-- While it listens the target drives the top bit of its answer. -/
theorem Coop.level_answer {c : Coop} (hl : c.listening = true) {a : Byte} (ha : c.answer = some a) :
    c.level = some (a.getLsbD 7) := by simp [Coop.level, hl, ha]

/-- Before the last bit, a clock pulse shifts the answer up. -/
theorem Coop.pulse_answer {c : Coop} {a : Byte} (v : Bool) (ha : c.answer = some a) (hb : c.bitCount + 1 < 8) :
    (c.pulse v).answer = some (a <<< 1) ∧ (c.pulse v).bitCount = c.bitCount + 1 ∧ (c.pulse v).listening = c.listening := by
  simp [Coop.pulse, Coop.onRise, Coop.onFall, hb, ha]

theorem byte_shift_bit (a : Byte) (k j : Nat) (hk : k < 8) (hj : j < k) :
    (a <<< 1).getLsbD (7 - (k - 1 - j)) = a.getLsbD (7 - (k - j)) := by
  have h1 : 7 - (k - 1 - j) < 8 := by omega
  have h2 : ¬ (7 - (k - 1 - j) < 1) := by omega
  rw [BitVec.getLsbD_shiftLeft]
  simp only [h1, h2, decide_true, decide_false, Bool.not_false, Bool.true_and]
  congr 1
  omega

theorem swBits_answer (k : Nat) (b rx : Byte) {s : State} {c : Coop} (w : Wired .sw s) (ht : s.env.target = .cooperative c)
    (hl : c.listening = true) {a : Byte} (ha : c.answer = some a) (hb : c.bitCount + k ≤ 8) (j : Nat) (hj : j < k) :
    (swBits k b rx s).1.getLsbD j = a.getLsbD (7 - (k - 1 - j)) := by
  induction k generalizing rx s c a with
  | zero => omega
  | succ k ih =>
    rw [swBits_succ]
    by_cases e : j = k
    · subst e
      rw [swBits_high j _ _ _ j (Nat.le_refl _) (by omega), Nat.sub_self, shiftInBit_zero,
        (swBit_coop w ht _).2 _ (Coop.level_answer hl ha)]
      congr 1; omega
    · obtain ⟨p1, p2, p3⟩ := Coop.pulse_answer (c := c) (b.getLsbD k) ha (by omega)
      rw [ih _ (swBit_wired w _) (swBit_coop w ht _).1 (p3.trans hl) p1 (by omega) (by omega),
        byte_shift_bit _ _ _ (by omega) (by omega)]
      congr 1

theorem engineBits_answer (k : Nat) (b : Byte) {s : State} {c : Coop} (w : Wired .hw s) (ht : s.env.target = .cooperative c)
    (hl : c.listening = true) {a : Byte} (ha : c.answer = some a) (hb : c.bitCount + k ≤ 8) (j : Nat) (hj : j < k) :
    (engineBits k b s).engShift.getLsbD j = a.getLsbD (7 - (k - 1 - j)) := by
  induction k generalizing s c a with
  | zero => omega
  | succ k ih =>
    rw [engineBits_succ]
    by_cases e : j = k
    · subst e
      rw [engineBits_high j _ _ j (Nat.le_refl _) (by omega), Nat.sub_self, engineBit_engShift, shiftInBit_zero,
        (engineBit_coop w ht _).2 _ (Coop.level_answer hl ha)]
      congr 1; omega
    · obtain ⟨p1, p2, p3⟩ := Coop.pulse_answer (c := c) (b.getLsbD k) ha (by omega)
      rw [ih (engineBit_wired w _) (engineBit_coop w ht _).1 (p3.trans hl) p1 (by omega) (by omega),
        byte_shift_bit _ _ _ (by omega) (by omega)]
      congr 1

/-- `Transmit` at a byte boundary of the target: it receives the byte and answers with what it presents (R56). -/
theorem transmit_coop {v : Variant} {s : State} {c : Coop} (b : Byte) (h : live v s = true) (w : Wired v s)
    (ht : s.env.target = .cooperative c) (hl : c.listening = true) (hb : c.bitCount = 0) (hs : c.shiftIn = 0) :
    ∃ r t, transmit v b s = .returned r t ∧ Sent v b r s t ∧ t.env.target = .cooperative (c.receive b) ∧ Wired v t ∧
      (∀ a, c.answer = some a → r = a) := by
  cases v with
  | sw =>
    have st := transmitSw_sent b s
    have k : (transmitSw b s).2.env.target = .cooperative (c.receive b) :=
      (swBits_coop 8 b 0x00 w ht).trans (congrArg _ (Coop.bits_eight b c hb hs))
    have q : ∀ a, c.answer = some a → (transmitSw b s).1 = a := fun a ha => byte_ext fun j hj =>
      (swBits_answer 8 b 0x00 w ht hl ha (by omega) j hj).trans (by rw [show 7 - (8 - 1 - j) = j by omega])
    have e : transmit .sw b s =
      .returned (transmitSw b s).1 ((transmitSw b s).2.log (.byte b (transmitSw b s).1)) := rfl
    rw [e]
    generalize transmitSw b s = x at st k q
    exact ⟨_, _, rfl, st, k, (w.afterByte _ _).settles st.settles, q⟩
  | hw =>
    have e : s.engineEnabled = true := h
    have st := transfer_sent b s
    have wl : Wired .hw (engineLoaded b s) := ⟨w.dirRst, w.dirSck, w.dirMosi, w.outRst, w.outSck, w.engSck, w.owner⟩
    have hl' : (engineLoaded b s).env.target = .cooperative c := ht
    have k : (s.transfer b).readData.env.target = .cooperative (c.receive b) :=
      (engineBits_coop 8 b wl hl').trans (congrArg _ (Coop.bits_eight b c hb hs))
    have q : ∀ a, c.answer = some a → (s.transfer b).data = a := fun a ha => byte_ext fun j hj =>
      (engineBits_answer 8 b wl hl' hl ha (by omega) j hj).trans (by rw [show 7 - (8 - 1 - j) = j by omega])
    have e' : transmit .hw b s =
        .returned (s.transfer b).data ((s.transfer b).readData.log (.byte b (s.transfer b).data)) := by
      simp only [transmit, transmitHw, e, if_true, Run.bind]
    rw [e']
    generalize s.transfer b = x at st k q
    exact ⟨_, _, rfl, st, k, (w.afterByte _ _).settles st.settles, q⟩

/-- A byte leaves the target at a byte boundary and listening. -/
theorem Coop.receive_boundary (c : Coop) (b : Byte) :
    (c.receive b).bitCount = c.bitCount ∧ (c.receive b).shiftIn = c.shiftIn ∧ (c.receive b).listening = c.listening := by
  have fr : ∀ a, (c.readFlash a).2.bitCount = c.bitCount ∧ (c.readFlash a).2.shiftIn = c.shiftIn ∧
      (c.readFlash a).2.listening = c.listening := by
    intro a
    unfold Coop.readFlash
    split
    · split <;> exact ⟨rfl, rfl, rfl⟩
    · exact ⟨rfl, rfl, rfl⟩
  have ff : ∀ b1 b2 b3, (c.fourthAnswer b1 b2 b3).2.bitCount = c.bitCount ∧
      (c.fourthAnswer b1 b2 b3).2.shiftIn = c.shiftIn ∧ (c.fourthAnswer b1 b2 b3).2.listening = c.listening := by
    intro b1 b2 b3
    unfold Coop.fourthAnswer
    split
    · exact fr _
    · split
      · exact fr _
      · split <;> exact ⟨rfl, rfl, rfl⟩
  have fe : ∀ b1 b2 b3 b4, (c.execute b1 b2 b3 b4).bitCount = c.bitCount ∧
      (c.execute b1 b2 b3 b4).shiftIn = c.shiftIn ∧ (c.execute b1 b2 b3 b4).listening = c.listening := by
    intro b1 b2 b3 b4
    unfold Coop.execute Coop.writeFlash Coop.writePage
    repeat' split
    all_goals exact ⟨rfl, rfl, rfl⟩
  unfold Coop.receive
  split
  · exact ⟨rfl, rfl, rfl⟩
  · exact ⟨rfl, rfl, rfl⟩
  · dsimp only
    split
    · exact ff _ _ _
    · exact ⟨rfl, rfl, rfl⟩
  · dsimp only
    split
    · exact fe _ _ _ _
    · exact ⟨rfl, rfl, rfl⟩

/-! ### One command, and a session -/

theorem InSession.wired {v : Variant} {c : Coop} {s : State} (h : InSession v c s) : Wired v s := by
  refine ⟨h.dirRst, h.dirSck, h.dirMosi, h.outRst, h.outSck, h.engSck, ?_⟩
  cases v with
  | sw => rw [h.engineOff rfl]; rfl
  | hw =>
    have l := h.live
    simp only [Machine.live, State.engineEnabled, Bool.and_eq_true] at l
    exact l.1

theorem Coop.fourthAnswer_fields (c : Coop) (b1 b2 b3 : Byte) :
    (c.fourthAnswer b1 b2 b3).2.progMode = c.progMode ∧ (c.fourthAnswer b1 b2 b3).2.listening = c.listening ∧
      (c.fourthAnswer b1 b2 b3).2.bitCount = c.bitCount ∧ (c.fourthAnswer b1 b2 b3).2.shiftIn = c.shiftIn := by
  have fr : ∀ a, (c.readFlash a).2.progMode = c.progMode ∧ (c.readFlash a).2.listening = c.listening ∧
      (c.readFlash a).2.bitCount = c.bitCount ∧ (c.readFlash a).2.shiftIn = c.shiftIn := by
    intro a
    unfold Coop.readFlash
    split
    · split <;> exact ⟨rfl, rfl, rfl, rfl⟩
    · exact ⟨rfl, rfl, rfl, rfl⟩
  unfold Coop.fourthAnswer
  split
  · exact fr _
  · split
    · exact fr _
    · split <;> exact ⟨rfl, rfl, rfl, rfl⟩

theorem Coop.execute_fields (c : Coop) (b1 b2 b3 b4 : Byte) :
    (c.execute b1 b2 b3 b4).progMode = c.progMode ∧ (c.execute b1 b2 b3 b4).listening = c.listening ∧
      (c.execute b1 b2 b3 b4).bitCount = c.bitCount ∧ (c.execute b1 b2 b3 b4).shiftIn = c.shiftIn := by
  unfold Coop.execute Coop.writeFlash Coop.writePage
  repeat' split
  all_goals exact ⟨rfl, rfl, rfl, rfl⟩

/-- `execute` reads neither the answer nor the bytes received. -/
theorem Coop.execute_with (c : Coop) (b1 b2 b3 b4 : Byte) (l : List Byte) (x : Option Byte) :
    ({ c with received := l, answer := x } : Coop).execute b1 b2 b3 b4 =
      { c.execute b1 b2 b3 b4 with received := l, answer := x } := by
  unfold Coop.execute Coop.writeFlash Coop.writePage
  repeat' split
  all_goals rfl

theorem Coop.fourthAnswer_with (c : Coop) (b1 b2 b3 : Byte) (l : List Byte) (x : Option Byte) (p : Bool) :
    ({ c with received := l, answer := x, progMode := p } : Coop).fourthAnswer b1 b2 b3 =
      ((c.fourthAnswer b1 b2 b3).1, { (c.fourthAnswer b1 b2 b3).2 with received := l, answer := x, progMode := p }) := by
  have fr : ∀ a, ({ c with received := l, answer := x, progMode := p } : Coop).readFlash a =
      ((c.readFlash a).1, { (c.readFlash a).2 with received := l, answer := x, progMode := p }) := by
    intro a
    unfold Coop.readFlash
    dsimp only
    split
    · split <;> rfl
    · rfl
  unfold Coop.fourthAnswer
  split
  · exact fr _
  · split
    · exact fr _
    · split <;> rfl

/-- Four bytes from a command boundary in programming mode are one command (R56). -/
theorem Coop.four_bytes (c : Coop) (w : WireWord) (hp : c.progMode = true) (hr : c.received = []) :
    ((((c.receive (wireByte w 0)).receive (wireByte w 1)).receive (wireByte w 2)).receive (wireByte w 3)) = c.command w ∧
      (c.receive (wireByte w 0)).answer = some (wireByte w 0) ∧
      ((c.receive (wireByte w 0)).receive (wireByte w 1)).answer = some (wireByte w 1) ∧
      (((c.receive (wireByte w 0)).receive (wireByte w 1)).receive (wireByte w 2)).answer = some (c.data w) := by
  have e1 : c.receive (wireByte w 0) = { c with received := [wireByte w 0], answer := some (wireByte w 0) } := by
    simp [Coop.receive, hr, hp]
  have e2 : (c.receive (wireByte w 0)).receive (wireByte w 1) =
      { c with received := [wireByte w 1, wireByte w 0], answer := some (wireByte w 1), progMode := true } := by
    rw [e1]; simp [Coop.receive, hp]
  have e3 : ((c.receive (wireByte w 0)).receive (wireByte w 1)).receive (wireByte w 2) =
      { (c.fourthAnswer (wireByte w 0) (wireByte w 1) (wireByte w 2)).2 with
        received := [wireByte w 2, wireByte w 1, wireByte w 0], answer := some (c.data w), progMode := true } := by
    rw [e2]
    unfold Coop.receive
    simp only [if_true, Coop.fourthAnswer_with]
    rfl
  refine ⟨?_, by rw [e1], by rw [e2], by rw [e3]⟩
  rw [e3]
  have pm := (Coop.fourthAnswer_fields c (wireByte w 0) (wireByte w 1) (wireByte w 2)).1
  unfold Coop.command
  generalize (c.fourthAnswer (wireByte w 0) (wireByte w 1) (wireByte w 2)).2 = d at pm ⊢
  have dp : ({ d with progMode := true } : Coop) = d := by rw [← hp, ← pm]
  unfold Coop.receive
  simp only [if_true]
  have k := Coop.execute_with { d with progMode := true } (wireByte w 0) (wireByte w 1) (wireByte w 2) (wireByte w 3)
    [wireByte w 2, wireByte w 1, wireByte w 0] (some (c.data w))
  refine Eq.trans (congrArg (fun x : Coop => { x with received := [], answer := none, firstCommand := false }) k) ?_
  rw [dp]

/-- One wire command at a byte boundary of a listening target: it receives the four bytes and answers each with what it
presents (R56, R69). -/
theorem exchange_coop {v : Variant} {c : Coop} {s : State} (w : WireWord) (l : live v s = true) (k : Wired v s)
    (ht : s.env.target = .cooperative c) (hl : c.listening = true) (hb : c.bitCount = 0) (hs : c.shiftIn = 0) :
    ∃ r t, exchange v w s = .returned r t ∧ Exchanged v w r s t ∧ Wired v t ∧
      t.env.target = .cooperative
        ((((c.receive (wireByte w 0)).receive (wireByte w 1)).receive (wireByte w 2)).receive (wireByte w 3)) ∧
      (∀ a, (c.receive (wireByte w 0)).answer = some a → r.r2 = a) ∧
      (∀ a, ((c.receive (wireByte w 0)).receive (wireByte w 1)).answer = some a → r.r3 = a) ∧
      (∀ a, (((c.receive (wireByte w 0)).receive (wireByte w 1)).receive (wireByte w 2)).answer = some a → r.r4 = a) := by
  have B := fun (d : Coop) (b : Byte) => Coop.receive_boundary d b
  obtain ⟨r1, s1, e1, h1, t1, w1, -⟩ := transmit_coop (wireByte w 0) l k ht hl hb hs
  have b1 := B c (wireByte w 0)
  have l1 := h1.live.trans l
  obtain ⟨r2, s2, e2, h2, t2, w2, a2⟩ := transmit_coop (wireByte w 1) l1 w1 t1 (b1.2.2.trans hl)
    (b1.1.trans hb) (b1.2.1.trans hs)
  have b2 := B (c.receive (wireByte w 0)) (wireByte w 1)
  have l2 := h2.live.trans l1
  obtain ⟨r3, s3, e3, h3, t3, w3, a3⟩ := transmit_coop (wireByte w 2) l2 w2 t2
    (b2.2.2.trans (b1.2.2.trans hl)) (b2.1.trans (b1.1.trans hb)) (b2.2.1.trans (b1.2.1.trans hs))
  have b3 := B ((c.receive (wireByte w 0)).receive (wireByte w 1)) (wireByte w 2)
  have l3 := h3.live.trans l2
  obtain ⟨r4, s4, e4, h4, t4, w4, a4⟩ := transmit_coop (wireByte w 3) l3 w3 t3
    (b3.2.2.trans (b2.2.2.trans (b1.2.2.trans hl))) (b3.1.trans (b2.1.trans (b1.1.trans hb)))
    (b3.2.1.trans (b2.2.1.trans (b1.2.1.trans hs)))
  obtain ⟨r, t, e, st⟩ := exchange_live w l
  have e' : exchange v w s = .returned ⟨r1, r2, r3, r4⟩ { s4 with resp := ⟨r1, r2, r3, r4⟩ } := by
    simp [exchange, Run.bind, e1, e2, e3, e4]
  rw [e'] at e
  injection e with er et
  subst er
  refine ⟨_, t, by rw [e', et], st, ?_, ?_, a2, a3, a4⟩
  · rw [← et]
    exact ⟨w4.dirRst, w4.dirSck, w4.dirMosi, w4.outRst, w4.outSck, w4.engSck, w4.owner⟩
  · rw [← et]; exact t4

/-- One wire command of a session (R56): the echo, the data, and the session goes on. -/
theorem exchange_session {v : Variant} {c : Coop} {s : State} (w : WireWord) (h : InSession v c s) :
    ∃ r t, exchange v w s = .returned r t ∧ Exchanged v w r s t ∧ InSession v (c.command w) t ∧
      r.r2 = wireByte w 0 ∧ r.r3 = wireByte w 1 ∧ r.r4 = c.data w := by
  obtain ⟨f0, f1, f2, f3⟩ := Coop.four_bytes c w h.progMode h.received
  obtain ⟨r, t, e, st, wt, tt, a2, a3, a4⟩ := exchange_coop w h.live h.wired h.target h.listening h.bitCount h.shiftIn
  rw [f0] at tt
  refine ⟨r, t, e, st, ?_, a2 _ f1, a3 _ f2, a4 _ f3⟩
  have hk := st.settles
  have ff := Coop.fourthAnswer_fields c (wireByte w 0) (wireByte w 1) (wireByte w 2)
  have fe := Coop.execute_fields (c.fourthAnswer (wireByte w 0) (wireByte w 1) (wireByte w 2)).2 (wireByte w 0)
    (wireByte w 1) (wireByte w 2) (wireByte w 3)
  exact {
    bound := by rw [hk]; cases v <;> exact h.bound
    live := st.live.trans h.live
    engineOff := fun hv => by rw [hk]; subst hv; exact h.engineOff rfl
    dirRst := wt.dirRst
    dirSck := wt.dirSck
    dirMosi := wt.dirMosi
    outRst := wt.outRst
    outSck := wt.outSck
    engSck := wt.engSck
    target := tt
    listening := fe.2.1.trans (ff.2.1.trans h.listening)
    progMode := fe.1.trans (ff.1.trans h.progMode)
    received := rfl
    bitCount := fe.2.2.1.trans (ff.2.2.1.trans h.bitCount)
    shiftIn := fe.2.2.2.trans (ff.2.2.2.trans h.shiftIn)
    answer := rfl }

/-! ### SetSpeed and the reset pulse, seen by the target -/

/-- The three lines driven and at rest. -/
structure AtRest (s : State) : Prop where
  dirRst : s.dirRst = true
  dirSck : s.dirSck = true
  dirMosi : s.dirMosi = true
  outRst : s.outRst = false
  outSck : s.outSck = false
  engSck : s.engSck = false

theorem setCtrl_coop {s : State} {c : Coop} (h : AtRest s) (ht : s.env.target = .cooperative c) (x : Byte) :
    (s.setCtrl x).env.target = .cooperative c := by
  rw [State.setCtrl_env_target, ht]
  apply observe_still
  · simp [State.wire, h.dirRst, h.outRst]
  · simp [State.wire, h.dirRst, h.outRst]
  · simp [State.wire, h.dirSck, h.outSck, h.engSck]

theorem setSetting_coop {s : State} {c : Coop} (h : AtRest s) (ht : s.env.target = .cooperative c) (o : Setting) :
    (setSetting o s).env.target = .cooperative c := by
  unfold setSetting
  split
  · split
    · exact setCtrl_coop (s := { s with xport := .hw, swDelay := _, status := _, engMosi := _ }) ⟨h.1, h.2, h.3, h.4, h.5, h.6⟩ ht _
    · exact ht
  · exact setCtrl_coop (s := { s with xport := .sw, swDelay := _ }) ⟨h.1, h.2, h.3, h.4, h.5, h.6⟩ ht _

/-- A reset pulse on lines at rest: the target starts anew (R45, R126). -/
theorem pulseReset_coop {s : State} {c : Coop} (h : AtRest s) (ht : s.env.target = .cooperative c) :
    s.pulseReset.env.target = .cooperative c.leaveReset.enterReset := by
  have w1 : (s.setLine .rst true).wire = ⟨some true, some false, s.wire.mosi⟩ := by
    simp [State.wire, h.dirRst, h.dirSck, h.outSck, h.engSck]
  have w0 : s.wire = ⟨some false, some false, s.wire.mosi⟩ := by
    simp [State.wire, h.dirRst, h.dirSck, h.outSck, h.engSck, h.outRst]
  have e1 : (s.setLine .rst true).env.target = .cooperative c.leaveReset := by
    rw [State.setLine_env_target, ht, w1, w0]
    simp [Target.observe, Coop.onReset, Coop.onClock]
  have e2 : ((s.setLine .rst true).wait params.resetPulseUnits).env.target = .cooperative c.leaveReset := by
    rw [State.wait_env_target, e1]
  have w2 : ((s.setLine .rst true).wait params.resetPulseUnits).wire = ⟨some true, some false, s.wire.mosi⟩ := by
    rw [wait_settles]; exact w1
  have w3 : s.pulseReset.wire = ⟨some false, some false, s.wire.mosi⟩ := by
    rw [pulseReset_settles]; simp [State.wire, h.dirRst, h.dirSck, h.outSck, h.engSck]
  unfold State.pulseReset at w3 ⊢
  rw [State.setLine_env_target, e2, w2, w3]
  simp [Target.observe, Coop.onReset, Coop.onClock]

/-- Programming Enable as the first command after the reset edge (R56). -/
theorem reset_bytes (c : Coop) :
    let d := c.leaveReset.enterReset
    ((((d.receive 0xAC).receive 0x53).receive 0x00).receive 0x00) = { d with progMode := true, firstCommand := false } ∧
    (d.receive 0xAC).answer = some 0xAC ∧ ((d.receive 0xAC).receive 0x53).answer = some 0x53 := by
  refine ⟨rfl, rfl, rfl⟩

end Sys2Proof.Machine
end

