-- ==== Sys2Proof/Laws/Commands.lean ====
section
/-! SUPPORT. What the commands of the memory operations do in a session with the cooperative target, said once (R47, R56,
R184). -/

namespace Sys2Proof.Machine

/-- A session does not depend on these registers. -/
theorem InSession.keeps {v : Variant} {c : Coop} {s t : State} (h : InSession v c s)
    (k : Settles { s with
      busy := t.busy, rc := t.rc, pos := t.pos, hiaddr := t.hiaddr, retries := t.retries, winStart := t.winStart,
      hsState := t.hsState, resp := t.resp } t)
    (e : t.env.target = s.env.target) : InSession v c t := by
  have e' := e.trans h.target
  rw [k] at e' ⊢
  exact { h with target := e', live := by have := h.live; cases v <;> exact this }

theorem session_busy {v : Variant} {c : Coop} {s : State} (h : InSession v c s) : InSession v c { s with busy := true } :=
  InSession.keeps h rfl rfl

theorem session_ret {v : Variant} {c : Coop} {s : State} (x : Byte) (h : InSession v c s) :
    InSession v c (returnedWith x s) :=
  InSession.keeps h rfl rfl

theorem session_wait {v : Variant} {c : Coop} {s : State} (n : Nat) (h : InSession v c s) : InSession v c (s.wait n) := by
  refine InSession.keeps h ?_ (State.wait_env_target n s)
  have := wait_settles n s
  rw [this]; rfl

theorem eeAddress_eq (a : EeAddr) : Coop.eeAddress (eeHigh a) (eeLow a) = a.toNat := by
  unfold Coop.eeAddress eeHigh eeLow
  congr 1
  apply BitVec.eq_of_getLsbD_eq
  intro i hi
  rw [BitVec.getLsbD_append]
  by_cases h : i < 8
  · simp [h]
  · have : i - 8 < 8 := by omega
    have e : 8 + (i - 8) = i := by omega
    simp [h, this, e]

theorem wireBytes (a b c d : Byte) : wireByte (wireWord a b c d) 0 = a ∧ wireByte (wireWord a b c d) 1 = b ∧
    wireByte (wireWord a b c d) 2 = c ∧ wireByte (wireWord a b c d) 3 = d :=
  ⟨wireByte_wireWord_0 _ _ _ _, wireByte_wireWord_1 _ _ _ _, wireByte_wireWord_2 _ _ _ _, wireByte_wireWord_3 _ _ _ _⟩

theorem command_readEeprom (c : Coop) (a : EeAddr) : c.data (readEepromWord a) = c.eeprom.read a.toNat ∧
    c.command (readEepromWord a) = { c with received := [], answer := none, firstCommand := false } := by
  obtain ⟨w0, w1, w2, w3⟩ := wireBytes 0xA0 (eeHigh a) (eeLow a) 0x00
  unfold Coop.data Coop.command
  rw [readEepromWord, w0, w1, w2, w3]
  refine ⟨?_, rfl⟩
  rw [← eeAddress_eq]; rfl

theorem command_writeEeprom (c : Coop) (a : EeAddr) (d : Byte) : c.command (writeEepromWord a d) =
    { c with eeprom := c.eeprom.write a.toNat d, received := [], answer := none, firstCommand := false } := by
  obtain ⟨w0, w1, w2, w3⟩ := wireBytes 0xC0 (eeHigh a) (eeLow a) d
  unfold Coop.command
  rw [writeEepromWord, w0, w1, w2, w3, ← eeAddress_eq]; rfl

/-- The cell the flash words of `address` name to the target. -/
def Coop.cell (c : Coop) (a : FlashAddr) : Nat := c.flashAddress (flashHigh a) (flashLow a) (a.getLsbD 0)

theorem byteSelect_cases (a : FlashAddr) : byteSelect a = if a.getLsbD 0 then 0x08 else 0x00 := by
  have : a &&& 1 = if a.getLsbD 0 then 1 else 0 := by
    apply BitVec.eq_of_getLsbD_eq; intro i hi
    by_cases z : i = 0
    · subst z; cases h : a.getLsbD 0 <;> simp_all
    · cases h : a.getLsbD 0 <;> simp [BitVec.getLsbD_one, z]
  unfold byteSelect; rw [this]; cases a.getLsbD 0 <;> rfl

theorem command_readFlash (c : Coop) (a : FlashAddr) : c.data (readFlashWord a) = (c.readFlash (c.cell a)).1 ∧
    c.command (readFlashWord a) =
      { (c.readFlash (c.cell a)).2 with received := [], answer := none, firstCommand := false } := by
  obtain ⟨w0, w1, w2, w3⟩ := wireBytes (0x20 ||| byteSelect a) (flashHigh a) (flashLow a) 0x00
  unfold Coop.data Coop.command Coop.cell
  rw [readFlashWord, w0, w1, w2, w3, byteSelect_cases]
  cases a.getLsbD 0 <;> exact ⟨rfl, rfl⟩

theorem command_writeFlash (c : Coop) (a : FlashAddr) (d : Byte) :
    c.command (writeFlashWord a d) =
      { c.writeFlash (c.cell a) d with received := [], answer := none, firstCommand := false } := by
  obtain ⟨w0, w1, w2, w3⟩ := wireBytes (0x40 ||| byteSelect a) (flashHigh a) (flashLow a) d
  unfold Coop.command Coop.cell
  rw [writeFlashWord, w0, w1, w2, w3, byteSelect_cases]
  cases a.getLsbD 0 <;> rfl

theorem command_loadExt (c : Coop) (h : Byte) :
    c.command (loadExtWord h) =
      { c with extended := h, received := [], answer := none, firstCommand := false } := by
  obtain ⟨w0, w1, w2, w3⟩ := wireBytes 0x4D 0x00 h 0x00
  unfold Coop.command
  rw [loadExtWord, w0, w1, w2, w3]; rfl

theorem command_writePage (c : Coop) (a : FlashAddr) :
    c.command (writePageWord a) = { c.writePage (c.flashAddress (flashHigh a) (flashLow a) false) with
      received := [], answer := none, firstCommand := false } := by
  obtain ⟨w0, w1, w2, w3⟩ := wireBytes 0x4C (flashHigh a) (flashLow a) 0x00
  unfold Coop.command
  rw [writePageWord, w0, w1, w2, w3]; rfl

/-- What a flash command of a session finds: the target after the Address Tracker. -/
def tracked (c : Coop) (a : FlashAddr) (hi : Byte) : Coop := if extByte a = hi then c else c.command (loadExtWord (extByte a))

/-- With the address's own extended byte, the cell is the byte the address names (R46). -/
theorem Coop.cell_offset {c : Coop} {a : FlashAddr} (h : c.extended = extByte a) : c.cell a = flashOffset a := by
  unfold Coop.cell Coop.flashAddress flashOffset
  rw [h]
  have e : (extByte a ++ flashHigh a ++ flashLow a : BitVec 24) = a.extractLsb' 1 24 := by
    apply BitVec.eq_of_getLsbD_eq
    intro i hi
    rw [BitVec.getLsbD_append, BitVec.getLsbD_append]
    unfold extByte flashHigh flashLow
    simp only [BitVec.getLsbD_extractLsb', BitVec.getLsbD_setWidth, BitVec.getLsbD_ushiftRight]
    by_cases h1 : i < 8
    · simp [h1, hi]
    · by_cases h2 : i - 8 < 8
      · have : 9 + (i - 8) = 1 + i := by omega
        simp [h1, h2, hi, this]
      · have h3 : i - 8 - 8 < 8 := by omega
        have : 17 + (i - 8 - 8) = 1 + i := by omega
        simp [h1, h2, h3, hi, this]
  show (extByte a ++ flashHigh a ++ flashLow a : BitVec 24).toNat * 2 + _ = _
  rw [e]
  have h0 : (if a.getLsbD 0 = true then 1 else 0) = a.toNat % 2 := by
    simp only [BitVec.getLsbD, Nat.testBit_zero]
    by_cases k : a.toNat % 2 = 1
    · simp [k]
    · simp [k]; omega
  rw [h0]
  simp only [BitVec.extractLsb'_toNat, Nat.shiftRight_eq_div_pow]
  omega

/-- The Address Tracker changes nothing of the target but its extended byte, which is the address's own afterwards where the
cache agreed with it (R47, R160). -/
theorem tracked_fields (c : Coop) (a : FlashAddr) (hi : Byte) :
    (tracked c a hi).flash = c.flash ∧ (tracked c a hi).eeprom = c.eeprom ∧ (tracked c a hi).pageBuffer = c.pageBuffer ∧
      (tracked c a hi).pageSize = c.pageSize ∧ (tracked c a hi).latency = c.latency ∧
      (tracked c a hi).inProgress = c.inProgress ∧
      (extByte a ≠ hi ∨ c.extended = hi → (tracked c a hi).extended = extByte a) := by
  unfold tracked
  split
  · rename_i e
    exact ⟨rfl, rfl, rfl, rfl, rfl, rfl, fun k => k.elim (fun q => absurd e q) (fun q => q.trans e.symm)⟩
  · rw [command_loadExt]; exact ⟨rfl, rfl, rfl, rfl, rfl, rfl, fun _ => rfl⟩

theorem flashCommand_session {v : Variant} {c : Coop} {s : State} (a : FlashAddr) (w : WireWord) (h : InSession v c s) :
    ∃ r t, flashCommand v a w s = .returned r t ∧ InSession v ((tracked c a s.hiaddr).command w) t ∧
      r.r4 = (tracked c a s.hiaddr).data w ∧ t.hiaddr = extByte a ∧ t.host = s.host ∧ t.busy = s.busy ∧ t.pos = s.pos := by
  have fr : ∀ {r w} {s t : State}, Exchanged v w r s t → t.hiaddr = s.hiaddr ∧ t.host = s.host ∧ t.busy = s.busy ∧
    t.pos = s.pos := by
    intro r w s t k; rw [k.settles]; cases v <;> exact ⟨rfl, rfl, rfl, rfl⟩
  unfold tracked
  by_cases e : extByte a = s.hiaddr
  · obtain ⟨r, t, ht, st, i, -, -, r4⟩ := exchange_session w h
    obtain ⟨f1, f2, f3, f4⟩ := fr st
    rw [if_pos e]
    exact ⟨r, t, by simp [flashCommand, updateExtended, e, ht], i, r4, f1.trans e.symm, f2, f3, f4⟩
  · obtain ⟨r0, u, hu, su, iu, -⟩ := exchange_session (loadExtWord (extByte a))
      (InSession.keeps (t := { s with hiaddr := extByte a }) h rfl rfl)
    obtain ⟨r, t, ht, st, i, -, -, r4⟩ := exchange_session w iu
    obtain ⟨f1, f2, f3, f4⟩ := fr st
    obtain ⟨g1, g2, g3, g4⟩ := fr su
    rw [if_neg e]
    exact ⟨r, t, by simp [flashCommand, updateExtended, e, loadExtended, hu, ht], i, r4, f1.trans g1, f2.trans g2,
      f3.trans g3, f4.trans g4⟩

end Sys2Proof.Machine
end

