-- ==== Sys2Proof/Laws/Kept.lean ====
section
/-! SUPPORT. What each operation does to the invariant: the part of it that does not speak of the position, and the
position an operation is left at. -/

namespace Sys2Proof.Machine

/-- The invariant without the position. -/
abbrev InvCore (s : State) : Prop := RegistersLegal s ∧ (s.speed ≠ params.idxAuto → speedBoundTo s = true) ∧
  LinesAtRest s ∧ s.env.target.wf = true

/-- The registers the invariant reads, but for STATUS and the engine. -/
structure Same (s t : State) : Prop where
  speed : t.speed = s.speed
  ctrl : t.ctrl = s.ctrl
  xport : t.xport = s.xport
  hsState : t.hsState = s.hsState
  swDelay : t.swDelay = s.swDelay
  outRst : t.outRst = s.outRst
  dirRst : t.dirRst = s.dirRst
  dirSck : t.dirSck = s.dirSck
  dirMosi : t.dirMosi = s.dirMosi
  pullupMiso : t.pullupMiso = s.pullupMiso
  status : t.status = s.status ∨ t.status = withFlag false s.status
  outSck : t.outSck = s.outSck ∨ t.outSck = false
  engSck : t.engSck = s.engSck ∨ t.engSck = false
  engCount : t.engCount = s.engCount ∨ t.engCount = 0
  wf : s.env.target.wf = true → t.env.target.wf = true

theorem InvCore.same {s t : State} (h : InvCore s) (k : Same s t) : InvCore t := by
  obtain ⟨⟨a1, a2, a3, a4, a5⟩, b, ⟨c1, c2, c3, c4, c5, c6, c7⟩, d⟩ := h
  have st : t.status = s.status := by
    rcases k.status with e | e
    · exact e
    · rw [e, withFlag_false_rest a3]
  refine ⟨⟨by rw [k.speed]; exact a1, by rw [k.ctrl]; exact a2, by rw [st]; exact a3, ?_, ?_⟩, ?_, ⟨?_, ?_, ?_, ?_, ?_,
    ?_, ?_⟩, k.wf d⟩
  · rw [k.xport, k.ctrl]; exact a4
  · rw [k.hsState]; exact a5
  · intro q
    have := b (by rw [← k.speed]; exact q)
    unfold speedBoundTo at *
    rw [k.speed, k.xport, k.swDelay, k.ctrl, st]; exact this
  · rw [k.outRst, c1]
  · rcases k.outSck with e | e <;> simp [e, c2]
  · rcases k.engSck with e | e <;> simp [e, c3]
  · rcases k.engCount with e | e <;> simp [e, c4]
  · rw [k.dirSck, k.dirRst]; exact c5
  · rw [k.dirMosi, k.dirRst]; exact c6
  · rw [k.pullupMiso, k.dirRst]; exact c7

theorem Same.of_afterCommand {v : Variant} {w : WireWord} {r : Response} {s t : State} (h : Settles (afterCommand v w r s) t)
    (wf : s.env.target.wf = true → t.env.target.wf = true) : Same s t := by
  rw [h] at wf ⊢
  cases v with
  | sw => exact ⟨rfl, rfl, rfl, rfl, rfl, rfl, rfl, rfl, rfl, rfl, .inl rfl, .inr rfl, .inl rfl, .inl rfl, wf⟩
  | hw => exact ⟨rfl, rfl, rfl, rfl, rfl, rfl, rfl, rfl, rfl, rfl, .inr rfl, .inl rfl, .inr rfl, .inr rfl, wf⟩

/-- The two parts of the invariant together. -/
theorem Invariant.mk {t : State} (h : InvCore t) (p : positionLegal t = true) : Invariant t := ⟨h.1, h.2.1, h.2.2.1, p,
    h.2.2.2⟩

theorem Invariant.core {t : State} (h : Invariant t) : InvCore t := ⟨h.1, h.2.1, h.2.2.1, h.2.2.2.2⟩

theorem Same.returned {s t : State} (x : Byte) (h : Same s t) : Same s (returnedWith x t) := by
  obtain ⟨a1,a2,a3,a4,a5,a6,a7,a8,a9,a10,a11,a12,a13,a14,a15⟩ := h
  exact ⟨a1,a2,a3,a4,a5,a6,a7,a8,a9,a10,a11,a12,a13,a14,a15⟩

theorem inv_returned {s t : State} (x : Byte) (h : InvCore s) (k : Same s t) : Invariant (returnedWith x t) :=
  Invariant.mk (h.same (k.returned x)) rfl

theorem position_polling {t : State} {a : FlashAddr} {m : Byte} (p : t.pos = .polling a m) (b : t.busy = true)
    (r : ready t = true)
    (h : 1 ≤ t.retries.toNat ∧ t.retries.toNat ≤ 30) : positionLegal t = true := by simp [positionLegal, p, b, r, h]

theorem position_hung {t : State} (p : t.pos = .hung) (b : t.busy = true) (x : t.xport = .hw) (e : t.engineEnabled = false) :
    positionLegal t = true := by simp [positionLegal, p, b, x, e]

theorem inv_hung {s : State} (h : InvCore s) (d : Byte) (hb : Byte) (hx : s.xport = .hw) (he : s.engineEnabled = false) :
   Invariant { s with data := d, pos := .hung, hiaddr := hb, busy := true } := by
  refine Invariant.mk (h.same ⟨rfl, rfl, rfl, rfl, rfl, rfl, rfl, rfl, rfl, rfl, .inl rfl, .inl rfl, .inl rfl, .inl rfl,
    id⟩) ?_
  exact position_hung rfl rfl hx he

theorem ctrlEnabled_legal (p : BitVec 2) : ctrlLegal (ctrlEnabled p) = true := by revert p; decide

theorem inv_setSetting {s : State} (h : InvCore s) {o : Setting} (k : o.toNat ≤ 12) : InvCore (setSetting o s) := by
  have b := setSetting_bound k s
  have wf := (setSetting_target o s).wf h.2.2.2
  obtain ⟨⟨a1, a2, a3, a4, a5⟩, -, c, d⟩ := h
  by_cases hw : isHardware o = true
  · obtain ⟨row, hr⟩ := hwRow_some hw k
    have e := setSetting_hardware hw hr s
    rw [e] at b wf ⊢
    exact ⟨⟨k, ctrlEnabled_legal row.presc, withDbl_rest _ a3, fun q => absurd rfl q, a5⟩, fun _ => b, c, wf⟩
  · have e := setSetting_software (by simpa using hw) s
    rw [e] at b wf ⊢
    exact ⟨⟨k, rfl, a3, fun _ => rfl, a5⟩, fun _ => b, c, wf⟩

theorem inv_connect {s : State} (h : InvCore s) : InvCore (connect s) := by
  have wf := (connect_target s).wf h.2.2.2
  obtain ⟨a, b, ⟨c1, c2, c3, c4, c5, c6, c7⟩, d⟩ := h
  rw [connect_settles s] at wf ⊢
  exact ⟨a, b, ⟨rfl, rfl, c3, c4, rfl, rfl, rfl⟩, wf⟩

theorem inv_disconnect {s : State} (h : InvCore s) : InvCore (disconnect s) := by
  have wf := (disconnect_target s).wf h.2.2.2
  obtain ⟨⟨a1, a2, a3, a4, a5⟩, b, ⟨c1, c2, c3, c4, c5, c6, c7⟩, d⟩ := h
  rw [disconnect_settles s] at wf ⊢
  exact ⟨⟨by show (0 : Setting).toNat ≤ 12; decide, rfl, a3, fun _ => rfl, a5⟩, fun q => absurd rfl q, ⟨rfl, rfl, c3, c4,
    rfl, rfl, rfl⟩, wf⟩

theorem inv_loop {s t : State} {n : Nat} (hn : n ≤ 12) (h1 : 1 ≤ n) {rs : List Response} {rc : Byte} (h : InvCore s)
    (L : LoopOutcome n rs s t rc) : InvCore t := by
  obtain ⟨⟨a1, a2, a3, a4, a5⟩, b, ⟨c1, c2, c3, c4, c5, c6, c7⟩, d⟩ := h
  have f := L.frame
  have lines : LinesAtRest t := ⟨L.outRst, f.outSck c2, f.engSck c3, f.engCount c4, by rw [f.dirSck, f.dirRst]; exact c5,
    by rw [f.dirMosi, f.dirRst]; exact c6, by rw [f.pullupMiso, f.dirRst]; exact c7⟩
  refine ⟨?_, ?_, lines, f.target.wf d⟩
  · rcases L.outcome with ⟨h1, h2, h3, h4, h5, h6, h7, h8, -⟩ | ⟨g1, h2, h3, h4, h5, h6⟩
    · refine ⟨by omega, ?_, f.rest a3, h8, .inr (.inl h2)⟩
      by_cases hx : t.xport = .hw
      · unfold speedBoundTo at h3
        split at h3
        · split at h3
          · simp only [Bool.and_eq_true, decide_eq_true_eq] at h3
            rw [h3.1.2]; exact ctrlEnabled_legal _
          · cases h3
        · simp [hx] at h3
      · rw [h8 hx]; rfl
    · obtain ⟨q1, q2, q3, q4⟩ := h6 h1
      exact ⟨by rw [h3]; decide, by rw [q3]; rfl, f.rest a3, fun _ => q3, .inr (.inr h2)⟩
  · rcases L.outcome with ⟨h1, h2, h3, -⟩ | ⟨g1, h2, h3, h4, h5, h6⟩
    · exact fun _ => h3
    · exact fun q => absurd h3 q

theorem inv_busy {s : State} (h : InvCore s) (b : Bool) : InvCore { s with busy := b } :=
  h.same ⟨rfl, rfl, rfl, rfl, rfl, rfl, rfl, rfl, rfl, rfl, .inl rfl, .inl rfl, .inl rfl, .inl rfl, id⟩

theorem inv_hi {s : State} (h : InvCore s) (b : Byte) : InvCore { s with hiaddr := b } :=
  h.same ⟨rfl, rfl, rfl, rfl, rfl, rfl, rfl, rfl, rfl, rfl, .inl rfl, .inl rfl, .inl rfl, .inl rfl, id⟩

/-- A wire command. -/
theorem inv_exchange {s : State} (h : InvCore s) {v : Variant} (hv : xportVariant s.xport = some v) (w : WireWord) :
    Invariant ((exchange v w { s with busy := true }).finishWire) := by
  have hb := inv_busy h true
  by_cases l : live v s = true
  · obtain ⟨r, t, e, st⟩ := exchange_live (v := v) (s := { s with busy := true }) w (by cases v <;> exact l)
    rw [e, Run.finishWire_returned]
    have k := hb.same (Same.of_afterCommand st.settles st.wf)
    exact Invariant.mk (k.same ⟨rfl, rfl, rfl, rfl, rfl, rfl, rfl, rfl, rfl, rfl, .inl rfl, .inl rfl, .inl rfl, .inl rfl,
      id⟩) rfl
  · obtain ⟨rfl, hx, he⟩ := not_live hv l
    rw [exchange_hung (v := .hw) (s := { s with busy := true }) w he, Run.finishWire_inside]
    exact inv_hung h (wireByte w 0) s.hiaddr hx he

/-- An operation that sends one command and then goes on. -/
theorem inv_after_exchange {s : State} (h : InvCore s) {v : Variant} (hv : xportVariant s.xport = some v) (w : WireWord)
    (f : Response → State → Run Byte) (hf : ∀ r t, InvCore t → Invariant (f r t).finish) :
    Invariant ((exchange v w { s with busy := true }).bind f).finish := by
  have hb := inv_busy h true
  by_cases l : live v s = true
  · obtain ⟨r, t, e, st⟩ := exchange_live (v := v) (s := { s with busy := true }) w (by cases v <;> exact l)
    rw [e, Run.bind_returned]
    exact hf r t (hb.same (Same.of_afterCommand st.settles st.wf))
  · obtain ⟨rfl, hx, he⟩ := not_live hv l
    rw [exchange_hung (v := .hw) (s := { s with busy := true }) w he, Run.bind_inside, Run.finish_inside]
    exact inv_hung h (wireByte w 0) s.hiaddr hx he

theorem inv_after_flash {s : State} (h : InvCore s) {v : Variant} (hv : xportVariant s.xport = some v) (a : FlashAddr)
    (w : WireWord)
    (f : Response → State → Run Byte) (hf : ∀ r t, InvCore t → xportVariant t.xport = some v → live v t = true → t.busy =
      true → Invariant (f r t).finish) :
    Invariant ((flashCommand v a w { s with busy := true }).bind f).finish := by
  have hb := inv_busy h true
  by_cases l : live v s = true
  · obtain ⟨load, r, t, e, st⟩ := flashCommand_live (v := v) (s := { s with busy := true }) a w (by cases v <;> exact l)
    rw [e, Run.bind_returned]
    refine hf r t ((inv_hi hb (extByte a)).same (Same.of_afterCommand st.settles st.wf)) ?_ (st.live.trans (by cases v
      <;> exact l)) ?_
    · rw [st.settles]; cases v <;> exact hv
    · rw [st.settles]; cases v <;> rfl
  · obtain ⟨rfl, hx, he⟩ := not_live hv l
    rw [flashCommand_hung (v := .hw) (s := { s with busy := true }) a w he, Run.bind_inside, Run.finish_inside]
    exact inv_hung h _ (extByte a) hx he

theorem inv_wait {t : State} (h : InvCore t) (n : Nat) : InvCore (t.wait n) := by
  have wf := (wait_target n t).wf h.2.2.2
  refine h.same ?_
  rw [wait_settles n t] at wf ⊢
  exact ⟨rfl, rfl, rfl, rfl, rfl, rfl, rfl, rfl, rfl, rfl, .inl rfl, .inl rfl, .inl rfl, .inl rfl, fun _ => wf⟩

theorem inv_ret {t : State} (h : InvCore t) (x : Byte) : Invariant (returnedWith x t) :=
  inv_returned x h ⟨rfl, rfl, rfl, rfl, rfl, rfl, rfl, rfl, rfl, rfl, .inl rfl, .inl rfl, .inl rfl, .inl rfl, id⟩

theorem ready_settles {u t : State} (h : Settles u t) : ready t = ready u := by
  obtain ⟨d, e, rfl⟩ := (settles_iff _ _).1 h; rfl

theorem ready_afterFlash (v : Variant) (a : FlashAddr) (w : WireWord) (r : Response) (s : State) :
    ready (afterFlash v a w r s) = ready s := by
  cases v <;> rfl

theorem inv_iterated {s : State} (h : InvCore s) {v : Variant} (hv : xportVariant s.xport = some v) (l : live v s = true)
    (hb : s.busy = true) (hr : s.retries.toNat ≤ 30) (h0 : s.retries ≠ 0) (a : FlashAddr) (m : Byte) :
      Invariant (pollIteration v a m s).finish := by
  have wf := (pollIteration_target (v := v) a m l).wf h.2.2.2
  have rd := ready_of_live hv l
  have n0 : s.retries.toNat ≠ 0 := fun k => h0 (BitVec.eq_of_toNat_eq k)
  obtain ⟨load, r, hh⟩ := pollIteration_live (v := v) a m l h0
  generalize (pollIteration v a m s).finish = t at *
  have sm : ∀ r, Same s { afterFlash v a (readFlashWord a) r s with delayStart := t.delayStart, env := t.env } := by
    intro r
    cases v with
    | sw => exact ⟨rfl, rfl, rfl, rfl, rfl, rfl, rfl, rfl, rfl, rfl, .inl rfl, .inr rfl, .inl rfl, .inl rfl, fun _ => wf⟩
    | hw => exact ⟨rfl, rfl, rfl, rfl, rfl, rfl, rfl, rfl, rfl, rfl, .inr rfl, .inl rfl, .inr rfl, .inr rfl, fun _ => wf⟩
  have k := h.same (sm r)
  have kk : ∀ (w : Tick) (q : BitVec 5) (p : Position) (b : Bool) (c : Byte),
      InvCore { afterFlash v a (readFlashWord a) r s with
        delayStart := t.delayStart, env := t.env, winStart := w, retries := q, pos := p, busy := b, rc := c } :=
    fun w q p b c =>
    k.same ⟨rfl, rfl, rfl, rfl, rfl, rfl, rfl, rfl, rfl, rfl, .inl rfl, .inl rfl, .inl rfl, .inl rfl, id⟩
  have bz : (afterFlash v a (readFlashWord a) r s).busy = true := by cases v <;> exact hb
  have rz : (afterFlash v a (readFlashWord a) r s).retries = s.retries := by cases v <;> rfl
  have rdy := (ready_afterFlash v a (readFlashWord a) r s).trans rd
  rcases hh with ⟨-, e, -⟩ | ⟨-, x, -, e, -⟩ | ⟨-, x, y, -, h1, e, -⟩ | ⟨-, x, y, -, h1, e, -⟩
  · rw [e]; exact Invariant.mk (kk _ _ _ _ _) rfl
  · rw [e]
    refine Invariant.mk (kk _ _ _ _ _) ?_
    exact position_polling rfl bz rdy (by show 1 ≤ (afterFlash v a (readFlashWord a) r s).retries.toNat ∧
      (afterFlash v a (readFlashWord a) r s).retries.toNat ≤ 30; rw [rz]; omega)
  · rw [e]
    refine Invariant.mk (kk _ _ _ _ _) ?_
    have n1 : s.retries.toNat ≠ 1 := fun k => h1 (BitVec.eq_of_toNat_eq k)
    exact position_polling rfl bz rdy (by show 1 ≤ (s.retries - 1).toNat ∧ (s.retries - 1).toNat ≤ 30; simp; omega)
  · rw [e]; exact Invariant.mk (kk _ _ _ _ _) rfl

theorem inv_poll {t : State} (h : InvCore t) {v : Variant} (hv : xportVariant t.xport = some v) (l : live v t = true)
    (hb : t.busy = true) (a : FlashAddr) (m : Byte) :
    Invariant (pollFlash v a m t).finish := by
  unfold pollFlash
  have st := afterTick_settles t
  have wf : t.afterTick.env.target.wf = true := by rw [State.afterTick_env_target]; exact h.2.2.2
  generalize t.env.reading = x
  refine inv_iterated (h.same ?_) (v := v) ?_ ?_ ?_ ?_ ?_ a m
  · rw [st] at wf ⊢
    exact ⟨rfl, rfl, rfl, rfl, rfl, rfl, rfl, rfl, rfl, rfl, .inl rfl, .inl rfl, .inl rfl, .inl rfl, fun _ => wf⟩
  · rw [st]; exact hv
  · rw [st]; cases v
    · rfl
    · exact l
  · rw [st]; exact hb
  · show params.pollBudget.toNat ≤ 30; decide
  · show params.pollBudget ≠ 0; decide

end Sys2Proof.Machine
end

