-- ==== Sys2Proof/Laws/Oracle.lean ====
section
/-! SUPPORT. An oracle whose next samples are scripted: the byte received is the byte the script spells (R55, R103). -/

namespace Sys2Proof.Machine

/-- The levels of the bits `k - 1` down to 0 of `x`, as a script. -/
def scriptOf : Nat → Byte → List Drive
  | 0, _ => []
  | k + 1, x => .driven (x.getLsbD k) :: scriptOf k x

theorem sampled_oracle {s : State} {v : Bool} {rest : List Drive} (h : s.env.target = .oracle) (m : s.env.miso =
    .driven v :: rest) :
    s.sampled = v := by simp [State.sampled, Env.misoLevel, Env.drive, Env.oracleDrive, h, m]

theorem swBit_oracle {s : State} {x : Bool} {rest : List Drive} (v : Bool) (h : s.env.target = .oracle) (m : s.env.miso =
    .driven x :: rest) :
    swSample v s = x ∧ (swBit v s).env.target = .oracle ∧ (swBit v s).env.miso = rest := by
  have h1 : (s.setLine .mosi v).env.target = .oracle := by simp [h, Target.observe]
  have m1 : (s.setLine .mosi v).env.miso = .driven x :: rest := by simp [m]
  refine ⟨sampled_oracle h1 m1, ?_, ?_⟩
  · simp [swBit, h, Target.observe]
  · simp [swBit, Env.asksOracle, h, m, Target.observe]

theorem engineBit_oracle {s : State} {x : Bool} {rest : List Drive} (v : Bool) (h : s.env.target = .oracle)
    (m : s.env.miso = .driven x :: rest) :
    hwSample v s = x ∧ (engineBit v s).env.target = .oracle ∧ (engineBit v s).env.miso = rest := by
  have h1 : ((s.engineMosi v).engineSck true).env.target = .oracle := by simp [h, Target.observe]
  have m1 : ((s.engineMosi v).engineSck true).env.miso = .driven x :: rest := by simp [m]
  refine ⟨sampled_oracle h1 m1, ?_, ?_⟩
  · simp [engineBit, h, Target.observe]
  · simp [engineBit, Env.asksOracle, h, m, Target.observe]

theorem swBits_oracle (k : Nat) (b rx x : Byte) {s : State} {rest : List Drive} (h8 : k ≤ 8) (h : s.env.target = .oracle)
    (m : s.env.miso = scriptOf k x ++ rest) :
    (∀ j, j < k → (swBits k b rx s).1.getLsbD j = x.getLsbD j) ∧ (swBits k b rx s).2.env.miso = rest := by
  induction k generalizing rx s with
  | zero => exact ⟨by omega, m⟩
  | succ k ih =>
    obtain ⟨a, t, q⟩ := swBit_oracle (b.getLsbD k) h m
    rw [swBits_succ, a]
    obtain ⟨i1, i2⟩ := ih (shiftInBit rx (x.getLsbD k)) (by omega) t q
    refine ⟨fun j hj => ?_, i2⟩
    by_cases e : j = k
    · subst e; rw [swBits_high j _ _ _ j (Nat.le_refl _) (by omega), Nat.sub_self, shiftInBit_zero]
    · exact i1 j (by omega)

theorem engineBits_oracle (k : Nat) (b x : Byte) {s : State} {rest : List Drive} (h8 : k ≤ 8) (h : s.env.target = .oracle)
    (m : s.env.miso = scriptOf k x ++ rest) :
    (∀ j, j < k → (engineBits k b s).engShift.getLsbD j = x.getLsbD j) ∧ (engineBits k b s).env.miso = rest := by
  induction k generalizing s with
  | zero => exact ⟨by omega, m⟩
  | succ k ih =>
    obtain ⟨a, t, q⟩ := engineBit_oracle (b.getLsbD k) h m
    rw [engineBits_succ]
    obtain ⟨i1, i2⟩ := ih (by omega) t q
    refine ⟨fun j hj => ?_, i2⟩
    by_cases e : j = k
    · subst e; rw [engineBits_high j _ _ j (Nat.le_refl _) (by omega), Nat.sub_self, engineBit_engShift, shiftInBit_zero, a]
    · exact i1 j (by omega)

theorem answers_one (x : Byte) : answers [x] = scriptOf 8 x := rfl

end Sys2Proof.Machine
end

