-- ==== Sys2Proof/Laws/PerInstr.lean ====
section
/-! SUPPORT. Statements for every instruction, by cases: its encoding has exactly as many bytes as its format (R69, R81). -/

namespace Sys2Proof.Laws.EncodeWidth

/-- The bytes of `i` are exactly as many as its format says. -/
def Statement (i : Instr) : Prop := (encode i).length = i.format.bytes

theorem progEnable : Statement .progEnable := rfl

theorem loadExtAddr (h : Byte) : Statement (.loadExtAddr h) := rfl

theorem readFlashLo (a b : Byte) : Statement (.readFlashLo a b) := rfl

theorem readFlashHi (a b : Byte) : Statement (.readFlashHi a b) := rfl

theorem writeFlashLo (a b d : Byte) : Statement (.writeFlashLo a b d) := rfl

theorem writeFlashHi (a b d : Byte) : Statement (.writeFlashHi a b d) := rfl

theorem writeFlashPage (a b : Byte) : Statement (.writeFlashPage a b) := rfl

theorem wireReadEeprom (a b : Byte) : Statement (.wireReadEeprom a b) := rfl

theorem wireWriteEeprom (a b d : Byte) : Statement (.wireWriteEeprom a b d) := rfl

theorem setSpeed (option : Setting) : Statement (.setSpeed option) := rfl

theorem connect : Statement .connect := rfl

theorem disconnect : Statement .disconnect := rfl

theorem enterProg : Statement .enterProg := rfl

theorem readFlash (address : FlashAddr) : Statement (.readFlash address) := rfl

theorem writeFlash (address : FlashAddr) (data pollMode : Byte) : Statement (.writeFlash address data pollMode) := rfl

theorem flushPage (address : FlashAddr) (pollValue : Byte) : Statement (.flushPage address pollValue) := rfl

theorem readEeprom (address : EeAddr) : Statement (.readEeprom address) := rfl

theorem writeEeprom (address : EeAddr) (data : Byte) : Statement (.writeEeprom address data) := rfl

end Sys2Proof.Laws.EncodeWidth
end

