-- ==== Sys2Proof/Tests/Slice0.lean ====
section
/-! SUPPORT. Tests: expected results are worked from the spec's vectors (spec/95_test_vectors.md, cited V..) or from the bit
patterns of spec/30_encoding.md; and a witness for the hypotheses of every obligation. -/

namespace Sys2Proof.Tests

open Sys2Proof Sys2Proof.Machine

/-! ### Well-formedness: the one check, and its ill-formed terms (R84) -/

theorem test_wellFormed_setSpeed : (Instr.setSpeed 12).wellFormed = true := by decide

theorem test_illFormed_setSpeed_13 : (Instr.setSpeed 13).wellFormed = false := by decide

theorem test_illFormed_setSpeed_15 : (Instr.setSpeed 15).wellFormed = false := by decide

/-! ### Decoding: one word of every row, written out from its pattern (R72 to R81; V30-1, V30-2) -/

theorem test_decode_progEnable : decodeWire 0b10101100_01010011_00000000_00000000#32 = .ok .progEnable := by decide

theorem test_decode_loadExtAddr :
    decodeWire 0b01001101_00000000_00000001_00000000#32 = .ok (.loadExtAddr 0x01) := by decide

theorem test_decode_readFlashLo :
    decodeWire 0b00100000_00000000_00000000_00000000#32 = .ok (.readFlashLo 0x00 0x00) := by decide

theorem test_decode_readFlashHi :
    decodeWire 0b00101000_10010001_10100010_00000000#32 = .ok (.readFlashHi 0x91 0xA2) := by decide

theorem test_decode_writeFlashLo :
    decodeWire 0b01000000_00000000_00000000_10101010#32 = .ok (.writeFlashLo 0x00 0x00 0xAA) := by decide

theorem test_decode_writeFlashHi :
    decodeWire 0b01001000_11111111_11111111_01111111#32 = .ok (.writeFlashHi 0xFF 0xFF 0x7F) := by decide

theorem test_decode_writeFlashPage :
    decodeWire 0b01001100_00000000_01000000_00000000#32 = .ok (.writeFlashPage 0x00 0x40) := by decide

theorem test_decode_wireReadEeprom :
    decodeWire 0b10100000_00000001_11111111_00000000#32 = .ok (.wireReadEeprom 0x01 0xFF) := by decide

theorem test_decode_wireWriteEeprom :
    decodeWire 0b11000000_00000000_00010000_01011010#32 = .ok (.wireWriteEeprom 0x00 0x10 0x5A) := by decide

theorem test_decode_setSpeed : decodeHost 0x0000000000000B#56 = .ok (.setSpeed 11) := by decide

theorem test_decode_connect : decodeHost 0x01FFFFFFFFFFFF#56 = .ok .connect := by decide

theorem test_decode_disconnect : decodeHost 0x02000000000000#56 = .ok .disconnect := by decide

theorem test_decode_enterProg : decodeHost 0x03000000000000#56 = .ok .enterProg := by decide

theorem test_decode_readFlash : decodeHost 0x04000123450000#56 = .ok (.readFlash 0x00012345) := by decide

theorem test_decode_writeFlash : decodeHost 0x0500020000AA01#56 = .ok (.writeFlash 0x00020000 0xAA 1) := by decide

theorem test_decode_flushPage : decodeHost 0x06000000801200#56 = .ok (.flushPage 0x00000080 0x12) := by decide

theorem test_decode_readEeprom : decodeHost 0x07FFFF01FF0000#56 = .ok (.readEeprom 0x01FF) := by decide

theorem test_decode_writeEeprom : decodeHost 0x08000000105A00#56 = .ok (.writeEeprom 0x0010 0x5A) := by decide

/-- V30-1: a reserved option, high bits in `aux`, no such selector. -/
theorem test_decode_refuses : decodeHost 0x0000000000000D#56 = .error .reservedOption ∧
    decodeHost 0x00000000000019#56 = .error .auxHighBits ∧ decodeHost 0x09000000000000#56 = .error .unknownSelector ∧
    decodeHost 0xFF000000000000#56 = .error .unknownSelector := by decide

/-- The table's numbering of bits: the first word, and the only one. -/
theorem test_table_words : decodeTableWord 32 0xAC530000 = some .progEnable ∧
    decodeTableWord 56 0x0000000000000B = some (.setSpeed 11) := by decide

/-! ### States to start from -/

/-- A reading of the next state. -/
def after {α : Type} (o : Host.Outcome State Fault Refusal) (f : State → α) : Option α :=
  match o with
  | .next s => some (f s)
  | .fault _ => none
  | .refused _ => none

theorem next_of_after {o : Host.Outcome State Fault Refusal} {f : State → Bool} (h : after o f = some true) :
    ∃ t, o = .next t ∧ f t = true := by
  cases o with
  | next s => exact ⟨s, rfl, by simpa [after] using h⟩
  | fault r => simp [after] at h
  | refused r => simp [after] at h

/-- An environment with a target and the next readings of the tick counter. -/
def environment (target : Target) (ticks : List Tick) : Env := { Env.fresh with target := target, ticks := ticks }

/-- An oracle that answers the bytes `bs`. -/
def oracleOf (bs : List Byte) : Env := { Env.fresh with miso := answers bs }

/-- Connected, setting 12 bound (V40-1, V42-1), the cached byte 0. -/
def atHardware (e : Env) : State := { State.reset with
  speed := 12, xport := .hw, swDelay := 1, ctrl := 0x50, hiaddr := 0x00, dirRst := true, dirSck := true, dirMosi := true,
  pullupMiso := true, env := e }

/-- Connected, setting 6 bound (V40-1, V42-1), the cached byte 0. -/
def atSoftware (e : Env) : State := { State.reset with
  speed := 6, xport := .sw, swDelay := 3, ctrl := 0x00, hiaddr := 0x00, dirRst := true, dirSck := true, dirMosi := true,
  pullupMiso := true, env := e }

/-- The target of P2 in programming mode, with `latency` reads that show the marker after a write. -/
def target (latency : Nat) : Coop where
  listening := true
  progMode := true
  firstCommand := false
  received := []
  shiftIn := 0
  bitCount := 0
  answer := none
  extended := 0
  flash := [(0, 0x0C), (1, 0x94), (0x20000, 0x77)]
  pageBuffer := []
  eeprom := [(0x10, 0x5A)]
  pageSize := 0
  latency := latency
  inProgress := none

/-- A session at speed 12 with the target of P2. -/
def session (latency : Nat) : State := atHardware (environment (.cooperative (target latency)) [])

/-- The same at a software speed. -/
def softSession : State := atSoftware (environment (.cooperative (target 0)) [])

/-- The same, nobody answering. -/
def alone (ticks : List Tick) : State := atHardware (environment .absent ticks)

/-- The bytes sent, the first one first. -/
def sent (s : State) : List Byte := ((exchanges s.env.trace).map Prod.fst).reverse

/-- The target of P7 with its two bytes loaded, pages of 128 bytes, and segment 1 selected when `ext` is 1. -/
def pagedTarget (ext : Byte) : Coop := { target 0 with pageSize := 0x80, pageBuffer := [(0, 0x12), (1, 0x34)], extended := ext }

/-- A session with it. -/
def pagedSession : State := atHardware (environment (.cooperative (pagedTarget 0)) [0x10])

/-- After `setSpeed(9); disconnect()` (P6): the hardware variant bound, the engine disabled. -/
def cutOff : State := { State.reset with xport := .hw, swDelay := 1, status := 0x01 }

/-! ### The host operations -/

/-- P1: `setSpeed(SCK_1500)` from reset; V40-1, `o` = 1. -/
theorem test_setSpeed :
    after (exec (.setSpeed 11) State.reset) (fun s => (s.speed, s.xport, s.swDelay, s.ctrl, s.status, s.rc)) =
      some (11, .hw, 1, 0x51, 0x01, 0) ∧
    after (exec (.setSpeed 1) State.reset) (fun s => (s.speed, s.xport, s.swDelay, s.ctrl, statusDbl s.status, s.rc)) =
      some (1, .sw, 96, 0x00, false, 0) :=
  ⟨by decide +kernel, by decide +kernel⟩

/-- V42-1: the registers, and RST on the wire: released, 0, 1, 0. Then R123 (a): an engine that has shifted nothing rests at 0
on both lines it owns. -/
theorem test_connect :
    after (exec .connect State.reset) (fun s => (s.dirRst, s.pullupMiso, s.hiaddr, s.speed, s.xport, s.rc)) =
      some (true, true, 0xFF, 0, .none, 0) ∧
    after (exec .connect State.reset) (fun s => (wires s.env.trace).map Wire.rst) =
      some [some false, some true, some false, some false, some false, none, none] ∧
    after (exec .connect { State.reset with speed := 9, xport := .hw, swDelay := 1, ctrl := 0x52, status := 0x01 })
      (fun s => (s.wire.sck, s.wire.mosi)) = some (some false, some false) :=
  ⟨by decide +kernel, by decide +kernel, by decide +kernel⟩

/-- R123 (a), R41: an engine that was off comes up with MOSI at 0, one that was on holds its last bit. -/
theorem test_setSpeed_engine :
    after (exec (.setSpeed 9) { cutOff with engMosi := true }) (fun s => s.engMosi) = some false ∧
    after (exec (.setSpeed 9) { session 0 with engMosi := true }) (fun s => s.engMosi) = some true :=
  ⟨by decide +kernel, by decide +kernel⟩

/-- V42-2: after a session at speed 9 with `hiaddr` = 0x01. -/
theorem test_disconnect :
    after (exec .disconnect { atHardware (environment .absent []) with
        speed := 9, ctrl := 0x52, status := 0x01, hiaddr := 0x01, hsState := .success, tries := 3 })
      (fun s => (s.dirSck, s.ctrl, s.speed, s.xport, s.hiaddr, s.tries)) = some (false, 0x00, 0, .hw, 0x01, 3) := by
  decide +kernel

/-- V43-1, the row "1, never answers"; the row "0, answers at once". -/
theorem test_enterProg :
    after (exec .enterProg { alone [] with speed := 1 })
      (fun s => (s.rc, s.speed, s.xport, s.swDelay, s.hsState, (sent s).length)) = some (1, 0, .sw, 96, .fail, 12) ∧
    after (exec .enterProg { session 0 with speed := 0 })
      (fun s => (s.rc, s.speed, s.hsState, s.tries, sent s)) = some (0, 12, .success, 3, [0xAC, 0x53, 0x00, 0x00]) :=
  ⟨by decide +kernel, by decide +kernel⟩

/-- V45-1: `readFlash(1)`; `readFlash(0x20000)`, with the Load Extended Address before it. -/
theorem test_readFlash :
    after (exec (.readFlash 1) (session 0)) (fun s => (s.rc, sent s)) = some (0x94, [0x28, 0x00, 0x00, 0x00]) ∧
    after (exec (.readFlash 0x20000) (session 0)) (fun s => (s.rc, s.hiaddr, sent s)) =
      some (0x77, 0x01, [0x4D, 0x00, 0x01, 0x00, 0x20, 0x00, 0x00, 0x00]) :=
  ⟨by decide +kernel, by decide +kernel⟩

/-- V45-3: `writeFlash(0x100, 0x55, 1)`, complete at the first read; V45-4: `writeFlash(0x1FFFF, 0x7F, 1)`: the fixed delay, no
read. -/
theorem test_writeFlash :
    after (exec (.writeFlash 0x100 0x55 1) (session 0)) (fun s => (s.rc, s.retries, sent s)) =
      some (0, 30, [0x40, 0x00, 0x80, 0x55, 0x20, 0x00, 0x80, 0x00]) ∧
    after (exec (.writeFlash 0x1FFFF 0x7F 1) (session 0)) (fun s => (s.rc, sent s, ticksWaited s.env.trace)) =
      some (0, [0x48, 0xFF, 0xFF, 0x7F], 900) :=
  ⟨by decide +kernel, by decide +kernel⟩

/-- V45-8: `flushPage(0x80, 0xFF)`; V45-9 (c): the page command has no byte select, the poll has, and the absent target shows the
sentinel; P7, step 3: the page is in the array at the first read; R47: it goes to the segment the extended byte names. -/
theorem test_flushPage :
    after (exec (.flushPage 0x80 0xFF) (session 0)) (fun s => (s.rc, sent s, ticksWaited s.env.trace)) =
      some (0, [0x4C, 0x00, 0x40, 0x00], 900) ∧
    after (exec (.flushPage 0x81 0x34) (alone [0x10, 0x20])) (fun s => (s.busy, s.retries, s.pos, sent s)) =
      some (true, 30, .polling 0x81 0xFF, [0x4C, 0x00, 0x40, 0x00, 0x28, 0x00, 0x40, 0x00]) ∧
    after (exec (.flushPage 0x80 0x12) pagedSession) (fun s => (s.rc, sent s, s.retries)) =
      some (0, [0x4C, 0x00, 0x40, 0x00, 0x20, 0x00, 0x40, 0x00], 30) ∧
    (((pagedTarget 1).execute 0x4C 0x00 0x40 0x00).flash.read 0x20081, ((pagedTarget 1).execute 0x4C 0x00 0x40 0x00).flash.read 0x81) =
      (0x34, 0xFF) :=
  ⟨by decide +kernel, by decide +kernel, by decide +kernel, by decide +kernel⟩

/-- V45-10: `readEEPROM(0x0010)`; `writeEEPROM(0x0010, 0x5A)`, which returns 0 against the absent target all the same. -/
theorem test_eeprom :
    after (exec (.readEeprom 0x0010) (session 0)) (fun s => (s.rc, sent s)) = some (0x5A, [0xA0, 0x00, 0x10, 0x00]) ∧
    after (exec (.writeEeprom 0x0010 0x5A) (alone [])) (fun s => (s.rc, sent s, ticksWaited s.env.trace)) =
      some (0, [0xC0, 0x00, 0x10, 0x5A], 1800) :=
  ⟨by decide +kernel, by decide +kernel⟩

/-! ### The wire commands by themselves (R56, R69) -/

/-- The nine wire commands in the order of the table: the echo, the data of a read, the bytes sent. -/
theorem test_wire_commands :
    after (exec .progEnable (session 0)) (fun s => (s.resp.r2, s.resp.r3, s.rc)) = some (0xAC, 0x53, 0) ∧
    after (exec (.loadExtAddr 0x01) (session 0)) (fun s => (s.hiaddr, sent s)) = some (0x01, [0x4D, 0x00, 0x01, 0x00]) ∧
    after (exec (.readFlashLo 0x00 0x00) softSession) (fun s => s.resp.r4) = some 0x0C ∧
    after (exec (.readFlashHi 0x00 0x00) softSession) (fun s => s.resp.r4) = some 0x94 ∧
    after (exec (.writeFlashLo 0x00 0x80 0x55) (session 0)) sent = some [0x40, 0x00, 0x80, 0x55] ∧
    after (exec (.writeFlashHi 0x00 0x40 0x34) (session 0)) sent = some [0x48, 0x00, 0x40, 0x34] ∧
    after (exec (.writeFlashPage 0x00 0x40) (session 0)) sent = some [0x4C, 0x00, 0x40, 0x00] ∧
    after (exec (.wireReadEeprom 0x01 0xFF) (session 0)) (fun s => s.resp.r4) = some 0xFF ∧
    after (exec (.wireWriteEeprom 0x00 0x10 0x5A) (session 0)) sent = some [0xC0, 0x00, 0x10, 0x5A] :=
  ⟨by decide +kernel, by decide +kernel, by decide +kernel, by decide +kernel, by decide +kernel,
    by decide +kernel, by decide +kernel, by decide +kernel, by decide +kernel⟩

/-! ### Operations -/

/-- V41-2: `TransmitSw(0x53)`, samples 1 0 1 0 1 1 0 0; V41-3 (a): `TransmitHw(0x53)`; V41-4, the second row:
`n` = 60, start 0xF0. -/
theorem test_transmit_delay :
    ((transmitSw 0x53 (atSoftware (oracleOf [0xAC]))).1, (transmitSw 0x53 (atSoftware (oracleOf [0xAC]))).2.outMosi) =
      (0xAC, true) ∧
    ((atHardware (oracleOf [0xAC])).transfer 0x53).data = 0xAC ∧
    statusFlag ((atHardware (oracleOf [0xAC])).transfer 0x53).readData.status = false ∧
    ((alone [0xF0, 0xF8, 0x10, 0x2B, 0x2C, 0x99]).delayTicks 60).env.ticks = [0x99] :=
  ⟨by decide +kernel, by decide +kernel, by decide +kernel, by decide +kernel⟩

/-- V45-6: the window test is strict, modulo 256. -/
theorem test_window : (params.unitTicks < elapsed 0x4C 0x10) = False ∧ params.unitTicks < elapsed 0x4D 0x10 ∧
    params.unitTicks < elapsed 0x2D 0xF0 ∧ ¬ params.unitTicks < elapsed 0x2C 0xF0 := by decide +kernel

/-- V44-8, V44-9: bit 25 is not looked at; 0xFE is. -/
theorem test_extByte : extByte 0x02000000 = 0x00 ∧ extByte 0x01FC0000 = 0xFE ∧ extByte 0x01FE0000 = 0xFF := by decide

/-- The relations of R4's table between its own rows: N_SW = N_TOTAL - N_HW, UNIT_TICKS * T_TICK = T_UNIT. -/
theorem test_params : params.nSw = params.nTotal - params.nHw ∧ params.hwTable.length = params.nHw ∧
    params.idxMax.toNat = params.nTotal ∧ params.unitTicks.toNat * params.tickMicros.1 = params.unitMicros * params.tickMicros.2 ∧
    (params.tickWidth, params.flashAddrWidth, params.eeAddrWidth) = (8, 32, 16) := by decide

/-- V30-3: the divisors. -/
theorem test_divisors : [divisor 0 false, divisor 1 true, divisor 1 false, divisor 2 true, divisor 2 false, divisor 3 false] =
    [4, 8, 16, 32, 64, 128] := by decide

/-- V70-1: a memory operation from reset is refused, connected or not. -/
theorem test_unbound : exec (.readFlash 0) State.reset = .refused .transmitUnbound := rfl

/-- P6: the read after `setSpeed(9); disconnect()` hangs. -/
theorem test_hang :
    after (exec (.readFlash 0) cutOff) (fun s => (s.busy, s.pos, s.data, s.env.trace)) = some (true, .hung, 0x20, []) := by
  decide +kernel

/-- The step fetches and runs the word presented, as the first instruction after reset. -/
theorem test_step_first :
    after (step (State.reset.withFetchWord 56 0x0000000000000B)) (fun s => (s.speed, s.cmd, s.host.request)) =
      some (11, 0x0000000000000B, none) := by decide +kernel

/-! ### Witnesses: the hypotheses of every obligation are met together -/

/-- DecodeEncode, DecodeEncodeBytes: a well-formed instruction of each format, and both boundary speed options. -/
theorem witness_wellFormed : (Instr.setSpeed 0).wellFormed = true ∧ (Instr.setSpeed 12).wellFormed = true ∧
    (Instr.writeFlash 0xFFFFFFFF 0xFF 0xFF).wellFormed = true ∧ (Instr.writeFlashHi 0xFF 0xFF 0xFF).wellFormed = true := by
  decide

/-- WireWordOfDecoded, DecodedWellFormed: words that decode. -/
theorem witness_decoded : decodeWire 0x4D000100 = .ok (.loadExtAddr 0x01) ∧
    decodeWord (.host 0x0000000000000C) = .ok (.setSpeed 12) ∧ decodeWord (.wire 0xAC530000) = .ok .progEnable := by decide

/-- SetSpeedHardware, SetSpeedSoftware, SetSpeedAuto, SetSpeedReserved, ConnectResult, DisconnectResult: an idle block, and
the rows at the ends of the two tables and of the reserved range. -/
theorem witness_idle : State.reset.busy = false ∧
    ((12 : Setting), (0 : BitVec 2), false) ∈ [((12 : Setting), (0 : BitVec 2), false), (11, 1, true), (10, 1, false),
      (9, 2, true), (8, 2, false), (7, 3, false)] ∧
    ((7 : Setting), (3 : BitVec 2), false) ∈ [((12 : Setting), (0 : BitVec 2), false), (11, 1, true), (10, 1, false),
      (9, 2, true), (8, 2, false), (7, 3, false)] ∧
    ((6 : Setting), (3 : Byte)) ∈ [((6 : Setting), (3 : Byte)), (5, 6), (4, 12), (3, 24), (2, 48), (1, 96)] ∧
    ((1 : Setting), (96 : Byte)) ∈ [((6 : Setting), (3 : Byte)), (5, 6), (4, 12), (3, 24), (2, 48), (1, 96)] ∧
    13 ≤ (13 : Setting).toNat ∧ 13 ≤ (15 : Setting).toNat := by decide

/-- SetSpeedBindsOneVariant, SetSpeedNoClockEdge: SetSpeed completes from reset, with both owners of SCK at 0. -/
theorem witness_setSpeed : (∃ t, exec (.setSpeed 7) State.reset = .next t) ∧ (∃ t, exec (.setSpeed 6) State.reset = .next t) ∧
    State.reset.outSck = false ∧ State.reset.engSck = false := ⟨⟨_, rfl⟩, ⟨_, rfl⟩, rfl, rfl⟩

/-- TransmitSoftwareByte, TransmitHardwareByte: an oracle with a whole byte scripted, and the engine enabled. -/
theorem witness_oracle : (atHardware (oracleOf [0xAC])).engineEnabled = true ∧
    (atHardware (oracleOf [0xAC])).env.target = .oracle ∧
    (atHardware (oracleOf [0xAC])).env.miso = answers [0xAC] ++ [] := by decide

/-- BitOrder: both variants return a byte; a step is taken with the bit clear. -/
theorem witness_transmit : (∃ r t, transmit .sw 0x53 (atSoftware Env.fresh) = .returned r t) ∧
    (∃ r t, transmit .hw 0x53 (atHardware Env.fresh) = .returned r t) ∧
    (∃ t, step State.reset = .next t) ∧ State.reset.ctrl.getLsbD 5 = false := ⟨⟨_, _, rfl⟩, ⟨_, _, rfl⟩, ⟨_, rfl⟩, rfl⟩

/-- VariantsAgree: four scripted bytes for either variant. -/
theorem witness_variants : live .hw (atHardware (oracleOf [0xFF, 0xAC, 0x53, 0x00])) = true ∧
    (atSoftware (oracleOf [0xFF, 0xAC, 0x53, 0x00])).env.target = .oracle ∧
    (atSoftware (oracleOf [0xFF, 0xAC, 0x53, 0x00])).env.miso = answers [0xFF, 0xAC, 0x53, 0x00] ++ [] ∧
    (atHardware (oracleOf [0xFF, 0xAC, 0x53, 0x00])).env.miso = answers [0xFF, 0xAC, 0x53, 0x00] ++ [] := by decide

/-- ReleasedLinesStayReleased: released lines, and a byte of either variant that returns. -/
theorem witness_released : State.reset.dirRst = false ∧ State.reset.dirSck = false ∧ State.reset.dirMosi = false ∧
    (∃ r t, transmit .sw 0x53 State.reset = .returned r t) ∧
    (∃ r t, transmit .hw 0x53 { State.reset with ctrl := 0x50 } = .returned r t) :=
  ⟨rfl, rfl, rfl, ⟨_, _, rfl⟩, ⟨_, _, rfl⟩⟩

/-- HangForEver: the state of P6, and one instruction of each kind. -/
theorem witness_hang : transmits (.readFlash 0) = true ∧ transmits .progEnable = true ∧ cutOff.busy = false ∧
    cutOff.xport = .hw ∧ cutOff.engineEnabled = false ∧ cutOff.host.request = none := by decide

/-- UnboundRefused: reset. -/
theorem witness_unbound : transmits (.writeEeprom 0 0) = true ∧ State.reset.busy = false ∧ State.reset.xport = .none := by
  decide

/-- BusyRefused: a block at work with a host word, or a wire word, presented. -/
theorem witness_busy : ({ State.reset with busy := true }.withFetchWord 56 0).busy = true ∧
    ({ State.reset with busy := true }.withFetchWord 56 0).host.request = some (.host 0) ∧
    ({ State.reset with busy := true }.withFetchWord 32 0).host.request = some (.wire 0) := by decide

/-- DelayTicksReadings: V41-4, the second row; and no early reading at all. -/
theorem witness_delay : (alone [0xF0, 0xF8, 0x10, 0x2B, 0x2C, 0x99]).env.ticks = 0xF0 :: [0xF8, 0x10, 0x2B] ++ 0x2C :: [0x99] ∧
    (∀ t ∈ ([0xF8, 0x10, 0x2B] : List Tick), elapsed t 0xF0 < 60) ∧ ¬ elapsed (0x2C : Tick) 0xF0 < 60 ∧
    (∀ t ∈ ([] : List Tick), elapsed t 0xF0 < 60) ∧ ¬ elapsed (0x2D : Tick) 0xF0 < 60 := by decide

/-- HandshakeTry and every statement of a live bound variant: both variants. -/
theorem witness_live : live .sw softSession = true ∧ live .hw (session 0) = true ∧
    xportVariant softSession.xport = some .sw ∧ xportVariant (session 0).xport = some .hw ∧
    softSession.busy = false ∧ (session 0).busy = false := by decide

/-- A response of a run, read off. -/
def response {α : Type} (r : Run α) (f : α → State → Bool) : Bool :=
  match r with
  | .returned a s => f a s
  | .inside _ => false

theorem returned_of_response {α : Type} {r : Run α} {f : α → State → Bool} (h : response r f = true) :
    ∃ a s, r = .returned a s ∧ f a s = true := by
  cases r with
  | returned a s => exact ⟨a, s, rfl, h⟩
  | inside s => simp [response] at h

/-- TryOutcome: a try that is echoed, and one that is not with tries left. -/
theorem witness_try : (∃ r t, handshakeTry .hw (session 0) = .returned r t ∧ decide (r.r3 = 0x53) = true) ∧
    (∃ r t, handshakeTry .hw { alone [] with tries := 2 } = .returned r t ∧
      decide (r.r3 ≠ 0x53 ∧ 2 ≤ t.tries.toNat) = true) :=
  ⟨returned_of_response (f := fun (r : Response) _ => decide (r.r3 = 0x53)) (by decide +kernel),
    returned_of_response (f := fun (r : Response) t => decide (r.r3 ≠ 0x53 ∧ 2 ≤ t.tries.toNat)) (by decide +kernel)⟩

/-- StepDown: the hardware variant bound, and the other two cases. -/
theorem witness_stepDown : (session 0).xport = .hw ∧ softSession.xport ≠ .hw ∧ State.reset.xport ≠ .hw := by decide

/-- EnterProgOutcome, EnterProgAbsentTarget, EnterProgCooperativeTarget: from reset and from both ends of the settings. -/
theorem witness_enterProg : State.reset.busy = false ∧ State.reset.speed.toNat ≤ 12 ∧ (session 0).speed.toNat = 12 ∧
    (alone []).busy = false ∧ (alone []).speed.toNat ≤ 12 ∧ (alone []).env.target = .absent ∧
    (alone []).pullupMiso = true ∧ (session 0).env.target = .cooperative (target 0) ∧ (session 0).dirRst = true ∧
    (session 0).dirSck = true ∧ (session 0).dirMosi = true ∧ (session 0).outRst = false ∧ (session 0).outSck = false ∧
    (session 0).engSck = false := by decide

/-- UpdateExtended: V44-2 (nothing to send), V44-4 (a command), and the state of P6 (a command that hangs). -/
theorem witness_updateExtended : extByte 0x0001FFFF = (session 0).hiaddr ∧ extByte 0x00020000 ≠ (session 0).hiaddr ∧
    live .hw (session 0) = true ∧ extByte 0x00020000 ≠ cutOff.hiaddr ∧ live .hw cutOff = false := by decide

/-- UpdateExtendedOnce: both cases return, and two addresses of one segment. -/
theorem witness_updateExtendedOnce : (∃ t, updateExtended .hw 0x0001FFFF (session 0) = .returned () t) ∧
    (∃ t, updateExtended .hw 0x00020000 (session 0) = .returned () t) ∧
    (0x00020000 : FlashAddr) >>> 17 = (0x0003FFFF : FlashAddr) >>> 17 := ⟨⟨_, rfl⟩, ⟨_, rfl⟩, by decide⟩

/-- FirstFlashAccessAfterConnect: connected while a variant is bound that completes, then nothing, or a SetSpeed and an
EEPROM read; addresses 0 and 0x01FC0000 (V44-1, V44-9). -/
theorem witness_firstAccess : extByte 0 ≠ 0xFF ∧ extByte 0x01FC0000 ≠ 0xFF ∧
    (∀ i ∈ [Instr.setSpeed 6, Instr.readEeprom 0], runsTracker i = false) ∧
    (∃ t, exec .connect (session 0) = .next t ∧ ((execAll [] t).any
      fun u => !u.busy && decide (xportVariant u.xport = some .hw) && live .hw u) = true) ∧
    (∃ t, exec .connect (session 0) = .next t ∧ ((execAll [.setSpeed 6, .readEeprom 0] t).any
      fun u => !u.busy && decide (xportVariant u.xport = some .sw) && live .sw u) = true) :=
  ⟨by decide, by decide, by decide, next_of_after (by decide +kernel), next_of_after (by decide +kernel)⟩

/-- WhoWritesHiaddr: one instruction of each line of the table completes. -/
theorem witness_whoWrites : (∃ t, exec .connect State.reset = .next t) ∧ (∃ t, exec (.loadExtAddr 1) (session 0) = .next t) ∧
    (∃ t, exec (.readFlash 1) (session 0) = .next t) ∧ (∃ t, exec (.writeFlash 1 2 1) (session 0) = .next t) ∧
    (∃ t, exec (.flushPage 1 2) (session 0) = .next t) ∧ (∃ t, exec (.readEeprom 1) (session 0) = .next t) :=
  ⟨⟨_, rfl⟩, ⟨_, rfl⟩, ⟨_, rfl⟩, ⟨_, rfl⟩, ⟨_, rfl⟩, ⟨_, rfl⟩⟩

/-- ReadFlashResult: two addresses that differ above bit 24 alone. -/
theorem witness_sameAddress :
    (0xFE000001 : FlashAddr).extractLsb' 0 25 = (0x00000001 : FlashAddr).extractLsb' 0 25 := by decide

/-- WriteFlashFixedDelay, WriteFlashPolled, FlushPagePolled: the values at the boundaries. -/
theorem witness_polled : (1 : Byte) ≠ 0 ∧ (0xFF : Byte) ≠ 0 ∧ (0x7E : Byte) ≠ 0x7F ∧ (0x80 : Byte) ≠ 0x7F ∧
    (0xFE : Byte) ≠ 0xFF := by decide

/-- A poll of address 1 for the marker `m` with `n` windows left. -/
def polling (m : Byte) (n : BitVec 5) (readings : List Tick) : State :=
  { alone readings with busy := true, retries := n, pos := .polling 1 m }

/-- PollStep: with a budget and without. -/
theorem witness_pollStep : (polling 0xFF 30 []).busy = true ∧ (polling 0xFF 30 []).host.request = none ∧
    (polling 0xFF 30 []).pos = .polling 1 0xFF ∧ xportVariant (polling 0xFF 30 []).xport = some .hw ∧
    live .hw (polling 0xFF 30 []) = true ∧ (polling 0xFF 30 []).retries ≠ 0 ∧ (polling 0xFF 0 []).retries = 0 := by decide

/-- PollTimesOut: the whole budget of 30, and one window. -/
theorem witness_pollTimesOut : (polling 0xFF 30 []).retries.toNat = 29 + 1 ∧ (polling 0xFF 1 []).retries.toNat = 0 + 1 ∧
    (polling 0xFF 1 []).engineEnabled = true ∧ (polling 0xFF 1 []).env.target = .absent ∧
    (polling 0xFF 1 []).pullupMiso = true ∧ (polling 0xFF 1 []).hiaddr = extByte 1 ∧
    (polling 0xFF 1 [61, 0, 7]).env.ticks =
      (List.replicate (0 + 1) [(polling 0xFF 1 []).winStart + 61, (polling 0xFF 1 []).winStart]).flatten ++ [7] := by decide

/-- WireCommandResult, SessionCommand: a word of a wire command. -/
theorem witness_wireWord : encodeWord .progEnable = .wire 0xAC530000 ∧ encodeWord (.loadExtAddr 0xFF) = .wire 0x4D00FF00 := by
  decide

/-- StepRunsDecoded, StepOtherwise: every way a request is presented to an idle block, or not. -/
theorem witness_step : (State.reset.withFetchWord 56 0x0000000000000B).busy = false ∧
    (State.reset.withFetchWord 56 0x0000000000000B).host.request = some (.host 0x0000000000000B) ∧
    decodeHost 0x0000000000000B = .ok (.setSpeed 11) ∧ (Instr.setSpeed 11).wellFormed = true ∧
    (State.reset.withFetchWord 32 0xAC530000).host.request = some (.wire 0xAC530000) ∧
    decodeWire 0xAC530000 = .ok .progEnable ∧ Instr.progEnable.wellFormed = true ∧
    (decodeHost 0x09000000000000).toOption = none ∧ (decodeWire 0x4D000101).toOption = none ∧
    State.reset.host.request = none ∧ State.reset.host.script = [] := by decide

/-- PowerOnResets: a power-on reset presented to a hung block. -/
theorem witness_powerOn : ({ cutOff with
      busy := true, pos := .hung, host := { request := some (.powerOn ResetDraw.zero), script := [] } } : State).host.request =
    some (.powerOn ResetDraw.zero) := by decide

/-- ResetMeetsInv, StepKeepsInv: the invariant holds at reset, a step is taken; and of the states an operation is left in. -/
theorem witness_invariant : Invariant State.reset ∧ (∃ t, step State.reset = .next t) ∧ Env.fresh.target.wf = true ∧
    Invariant (polling 0xFF 1 []) ∧ Invariant { cutOff with busy := true, pos := .hung } :=
  ⟨by decide, ⟨_, rfl⟩, rfl, by decide, by decide⟩

/-- OutcomeCodes: a host operation that completes at its issue (a run of no step), from a quiet host. -/
theorem witness_outcome : (Instr.writeFlash 0 0x55 1).format = .h56 ∧
    (session 0).host = { request := none, script := [] } ∧
    ∃ t, exec (.writeFlash 0 0x55 1) (session 0) = .next t ∧ (!t.busy) = true :=
  ⟨rfl, rfl, next_of_after (by decide +kernel)⟩

/-- OutcomeCodes, the handshake that fails. -/
theorem witness_outcome_enterProg : ∃ t, exec .enterProg { alone [] with speed := 1 } = .next t ∧
    (!t.busy && decide (t.rc = 1)) = true := next_of_after (by decide +kernel)

/-- OutcomeCodes, the step that ends a poll: with 1 (the last window is gone) and with 0 (another byte is read). -/
theorem witness_outcome_poll : (polling 0xFF 1 [61, 0]).busy = true ∧ (polling 0xFF 1 [61, 0]).host.request = none ∧
    (polling 0xFF 1 [61, 0]).pos = .polling 1 0xFF ∧
    (∃ t, step (polling 0xFF 1 [61, 0]) = .next t ∧ (!t.busy && decide (t.rc = 1)) = true) ∧
    (∃ t, step (polling 0x7F 1 [61, 0]) = .next t ∧ (!t.busy && decide (t.rc = 0)) = true) :=
  ⟨rfl, rfl, rfl, next_of_after (by decide +kernel), next_of_after (by decide +kernel)⟩

/-- A session whose target shows the marker once after a write; the readings never show a window gone by. -/
def polledSession : State := atHardware (environment (.cooperative (target 1)) [0x10, 0x20])

/-- SessionCommand, SessionEeprom, WriteReadRoundTrip: sessions of both variants. -/
theorem witness_session : InSession .hw (target 1) polledSession ∧ InSession .sw (target 0) softSession ∧
    (target 1).flash.wf = true ∧ (target 1).eeprom.wf = true ∧ polledSession.host = { request := none, script := [] } ∧
    (target 1).pageSize = 0 := by
  refine ⟨?_, ?_, by decide, by decide, rfl, rfl⟩
  · constructor <;> first | rfl | decide
  · constructor <;> first | rfl | decide

/-- WriteReadRoundTrip: the write is polled once in vain, and one more step ends it. -/
theorem witness_roundTrip : ∃ t u, exec (.writeFlash 0 0x55 1) polledSession = .next t ∧ core.run 1 t = .next u ∧
    u.busy = false ∧ u.rc = 0 := by
  obtain ⟨t, e, h⟩ := next_of_after (o := exec (.writeFlash 0 0x55 1) polledSession)
    (f := fun t => after (step t) (fun u => !u.busy && decide (u.rc = 0)) = some true) (by decide +kernel)
  obtain ⟨u, k, g⟩ := next_of_after (of_decide_eq_true h)
  refine ⟨t, u, e, run_succ 0 k, ?_⟩
  simpa using g

/-- WriteReadRoundTrip, the pages: a session, a load into the page of address 0x81, and a flush of it that returns 0. -/
theorem witness_roundTrip_page : InSession .hw (pagedTarget 0) pagedSession ∧ pagedSession.busy = false ∧
    pagedSession.host = { request := none, script := [] } ∧ (pagedTarget 0).flash.wf = true ∧
    (pagedTarget 0).pageBuffer.wf = true ∧ (pagedTarget 0).pageSize ≠ 0 ∧ (pagedTarget 0).pageSize % 2 = 0 ∧
    CacheAgrees (pagedTarget 0) 0x81 pagedSession ∧
    flashOffset 0x81 / (pagedTarget 0).pageSize = flashOffset 0x80 / (pagedTarget 0).pageSize ∧
    ∃ t u, exec (.writeFlash 0x81 0x34 0) pagedSession = .next t ∧ exec (.flushPage 0x80 0x12) t = .next u ∧
      core.run 0 u = .next u ∧ u.busy = false ∧ u.rc = 0 := by
  refine ⟨by constructor <;> first | rfl | decide, rfl, rfl, by decide, by decide, by decide, by decide, .inr rfl, by decide, ?_⟩
  obtain ⟨t, e, h⟩ := next_of_after (o := exec (.writeFlash 0x81 0x34 0) pagedSession)
    (f := fun t => after (exec (.flushPage 0x80 0x12) t) (fun u => !u.busy && decide (u.rc = 0)) = some true) (by decide +kernel)
  obtain ⟨u, k, g⟩ := next_of_after (of_decide_eq_true h)
  exact ⟨t, u, e, k, rfl, by simpa using g⟩

end Sys2Proof.Tests
end

section
/-! What one step can do, said once: the cases of fetch (R11, R81, R87, R107, R176, R220, R226), and the two in which a decoded
instruction is run. -/

namespace Sys2Proof.Machine

/-- The state with the presented request taken (log entry 13). -/
def State.taken (s : State) : State := { s with host := { s.host with request := none } }

/-- The state `t` a step from `s` can answer, by what the block finds: a request presented, an operation that has not returned,
or nothing. -/
inductive StepTo (s : State) : State → Prop where
  | powerOn {d : ResetDraw} (presented : s.host.request = some (.powerOn d)) : StepTo s (State.powerOn d s.taken)
  | host {w : HostWord} {i : Instr} {t : State} (presented : s.host.request = some (.host w)) (idle : s.busy = false)
      (decoded : decodeHost w = .ok i) (run : exec i { s.taken with cmd := w } = .next t) : StepTo s t
  | wire {w : WireWord} {i : Instr} {t : State} (presented : s.host.request = some (.wire w)) (idle : s.busy = false)
      (decoded : decodeWire w = .ok i) (run : exec i s.taken = .next t) : StepTo s t
  | poll {v : Variant} {address : FlashAddr} {marker : Byte} (nothing : s.host.request = none) (busy : s.busy = true)
      (polling : s.pos = .polling address marker) (bound : xportVariant s.xport = some v) :
      StepTo s (pollIteration v address marker s).finish
  | wait (nothing : s.host.request = none) (busy : s.busy = true)
      (notPolling : ∀ address marker, s.pos ≠ .polling address marker) : StepTo s s
  | hostMove (nothing : s.host.request = none) (idle : s.busy = false) : StepTo s (hostMove s)

/-- A host word that decodes is run with the word latched (R11, R81). -/
theorem step_host {s : State} {w : HostWord} {i : Instr} (presented : s.host.request = some (.host w)) (idle : s.busy = false)
    (decoded : decodeHost w = .ok i) : step s = exec i { s.taken with cmd := w } := by
  simp [step, fetch, takeRequest, runDecoded, presented, idle, decoded, State.taken]

/-- A wire word that decodes is run (log entry 2). -/
theorem step_wire {s : State} {w : WireWord} {i : Instr} (presented : s.host.request = some (.wire w)) (idle : s.busy = false)
    (decoded : decodeWire w = .ok i) : step s = exec i s.taken := by
  simp [step, fetch, takeRequest, runDecoded, presented, idle, decoded, State.taken]

/-- While an operation runs, an issue is refused (R87). -/
theorem step_busy_host {s : State} {w : HostWord} (presented : s.host.request = some (.host w)) (busy : s.busy = true) :
    step s = .refused .issueWhileBusy := by
  simp [step, fetch, takeRequest, presented, busy]

theorem step_busy_wire {s : State} {w : WireWord} (presented : s.host.request = some (.wire w)) (busy : s.busy = true) :
    step s = .refused .issueWhileBusy := by
  simp [step, fetch, takeRequest, presented, busy]

/-- A word that spells no instruction is refused by name (R84, R85). -/
theorem step_undecodable_host {s : State} {w : HostWord} {e : DecodeError} (presented : s.host.request = some (.host w))
    (idle : s.busy = false) (undecodable : decodeHost w = .error e) : step s = .refused (.undecodable e) := by
  simp [step, fetch, takeRequest, runDecoded, presented, idle, undecodable]

theorem step_undecodable_wire {s : State} {w : WireWord} {e : DecodeError} (presented : s.host.request = some (.wire w))
    (idle : s.busy = false) (undecodable : decodeWire w = .error e) : step s = .refused (.undecodable e) := by
  simp [step, fetch, takeRequest, runDecoded, presented, idle, undecodable]

theorem step_powerOn {s : State} {d : ResetDraw} (presented : s.host.request = some (.powerOn d)) :
    step s = .next (State.powerOn d s.taken) := by
  simp [step, fetch, takeRequest, presented, State.taken]

theorem step_hostMove {s : State} (nothing : s.host.request = none) (idle : s.busy = false) :
    step s = .next (hostMove s) := by
  simp [step, fetch, nothing, idle]

/-- One more iteration of an open poll (R176). -/
theorem step_poll {s : State} {v : Variant} {address : FlashAddr} {marker : Byte} (nothing : s.host.request = none)
    (busy : s.busy = true) (polling : s.pos = .polling address marker) (bound : xportVariant s.xport = some v) :
    step s = .next (pollIteration v address marker s).finish := by
  simp [step, fetch, continueOperation, nothing, busy, polling, bound]

theorem step_poll_unbound {s : State} {address : FlashAddr} {marker : Byte} (nothing : s.host.request = none)
    (busy : s.busy = true) (polling : s.pos = .polling address marker) (unbound : xportVariant s.xport = none) :
    step s = .refused .transmitUnbound := by
  simp [step, fetch, continueOperation, nothing, busy, polling, unbound]

/-- A busy block outside the poll loop stays as it is: the busy-wait that never ends (R107). -/
theorem step_wait {s : State} (nothing : s.host.request = none) (busy : s.busy = true)
    (notPolling : ∀ address marker, s.pos ≠ .polling address marker) : step s = .next s := by
  cases p : s.pos with
  | idle => simp [step, fetch, continueOperation, nothing, busy, p]
  | hung => simp [step, fetch, continueOperation, nothing, busy, p]
  | polling address marker => exact absurd p (notPolling address marker)

theorem stepTo_of_host {s t : State} {w : HostWord} (presented : s.host.request = some (.host w)) (h : step s = .next t) :
    StepTo s t := by
  cases busy : s.busy with
  | true => simp [step_busy_host presented busy] at h
  | false =>
    cases d : decodeHost w with
    | ok i => exact .host presented busy d (step_host presented busy d ▸ h)
    | error e => simp [step_undecodable_host presented busy d] at h

theorem stepTo_of_wire {s t : State} {w : WireWord} (presented : s.host.request = some (.wire w)) (h : step s = .next t) :
    StepTo s t := by
  cases busy : s.busy with
  | true => simp [step_busy_wire presented busy] at h
  | false =>
    cases d : decodeWire w with
    | ok i => exact .wire presented busy d (step_wire presented busy d ▸ h)
    | error e => simp [step_undecodable_wire presented busy d] at h

theorem stepTo_of_busy {s t : State} (nothing : s.host.request = none) (busy : s.busy = true) (h : step s = .next t) :
    StepTo s t := by
  by_cases polling : ∃ address marker, s.pos = .polling address marker
  · obtain ⟨address, marker, p⟩ := polling
    cases bound : xportVariant s.xport with
    | none => simp [step_poll_unbound nothing busy p bound] at h
    | some v =>
      cases (step_poll nothing busy p bound).symm.trans h
      exact .poll nothing busy p bound
  · have notPolling : ∀ address marker, s.pos ≠ .polling address marker := fun a m p => polling ⟨a, m, p⟩
    cases (step_wait nothing busy notPolling).symm.trans h
    exact .wait nothing busy notPolling

/-- A step that answers a next state took one of the ways of `StepTo`. -/
theorem stepTo_of_step {s t : State} (h : step s = .next t) : StepTo s t := by
  cases presented : s.host.request with
  | some r =>
    cases r with
    | host w => exact stepTo_of_host presented h
    | wire w => exact stepTo_of_wire presented h
    | powerOn d =>
      cases (step_powerOn presented).symm.trans h
      exact .powerOn presented
  | none =>
    cases busy : s.busy with
    | true => exact stepTo_of_busy presented busy h
    | false =>
      cases (step_hostMove presented busy).symm.trans h
      exact .hostMove presented busy

/-- Settles O52: both kinds of word are run by their own equation of the step. -/
theorem stepRunsDecoded : Obligations.StepRunsDecoded := by
  intro i s idle _
  exact ⟨fun w presented decoded => step_host presented idle decoded,
    fun w presented decoded => step_wire presented idle decoded⟩

end Sys2Proof.Machine
end

section
/-! SetSpeed leaves exactly one variant bound and active (R13, R18, R92, R93). -/

namespace Sys2Proof.Machine

theorem isHardware_iff (o : Setting) : isHardware o = true ↔ 7 ≤ o.toNat := decide_eq_true_iff

/-- Exactly one variant is bound and active, the one of the setting in `speed` (R13, R18). -/
def OneVariantActive (t : State) : Prop :=
  (t.xport = .hw ↔ 7 ≤ t.speed.toNat) ∧ t.xport ≠ .none ∧ (t.engineEnabled = true ↔ t.xport = .hw) ∧ ctrlLegal t.ctrl = true

theorem setSetting_oneVariantActive {o : Setting} (k : o.toNat ≤ 12) (s : State) : OneVariantActive (setSetting o s) := by
  by_cases hw : isHardware o = true
  · obtain ⟨row, hr⟩ := hwRow_some hw k
    have speed := (isHardware_iff o).1 hw
    have enabled := ctrlEnabled_live row.presc
    rw [setSetting_hardware hw hr s]
    exact ⟨iff_of_true rfl speed, nofun, iff_of_true enabled rfl, ctrlEnabled_legal row.presc⟩
  · have speed := mt (isHardware_iff o).2 hw
    rw [setSetting_software (by simpa using hw) s]
    exact ⟨iff_of_false nofun speed, nofun, iff_of_false (by decide : ¬ (ctrlEn 0x00 && ctrlMstr 0x00) = true) nofun, rfl⟩

/-- Settles O16: the operation returns in the state of `setSetting`, AUTO replaced, and only for a setting up to 12. -/
theorem setSpeedBindsOneVariant : Obligations.SetSpeedBindsOneVariant := by
  intro o s t h
  obtain ⟨-, k, rfl⟩ := execSetSpeed_next h
  exact setSetting_oneVariantActive (mapAuto_le k) _

end Sys2Proof.Machine
end

section
/-! Every step keeps the invariant (R11 to R27, R41, R45, R68, R107, R176): every operation, then every instruction, then every
way of `StepTo`. -/

namespace Sys2Proof.Machine

/-! ### What the rest of the invariant does not read -/

theorem inv_hsIdle {s : State} (h : InvCore s) : InvCore { s with hsState := .idle } := by
  obtain ⟨⟨speed, ctrl, status, engineOff, -⟩, bound, lines, target⟩ := h
  exact ⟨⟨speed, ctrl, status, engineOff, .inl rfl⟩, bound, lines, target⟩

theorem inv_request {s : State} (h : InvCore s) (c : HostWord) (p : HostPort) : InvCore { s with cmd := c, host := p } := h

/-! ### Power-on reset, the host's move and the poll -/

theorem inv_powerOn {s : State} (h : InvCore s) (d : ResetDraw) : Invariant (State.powerOn d s) := by
  obtain ⟨-, -, -, target⟩ := h
  have wf : (State.powerOn d s).env.target.wf = true := Target.observe_wf _ _ target
  refine Invariant.mk ⟨⟨Nat.zero_le 12, rfl, rfl, fun _ => rfl, .inl rfl⟩, fun q => absurd rfl q, ?_, wf⟩ rfl
  exact ⟨rfl, rfl, rfl, rfl, rfl, rfl, rfl⟩

theorem inv_hostMove {s : State} (h : Invariant s) : Invariant (hostMove s) := by
  unfold hostMove
  split
  · exact h
  · exact h

theorem inv_pollStep {s : State} (h : Invariant s) {v : Variant} (bound : xportVariant s.xport = some v) {a : FlashAddr}
    {m : Byte} (polling : s.pos = .polling a m) : Invariant (pollIteration v a m s).finish := by
  have ⟨_, _, _, position, _⟩ := h
  simp only [positionLegal, polling, Bool.and_eq_true, decide_eq_true_eq] at position
  obtain ⟨⟨busy, budget, most⟩, rdy⟩ := position
  obtain ⟨u, hu, l⟩ := ready_variant rdy
  cases Option.some.inj (hu.symm.trans bound)
  have left : s.retries ≠ 0 := fun z => by simp [z] at budget
  exact inv_iterated h.core bound l busy most left a m

/-! ### The operations -/

section
variable {s : State} {v : Variant} (h : InvCore s) (hv : xportVariant s.xport = some v)
include h hv

theorem inv_loadExtended (hb : Byte) : Invariant (loadExtended v hb { s with busy := true }).finishWire :=
  inv_exchange (inv_hi h hb) hv _

theorem inv_readFlash (a : FlashAddr) : Invariant (readFlash v a { s with busy := true }).finish :=
  inv_after_flash h hv a _ _ fun r _ k _ _ _ => inv_ret k r.r4

theorem inv_writeFlash (a : FlashAddr) (d p : Byte) : Invariant (writeFlash v a d p { s with busy := true }).finish := by
  refine inv_after_flash h hv a _ _ fun _ t k bound l busy => ?_
  split
  · exact inv_ret k 0
  · split
    · exact inv_ret (inv_wait k _) 0
    · exact inv_poll k bound l busy a _

theorem inv_flushPage (a : FlashAddr) (p : Byte) : Invariant (flushPage v a p { s with busy := true }).finish := by
  refine inv_after_flash h hv a _ _ fun _ t k bound l busy => ?_
  split
  · exact inv_ret (inv_wait k _) 0
  · exact inv_poll k bound l busy a _

theorem inv_readEeprom (a : EeAddr) : Invariant (readEeprom v a { s with busy := true }).finish :=
  inv_after_exchange h hv _ _ fun r _ k => inv_ret k r.r4

theorem inv_writeEeprom (a : EeAddr) (d : Byte) : Invariant (writeEeprom v a d { s with busy := true }).finish :=
  inv_after_exchange h hv _ _ fun _ _ k => inv_ret (inv_wait k _) 0

end

/-! ### The instructions -/

theorem inv_issueWire {op : Variant → State → Run Response} {s t : State}
    (hop : ∀ v, xportVariant s.xport = some v → Invariant (op v { s with busy := true }).finishWire)
    (e : issueWire op s = .next t) : Invariant t := by
  obtain ⟨-, v, bound, rfl⟩ := issueWire_next e
  exact hop v bound

theorem inv_issueTransmitting {op : Variant → State → Run Byte} {s t : State}
    (hop : ∀ v, xportVariant s.xport = some v → Invariant (op v { s with busy := true }).finish)
    (e : issueTransmitting op s = .next t) : Invariant t := by
  obtain ⟨-, v, bound, rfl⟩ := issueTransmitting_next e
  exact hop v bound

/-- A wire command run by itself that writes no register of its own: all nine but LOAD_EXT_ADDR. -/
theorem inv_wireCommand {s t : State} (h : InvCore s) {w : WireWord} (e : issueWire (fun v u => exchange v w u) s = .next t) :
    Invariant t := inv_issueWire (fun _ bound => inv_exchange h bound w) e

theorem inv_execSetSpeed {s t : State} (h : InvCore s) {o : Setting} (e : execSetSpeed o s = .next t) : Invariant t := by
  obtain ⟨-, k, rfl⟩ := execSetSpeed_next e
  exact inv_ret (inv_setSetting (inv_busy h true) (mapAuto_le k)) 0

theorem inv_execConnect {s t : State} (h : InvCore s) (e : execConnect s = .next t) : Invariant t := by
  obtain ⟨-, rfl⟩ := issueLocal_next e
  exact inv_ret (inv_connect (inv_busy h true)) 0

theorem inv_execDisconnect {s t : State} (h : InvCore s) (e : execDisconnect s = .next t) : Invariant t := by
  obtain ⟨-, rfl⟩ := issueLocal_next e
  exact inv_ret (inv_disconnect (inv_busy h true)) 0

theorem inv_execEnterProg {s t : State} (h : InvCore s) (e : execEnterProg s = .next t) : Invariant t := by
  obtain ⟨-, k, rfl⟩ := execEnterProg_next e
  obtain ⟨least, most⟩ := startSpeed_bounds k
  obtain ⟨_, rc, u, run, outcome⟩ := enterProg_run k
  rw [run]
  exact inv_ret (inv_loop most least (inv_hsIdle (inv_busy h true)) outcome) rc

/-- Every instruction that answers a next state answers one that meets the invariant, wherever the block stood before. -/
theorem exec_keepsInv {i : Instr} {s t : State} (h : InvCore s) (e : exec i s = .next t) : Invariant t := by
  cases i with
  | progEnable => exact inv_wireCommand h e
  | loadExtAddr hb => exact inv_issueWire (fun _ bound => inv_loadExtended h bound hb) e
  | readFlashLo a b => exact inv_wireCommand h e
  | readFlashHi a b => exact inv_wireCommand h e
  | writeFlashLo a b d => exact inv_wireCommand h e
  | writeFlashHi a b d => exact inv_wireCommand h e
  | writeFlashPage a b => exact inv_wireCommand h e
  | wireReadEeprom a b => exact inv_wireCommand h e
  | wireWriteEeprom a b d => exact inv_wireCommand h e
  | setSpeed option => exact inv_execSetSpeed h e
  | connect => exact inv_execConnect h e
  | disconnect => exact inv_execDisconnect h e
  | enterProg => exact inv_execEnterProg h e
  | readFlash address => exact inv_issueTransmitting (fun _ bound => inv_readFlash h bound address) e
  | writeFlash address data pollMode =>
    exact inv_issueTransmitting (fun _ bound => inv_writeFlash h bound address data pollMode) e
  | flushPage address pollValue => exact inv_issueTransmitting (fun _ bound => inv_flushPage h bound address pollValue) e
  | readEeprom address => exact inv_issueTransmitting (fun _ bound => inv_readEeprom h bound address) e
  | writeEeprom address data => exact inv_issueTransmitting (fun _ bound => inv_writeEeprom h bound address data) e

/-! ### The step -/

/-- Settles O56, by the ways a step can take. -/
theorem stepKeepsInv : Obligations.StepKeepsInv := by
  intro s t h e
  cases stepTo_of_step e with
  | powerOn presented => exact inv_powerOn (inv_request h.core _ _) _
  | host presented idle decoded run => exact exec_keepsInv (inv_request h.core _ _) run
  | wire presented idle decoded run => exact exec_keepsInv (inv_request h.core _ _) run
  | poll nothing busy polling bound => exact inv_pollStep h bound polling
  | wait nothing busy notPolling => exact h
  | hostMove nothing idle => exact inv_hostMove h

end Sys2Proof.Machine
end

section
/-! Bit order (R43, R18): both variants send and receive the most significant bit first, and no step sets CTRL.lsbf: what
transmits leaves CTRL alone, and what writes CTRL writes a legal value. -/

namespace Sys2Proof.Machine

/-- The state a run has come to, returned or still inside its pseudocode. -/
def Run.state {α : Type} : Run α → State
  | .returned _ s => s
  | .inside s => s

@[simp] theorem Run.state_returned {α : Type} (a : α) (s : State) : (Run.returned a s).state = s := rfl

@[simp] theorem Run.state_inside {α : Type} (s : State) : (Run.inside s : Run α).state = s := rfl

@[simp] theorem Run.finish_ctrl (r : Run Byte) : r.finish.ctrl = r.state.ctrl := by cases r <;> rfl

@[simp] theorem Run.finishWire_ctrl (r : Run Response) : r.finishWire.ctrl = r.state.ctrl := by cases r <;> rfl

/-- What comes next leaves CTRL alone, so the whole does what came first did. -/
theorem Run.bind_ctrl {α β : Type} (r : Run α) {f : α → State → Run β} (hf : ∀ a s, (f a s).state.ctrl = s.ctrl) :
    (r.bind f).state.ctrl = r.state.ctrl := by
  cases r with
  | returned a s => exact hf a s
  | inside s => rfl

/-! ### What transmits leaves CTRL alone (R104, R106) -/

theorem exchange_ctrl (v : Variant) (w : WireWord) (s : State) : (exchange v w s).state.ctrl = s.ctrl := by
  cases l : live v s with
  | true =>
    obtain ⟨r, t, e, sent⟩ := exchange_live w l
    rw [e, Run.state_returned, sent.settles]
    cases v <;> rfl
  | false => rw [exchange_hung w l, Run.state_inside]

theorem updateExtended_ctrl (v : Variant) (a : FlashAddr) (s : State) : (updateExtended v a s).state.ctrl = s.ctrl := by
  unfold updateExtended
  split
  · rfl
  · exact (Run.bind_ctrl _ fun _ _ => rfl).trans (exchange_ctrl v _ { s with hiaddr := extByte a })

theorem flashCommand_ctrl (v : Variant) (a : FlashAddr) (w : WireWord) (s : State) :
    (flashCommand v a w s).state.ctrl = s.ctrl :=
  (Run.bind_ctrl _ fun _ t => exchange_ctrl v w t).trans (updateExtended_ctrl v a s)

theorem readFlash_ctrl (v : Variant) (a : FlashAddr) (s : State) : (readFlash v a s).state.ctrl = s.ctrl :=
  (Run.bind_ctrl _ fun _ _ => rfl).trans (flashCommand_ctrl v a _ s)

theorem windowTest_ctrl (s : State) : (windowTest s).ctrl = s.ctrl := by
  unfold windowTest
  split <;> simp

theorem pollIteration_ctrl (v : Variant) (a : FlashAddr) (m : Byte) (s : State) :
    (pollIteration v a m s).state.ctrl = s.ctrl := by
  unfold pollIteration
  split
  · rfl
  · refine (Run.bind_ctrl _ fun r t => ?_).trans (readFlash_ctrl v a s)
    split
    · rfl
    · dsimp only
      split <;> exact windowTest_ctrl t

theorem pollFlash_ctrl (v : Variant) (a : FlashAddr) (m : Byte) (s : State) : (pollFlash v a m s).state.ctrl = s.ctrl :=
  (pollIteration_ctrl v a m _).trans (State.afterTick_ctrl s)

theorem writeFlash_ctrl (v : Variant) (a : FlashAddr) (d p : Byte) (s : State) :
    (writeFlash v a d p s).state.ctrl = s.ctrl := by
  refine (Run.bind_ctrl _ fun r t => ?_).trans (flashCommand_ctrl v a _ s)
  split
  · rfl
  · split
    · rw [Run.state_returned, State.wait_ctrl]
    · exact pollFlash_ctrl v a _ t

theorem flushPage_ctrl (v : Variant) (a : FlashAddr) (p : Byte) (s : State) : (flushPage v a p s).state.ctrl = s.ctrl := by
  refine (Run.bind_ctrl _ fun r t => ?_).trans (flashCommand_ctrl v a _ s)
  split
  · rw [Run.state_returned, State.wait_ctrl]
  · exact pollFlash_ctrl v a _ t

theorem readEeprom_ctrl (v : Variant) (a : EeAddr) (s : State) : (readEeprom v a s).state.ctrl = s.ctrl :=
  (Run.bind_ctrl _ fun _ _ => rfl).trans (exchange_ctrl v _ s)

theorem writeEeprom_ctrl (v : Variant) (a : EeAddr) (d : Byte) (s : State) : (writeEeprom v a d s).state.ctrl = s.ctrl := by
  refine (Run.bind_ctrl _ fun _ t => ?_).trans (exchange_ctrl v (writeEepromWord a d) s)
  rw [Run.state_returned, State.wait_ctrl]

theorem issueTransmitting_ctrl {op : Variant → State → Run Byte} {s t : State}
    (hop : ∀ v u, (op v u).state.ctrl = u.ctrl) (e : issueTransmitting op s = .next t) : t.ctrl = s.ctrl := by
  obtain ⟨-, v, -, rfl⟩ := issueTransmitting_next e
  exact (Run.finish_ctrl _).trans (hop v _)

theorem issueWire_ctrl {op : Variant → State → Run Response} {s t : State}
    (hop : ∀ v u, (op v u).state.ctrl = u.ctrl) (e : issueWire op s = .next t) : t.ctrl = s.ctrl := by
  obtain ⟨-, v, -, rfl⟩ := issueWire_next e
  exact (Run.finishWire_ctrl _).trans (hop v _)

theorem wireCommand_ctrl {w : WireWord} {s t : State} (e : issueWire (fun v u => exchange v w u) s = .next t) :
    t.ctrl = s.ctrl := issueWire_ctrl (fun v u => exchange_ctrl v w u) e

/-- No transmitting instruction writes CTRL. -/
theorem exec_ctrl_of_transmits {i : Instr} {s t : State} (h : transmits i = true) (e : exec i s = .next t) :
    t.ctrl = s.ctrl := by
  cases i with
  | setSpeed option => cases h
  | connect => cases h
  | disconnect => cases h
  | enterProg => cases h
  | progEnable => exact wireCommand_ctrl e
  | loadExtAddr hb => exact issueWire_ctrl (fun v u => exchange_ctrl v (loadExtWord hb) { u with hiaddr := hb }) e
  | readFlashLo a b => exact wireCommand_ctrl e
  | readFlashHi a b => exact wireCommand_ctrl e
  | writeFlashLo a b d => exact wireCommand_ctrl e
  | writeFlashHi a b d => exact wireCommand_ctrl e
  | writeFlashPage a b => exact wireCommand_ctrl e
  | wireReadEeprom a b => exact wireCommand_ctrl e
  | wireWriteEeprom a b d => exact wireCommand_ctrl e
  | readFlash address => exact issueTransmitting_ctrl (fun v u => readFlash_ctrl v address u) e
  | writeFlash address data pollMode =>
    exact issueTransmitting_ctrl (fun v u => writeFlash_ctrl v address data pollMode u) e
  | flushPage address pollValue => exact issueTransmitting_ctrl (fun v u => flushPage_ctrl v address pollValue u) e
  | readEeprom address => exact issueTransmitting_ctrl (fun v u => readEeprom_ctrl v address u) e
  | writeEeprom address data => exact issueTransmitting_ctrl (fun v u => writeEeprom_ctrl v address data u) e

/-! ### What writes CTRL writes a legal value (R18) -/

/-- A bound speed whose engine is off unless the hardware variant is bound holds a legal CTRL (R92, R93). -/
theorem ctrlLegal_of_speedBoundTo {t : State} (bound : speedBoundTo t = true) (off : t.xport ≠ .hw → t.ctrl = 0x00) :
    ctrlLegal t.ctrl = true := by
  by_cases hx : t.xport = .hw
  · unfold speedBoundTo at bound
    split at bound
    · split at bound
      · simp only [Bool.and_eq_true, decide_eq_true_eq] at bound
        obtain ⟨⟨-, ctrl⟩, -⟩ := bound
        rw [ctrl]
        exact ctrlEnabled_legal _
      · cases bound
    · simp [hx] at bound
  · rw [off hx]
    rfl

/-- The handshake ends with a legal CTRL, whatever CTRL held before (R140, R146, R147). -/
theorem LoopOutcome.ctrlLegal {n : Nat} {rs : List Response} {s t : State} {rc : Byte} (h : LoopOutcome n rs s t rc)
    (least : 1 ≤ n) : Machine.ctrlLegal t.ctrl = true := by
  rcases h.outcome with ⟨-, -, bound, -, -, -, -, off, -⟩ | ⟨-, -, -, -, -, slowest⟩
  · exact ctrlLegal_of_speedBoundTo bound off
  · obtain ⟨-, -, off, -⟩ := slowest least
    rw [off]
    rfl

theorem lsbf_of_ctrlLegal {c : Byte} (h : ctrlLegal c = true) : c.getLsbD 5 = false := by
  simp only [ctrlLegal, Bool.or_eq_true, decide_eq_true_eq] at h
  rcases h with (((rfl | rfl) | rfl) | rfl) | rfl <;> rfl

/-- No instruction sets CTRL.lsbf: it leaves CTRL alone or writes a legal value. -/
theorem exec_lsbf {i : Instr} {s t : State} (clear : s.ctrl.getLsbD 5 = false) (e : exec i s = .next t) :
    t.ctrl.getLsbD 5 = false := by
  by_cases h : transmits i = true
  · rw [exec_ctrl_of_transmits h e]
    exact clear
  · cases i with
    | setSpeed option =>
      obtain ⟨-, k, rfl⟩ := execSetSpeed_next e
      obtain ⟨-, -, -, legal⟩ := setSetting_oneVariantActive (mapAuto_le k) { s with busy := true }
      exact lsbf_of_ctrlLegal legal
    | connect =>
      obtain ⟨-, rfl⟩ := issueLocal_next (show execConnect s = .next t from e)
      rw [Run.finish_ctrl, Run.state_returned, connect_settles]
      exact clear
    | disconnect =>
      obtain ⟨-, rfl⟩ := issueLocal_next (show execDisconnect s = .next t from e)
      rw [Run.finish_ctrl, Run.state_returned, disconnect_settles]
      exact lsbf_of_ctrlLegal (c := 0x00) rfl
    | enterProg =>
      obtain ⟨-, k, rfl⟩ := execEnterProg_next e
      obtain ⟨_, rc, u, run, outcome⟩ := enterProg_run k
      rw [run]
      exact lsbf_of_ctrlLegal (outcome.ctrlLegal (startSpeed_bounds k).1)
    | _ => exact absurd rfl h

theorem step_lsbf {s t : State} (e : step s = .next t) (clear : s.ctrl.getLsbD 5 = false) : t.ctrl.getLsbD 5 = false := by
  cases stepTo_of_step e with
  | powerOn presented => exact lsbf_of_ctrlLegal (c := 0x00) rfl
  | host presented idle decoded run => exact exec_lsbf (s := { s.taken with cmd := _ }) clear run
  | wire presented idle decoded run => exact exec_lsbf (s := s.taken) clear run
  | poll nothing busy polling bound =>
    rw [Run.finish_ctrl, pollIteration_ctrl]
    exact clear
  | wait nothing busy notPolling => exact clear
  | hostMove nothing idle =>
    unfold hostMove
    split <;> exact clear

/-- Settles O22: a byte's log read as its levels, and the bit's being clear kept by every way of `StepTo`. -/
theorem bitOrder : Obligations.BitOrder := by
  refine ⟨fun v b r s t h => ?_, fun _ _ => step_lsbf⟩
  obtain ⟨-, sent⟩ := transmit_returned h
  exact ⟨sent.did.mosiLevels.trans (by rw [mosiLevels_byteEvents]),
    sent.did.misoSamples.trans (by rw [misoSamples_byteEvents])⟩

end Sys2Proof.Machine
end

section
/-! A byte by its bits (R101, R105): what `Transmit` answers, from the bits it ran. -/

namespace Sys2Proof.Machine

/-- The bits of `TransmitSw` from `s`, with the answer `Transmit` makes of them. -/
theorem transmit_sw_bits (b : Byte) (s : State) :
    ∃ x, swBits 8 b 0x00 s = x ∧ transmit .sw b s = .returned x.1 (x.2.log (.byte b x.1)) := ⟨_, rfl, rfl⟩

/-- The same of an enabled engine: it puts the byte received into DATA and clears the flag (R105, R106). -/
theorem transmit_hw_bits (b : Byte) {s : State} (enabled : s.engineEnabled = true) :
    ∃ u, engineBits 8 b (engineLoaded b s) = u ∧ transmit .hw b s = .returned u.engShift (State.log (.byte b u.engShift)
      { u with data := u.engShift, status := withFlag false (withFlag true u.status) }) := by
  refine ⟨_, rfl, ?_⟩
  simp only [transmit, transmitHw, enabled, if_true, Run.bind_returned]
  rfl

end Sys2Proof.Machine
end

section
/-! Released lines (R41, R104): with the three directions 0, no byte of either variant puts a level on the wire. -/

namespace Sys2Proof.Machine

/-- The three lines at high impedance (R41). -/
def Wire.released : Wire := { rst := none, sck := none, mosi := none }

/-- The three directions are 0 (R16). -/
structure Released (s : State) : Prop where
  dirRst : s.dirRst = false
  dirSck : s.dirSck = false
  dirMosi : s.dirMosi = false

theorem Released.wire {s : State} (h : Released s) : s.wire = Wire.released := by
  simp [State.wire, Wire.released, h.dirRst, h.dirSck, h.dirMosi]

/-- `t` has the lines released, and since `s` the wire was at high impedance. -/
structure SilentSince (s t : State) : Prop where
  released : Released t
  wires : ∃ n, wires t.env.trace = List.replicate n Wire.released ++ wires s.env.trace

theorem SilentSince.refl {s : State} (h : Released s) : SilentSince s s := ⟨h, 0, rfl⟩

/-- What adds only released levels to the log, and keeps the lines released, stays silent. -/
theorem SilentSince.step {s t u : State} (n : Nat) (h : SilentSince s t) (released : Released u)
    (added : Machine.wires u.env.trace = List.replicate n Wire.released ++ Machine.wires t.env.trace) : SilentSince s u := by
  obtain ⟨-, m, before⟩ := h
  exact ⟨released, n + m, by rw [added, before, List.replicate_add, List.append_assoc]⟩

/-- One bit of the software variant: three writes of the link (R101). -/
theorem swBit_silent {s t : State} (v : Bool) (h : SilentSince s t) : SilentSince s (swBit v t) := by
  obtain ⟨dirRst, dirSck, dirMosi⟩ := h.released
  refine h.step 3 ?_ ?_
  · rw [swBit_settles]
    exact ⟨dirRst, dirSck, dirMosi⟩
  · simp [swBit, wires, State.wire, dirRst, dirSck, dirMosi, Wire.released, List.replicate]

/-- One bit of the engine: three changes of its lines (R105). -/
theorem engineBit_silent {s t : State} (v : Bool) (h : SilentSince s t) : SilentSince s (engineBit v t) := by
  obtain ⟨dirRst, dirSck, dirMosi⟩ := h.released
  refine h.step 3 ?_ ?_
  · rw [engineBit_state]
    exact ⟨dirRst, dirSck, dirMosi⟩
  · simp [engineBit, wires, State.wire, dirRst, dirSck, dirMosi, Wire.released, List.replicate]

theorem transmit_silent {v : Variant} {b r : Byte} {s t : State} (h : Released s) (e : transmit v b s = .returned r t) :
    SilentSince s t := by
  cases v with
  | sw =>
    have bits := swBits_keeps (fun v _ => swBit_silent v) 8 b 0x00 s (SilentSince.refl h)
    obtain ⟨x, ran, answer⟩ := transmit_sw_bits b s
    rw [ran] at bits
    cases answer.symm.trans e
    obtain ⟨⟨dirRst, dirSck, dirMosi⟩, silent⟩ := bits
    exact ⟨⟨dirRst, dirSck, dirMosi⟩, silent⟩
  | hw =>
    have bits := engineBits_keeps (fun v _ => engineBit_silent v) 8 b (engineLoaded b s)
      (⟨⟨h.dirRst, h.dirSck, h.dirMosi⟩, 0, rfl⟩ : SilentSince s (engineLoaded b s))
    obtain ⟨u, ran, answer⟩ := transmit_hw_bits b (transmit_returned e).1
    rw [ran] at bits
    cases answer.symm.trans e
    obtain ⟨⟨dirRst, dirSck, dirMosi⟩, silent⟩ := bits
    exact ⟨⟨dirRst, dirSck, dirMosi⟩, silent⟩

/-- Settles O24, by what a byte of either variant adds to the log. -/
theorem releasedLinesStayReleased : Obligations.ReleasedLinesStayReleased :=
  fun _ _ _ _ _ dirRst dirSck dirMosi e => (transmit_silent ⟨dirRst, dirSck, dirMosi⟩ e).wires

end Sys2Proof.Machine
end

section
/-! Scripted answers (R55, R58, R108): an oracle that spells a byte, then four, is heard alike by both variants. -/

namespace Sys2Proof.Machine

theorem swBit_keepsOracle (v : Bool) {s : State} (h : s.env.target = .oracle) : (swBit v s).env.target = .oracle := by
  simp [swBit, h, Target.observe]

theorem engineBit_keepsOracle (v : Bool) {s : State} (h : s.env.target = .oracle) :
    (engineBit v s).env.target = .oracle := by
  simp [engineBit, h, Target.observe]

theorem answers_cons (x : Byte) (xs : List Byte) : answers (x :: xs) = answers [x] ++ answers xs := by
  simp [answers, drivenLevels]

/-- `Transmit` hears the byte an oracle's script spells, and uses up its eight answers (R43, R103). -/
theorem transmit_oracle {v : Variant} {s : State} {x : Byte} {rest : List Drive} (b : Byte) (l : live v s = true)
    (oracle : s.env.target = .oracle) (script : s.env.miso = answers [x] ++ rest) :
    ∃ t, transmit v b s = .returned x t ∧ Sent v b x s t ∧ t.env.target = .oracle ∧ t.env.miso = rest := by
  rw [answers_one] at script
  obtain ⟨r, t, e, sent⟩ := transmit_live b l
  suffices heard : r = x ∧ t.env.target = .oracle ∧ t.env.miso = rest by
    obtain ⟨rfl, heard⟩ := heard
    exact ⟨t, e, sent, heard⟩
  cases v with
  | sw =>
    obtain ⟨bits, used⟩ := swBits_oracle 8 b 0x00 x (Nat.le_refl 8) oracle script
    have kept := swBits_keeps (P := fun u => u.env.target = .oracle) (fun v _ => swBit_keepsOracle v) 8 b 0x00 s oracle
    obtain ⟨y, ran, answer⟩ := transmit_sw_bits b s
    rw [ran] at bits used kept
    cases answer.symm.trans e
    exact ⟨byte_ext bits, kept, used⟩
  | hw =>
    obtain ⟨bits, used⟩ := engineBits_oracle 8 b x (s := engineLoaded b s) (Nat.le_refl 8) oracle script
    have kept := engineBits_keeps (P := fun u => u.env.target = .oracle) (fun v _ => engineBit_keepsOracle v) 8 b
      (engineLoaded b s) oracle
    obtain ⟨u, ran, answer⟩ := transmit_hw_bits b l
    rw [ran] at bits used kept
    cases answer.symm.trans e
    exact ⟨byte_ext bits, kept, used⟩

/-- A wire command hears the four bytes an oracle's script spells (R69). -/
theorem exchange_oracle {v : Variant} {s : State} {r : Response} {rest : List Drive} (w : WireWord) (l : live v s = true)
    (oracle : s.env.target = .oracle) (script : s.env.miso = answers [r.r1, r.r2, r.r3, r.r4] ++ rest) :
    ∃ t, exchange v w s = .returned r t ∧ Exchanged v w r s t ∧ t.env.miso = rest := by
  rw [answers_cons, answers_cons r.r2, answers_cons r.r3] at script
  simp only [List.append_assoc] at script
  obtain ⟨s1, e1, sent1, o1, m1⟩ := transmit_oracle (wireByte w 0) l oracle script
  have l1 := sent1.live.trans l
  obtain ⟨s2, e2, sent2, o2, m2⟩ := transmit_oracle (wireByte w 1) l1 o1 m1
  have l2 := sent2.live.trans l1
  obtain ⟨s3, e3, sent3, o3, m3⟩ := transmit_oracle (wireByte w 2) l2 o2 m2
  obtain ⟨s4, e4, -, -, m4⟩ := transmit_oracle (wireByte w 3) (sent3.live.trans l2) o3 m3
  have e : exchange v w s = .returned r { s4 with resp := r } := by simp [exchange, e1, e2, e3, e4]
  exact ⟨_, e, (exchange_returned e).2, m4⟩

/-- Settles O23: each variant hears the script, and logs what it sent and heard. -/
theorem variantsAgree : Obligations.VariantsAgree := by
  intro w r rest s t enabled oracleS oracleT scriptS scriptT
  obtain ⟨s', es, sentS, usedS⟩ := exchange_oracle (v := .sw) w rfl oracleS scriptS
  obtain ⟨t', et, sentT, usedT⟩ := exchange_oracle w enabled oracleT scriptT
  exact ⟨s', t', es, et, sentS.did.exchanges.trans (by rw [exchanges_commandEvents]),
    sentT.did.exchanges.trans (by rw [exchanges_commandEvents]), usedS, usedT⟩

end Sys2Proof.Machine
end

section
/-! Wire commands by themselves in a session with the cooperative target (R56, R69; log entries 2 and 12). -/

namespace Sys2Proof.Machine

/-- The cached byte a wire command leaves: Load Extended Address writes it, no other does (R73, log entry 2). -/
def wireCache (i : Instr) (cached : Byte) : Byte :=
  match i with
  | .loadExtAddr h => h
  | _ => cached

/-- Every wire command is the exchange of its own word, issued with its cached byte (R69 to R80). -/
theorem exec_wire {i : Instr} {w : WireWord} {v : Variant} {s : State} (encoded : encodeWord i = .wire w)
    (idle : s.busy = false) (bound : xportVariant s.xport = some v) :
    exec i s = .next (exchange v w { s with busy := true, hiaddr := wireCache i s.hiaddr }).finishWire := by
  cases i with
  | setSpeed option => cases encoded
  | connect => cases encoded
  | disconnect => cases encoded
  | enterProg => cases encoded
  | readFlash address => cases encoded
  | writeFlash address data pollMode => cases encoded
  | flushPage address pollValue => cases encoded
  | readEeprom address => cases encoded
  | writeEeprom address data => cases encoded
  | loadExtAddr h => cases encoded; exact issueWire_bound (fun v t => loadExtended v h t) idle bound
  | progEnable => cases encoded; exact issueWire_bound _ idle bound
  | readFlashLo a b => cases encoded; exact issueWire_bound _ idle bound
  | readFlashHi a b => cases encoded; exact issueWire_bound _ idle bound
  | writeFlashLo a b d => cases encoded; exact issueWire_bound _ idle bound
  | writeFlashHi a b d => cases encoded; exact issueWire_bound _ idle bound
  | writeFlashPage a b => cases encoded; exact issueWire_bound _ idle bound
  | wireReadEeprom a b => cases encoded; exact issueWire_bound _ idle bound
  | wireWriteEeprom a b d => cases encoded; exact issueWire_bound _ idle bound

theorem Exchanged.resp {v : Variant} {w : WireWord} {r : Response} {s t : State} (h : Exchanged v w r s t) : t.resp = r := by
  rw [h.settles]
  rfl

/-- Settles O58: the exchange of a session, issued and ended. -/
theorem sessionCommand : Obligations.SessionCommand := by
  intro v c i w s session idle encoded
  have issued : InSession v c { s with busy := true, hiaddr := wireCache i s.hiaddr } := session.keeps rfl rfl
  obtain ⟨r, t, run, sent, goesOn, echo1, echo2, data⟩ := exchange_session w issued
  refine ⟨{ t with busy := false, pos := .idle }, ?_, goesOn.keeps rfl rfl, ?_⟩
  · rw [exec_wire encoded idle session.bound, run, Run.finishWire_returned]
  · show t.resp.r2 = _ ∧ t.resp.r3 = _ ∧ t.resp.r4 = _
    rw [sent.resp]
    exact ⟨echo1, echo2, data⟩

end Sys2Proof.Machine
end

section
/-! Programming-mode entry against the cooperative target (R56, R139, R143, R144; log entry 12). -/

namespace Sys2Proof.Machine

/-! ### One try -/

/-- The target after a reset edge and Programming Enable: in programming mode, its memories as they were (R45, R56). -/
def Coop.entered (c : Coop) : Coop := { c.leaveReset.enterReset with progMode := true, firstCommand := false }

/-- Lines driven and at rest are wired to a variant that completes its transfers, the engine being off for software (R41). -/
theorem AtRest.wired {v : Variant} {s : State} (rest : AtRest s) (l : live v s = true)
    (off : v = .sw → s.ctrl = ctrlDisabled) : Wired v s := by
  refine ⟨rest.dirRst, rest.dirSck, rest.dirMosi, rest.outRst, rest.outSck, rest.engSck, ?_⟩
  cases v with
  | sw =>
    rw [off rfl]
    rfl
  | hw =>
    simp only [live, State.engineEnabled, Bool.and_eq_true] at l
    exact l.1

/-- The reset pulse and the settle wait of a try: the target has started anew, no register but the two named has changed
(R139). -/
theorem tryPulse_coop {s : State} {c : Coop} (rest : AtRest s) (target : s.env.target = .cooperative c) :
    Settles { s with hsState := .tryHandshake, outRst := false }
        ((State.pulseReset { s with hsState := .tryHandshake }).wait params.settleUnits) ∧
      ((State.pulseReset { s with hsState := .tryHandshake }).wait params.settleUnits).env.target =
        .cooperative c.leaveReset.enterReset := by
  obtain ⟨dirRst, dirSck, dirMosi, outRst, outSck, engSck⟩ := rest
  refine ⟨(pulseReset_settles _).trans (wait_settles _ _), ?_⟩
  rw [State.wait_env_target]
  exact pulseReset_coop (s := { s with hsState := .tryHandshake }) ⟨dirRst, dirSck, dirMosi, outRst, outSck, engSck⟩ target

/-- Programming Enable, sent to a target that has just started anew, is echoed and opens a session (R56, R72). -/
theorem progEnable_coop {v : Variant} {s : State} {c : Coop} (bound : xportVariant s.xport = some v) (l : live v s = true)
    (off : v = .sw → s.ctrl = ctrlDisabled) (rest : AtRest s) (target : s.env.target = .cooperative c.leaveReset.enterReset) :
    ∃ r t, exchange v progEnableWord s = .returned r t ∧ InSession v c.entered t ∧ r.r2 = 0xAC ∧ r.r3 = 0x53 := by
  obtain ⟨entered, echo1, echo2⟩ := reset_bytes c
  obtain ⟨w0, w1, w2, w3⟩ := wireBytes 0xAC 0x53 0x00 0x00
  obtain ⟨r, t, e, sent, wired, targetT, a2, a3, -⟩ :=
    exchange_coop progEnableWord l (rest.wired l off) target rfl rfl rfl
  rw [progEnableWord, w0, w1, w2, w3] at targetT
  rw [progEnableWord, w0] at a2
  rw [progEnableWord, w0, w1] at a3
  refine ⟨r, t, e, ?_, a2 _ echo1, a3 _ echo2⟩
  exact {
    bound := by rw [sent.settles]; cases v <;> exact bound
    live := sent.live.trans l
    engineOff := fun hv => by rw [sent.settles]; subst hv; exact off rfl
    dirRst := wired.dirRst
    dirSck := wired.dirSck
    dirMosi := wired.dirMosi
    outRst := wired.outRst
    outSck := wired.outSck
    engSck := wired.engSck
    target := targetT.trans (congrArg Target.cooperative entered)
    listening := rfl
    progMode := rfl
    received := rfl
    bitCount := rfl
    shiftIn := rfl
    answer := rfl }

/-- A try from lines at rest is echoed and opens a session, whatever the target was doing (R56, R139). -/
theorem handshakeTry_coop {v : Variant} {s : State} {c : Coop} (bound : xportVariant s.xport = some v) (l : live v s = true)
    (off : v = .sw → s.ctrl = ctrlDisabled) (rest : AtRest s) (target : s.env.target = .cooperative c) :
    ∃ r t, handshakeTry v s = .returned r t ∧ InSession v c.entered t ∧ r.r2 = 0xAC ∧ r.r3 = 0x53 := by
  obtain ⟨settled, restarted⟩ := tryPulse_coop rest target
  unfold handshakeTry
  generalize (State.pulseReset { s with hsState := .tryHandshake }).wait params.settleUnits = u at settled restarted ⊢
  apply progEnable_coop (target := restarted)
  case bound =>
    rw [settled]
    exact bound
  case l =>
    rw [live_settles settled]
    cases v <;> exact l
  case off =>
    rw [settled]
    exact off
  case rest =>
    rw [settled]
    exact ⟨rest.dirRst, rest.dirSck, rest.dirMosi, rfl, rest.outSck, rest.engSck⟩

/-! ### Entering the speed, and success at its first try -/

theorem TryFrame.atRest {s t : State} (h : TryFrame s t) (outRst : t.outRst = false) (rest : AtRest s) : AtRest t :=
  ⟨h.dirRst.trans rest.dirRst, h.dirSck.trans rest.dirSck, h.dirMosi.trans rest.dirMosi, outRst, h.outSck rest.outSck,
    h.engSck rest.engSck⟩

/-- Entering a speed binds its variant, the engine off for a software one (R140, R93). -/
theorem enterSpeed_variant {o : Setting} (k : o.toNat ≤ 12) (h0 : o ≠ 0) (s : State) :
    xportVariant (enterSpeed o s).xport = some (settingVariant o) ∧
      (settingVariant o = .sw → (enterSpeed o s).ctrl = ctrlDisabled) := by
  constructor
  · unfold enterSpeed setSpeed
    rw [mapAuto_of_ne h0]
    exact setSetting_variant k s
  · intro sw
    cases hw : isHardware o with
    | false => exact enterSpeed_software hw h0 s
    | true => simp [settingVariant, hw] at sw

/-- Entering a speed with the lines at rest shows the target nothing (R41). -/
theorem enterSpeed_coop {o : Setting} (h0 : o ≠ 0) {s : State} {c : Coop} (rest : AtRest s)
    (target : s.env.target = .cooperative c) : (enterSpeed o s).env.target = .cooperative c := by
  unfold enterSpeed setSpeed
  rw [mapAuto_of_ne h0]
  exact setSetting_coop rest target o

theorem triesAtSpeed_echoed {v : Variant} (n : Nat) {s t : State} {r : Response} (run : handshakeTry v s = .returned r t)
    (echo : r.r3 = 0x53) : triesAtSpeed v (n + 1) s = .returned true { t with hsState := .success } := by
  simp [triesAtSpeed, run, echoed, echo]

/-- SPEED_BUMP is off (R4, R144). -/
theorem speedBump_off (o : Setting) (s : State) : speedBump o s = s := by simp [speedBump, params]

/-- A speed at which a try succeeds ends the handshake with 0, and is not bumped (R144). -/
theorem speedsFrom_success {n : Nat} (least : 1 ≤ n) {s t : State}
    (run : triesAtSpeed (settingVariant (BitVec.ofNat 4 n)) params.triesPerSpeed (enterSpeed (BitVec.ofNat 4 n) s) =
      .returned true t) : speedsFrom n s = .returned 0 t := by
  obtain ⟨m, rfl⟩ := Nat.exists_eq_add_of_le' least
  have atLeast : ¬ m + 1 < params.idxSwMin.toNat := Nat.not_lt.2 (Nat.le_add_left 1 m)
  simp only [speedsFrom, if_neg atLeast, run, Run.bind_returned, if_true, speedBump_off]

/-- The handshake against the cooperative target from lines at rest: the first try at the first speed opens a session. -/
theorem speedsFrom_coop {n : Nat} (least : 1 ≤ n) (most : n ≤ 12) {s : State} {c : Coop} (rest : AtRest s)
    (target : s.env.target = .cooperative c) :
    ∃ v r t, speedsFrom n s = .returned 0 t ∧ t.hsState = .success ∧ t.speed.toNat = n ∧ t.tries = 3 ∧
      InSession v c.entered t ∧ byteTrace t.env.trace = tryTrace r ++ byteTrace s.env.trace ∧ r.r2 = 0xAC ∧
      r.r3 = 0x53 := by
  have value : (BitVec.ofNat 4 n).toNat = n := (BitVec.toNat_ofNat n 4).trans (Nat.mod_eq_of_lt (by omega))
  have k : (BitVec.ofNat 4 n).toNat ≤ 12 := by omega
  have h0 : BitVec.ofNat 4 n ≠ 0 := fun z => by simp [z] at value; omega
  have success := fun t => speedsFrom_success (t := t) least (s := s)
  generalize BitVec.ofNat 4 n = o at value k h0 success
  obtain ⟨frame, outRst, trace⟩ := Settles.frame_enter k h0 s
  obtain ⟨-, l, tries, speed⟩ := enterSpeed_bound k h0 s
  obtain ⟨bound, off⟩ := enterSpeed_variant k h0 s
  obtain ⟨r, t, e, session, r2, r3⟩ := handshakeTry_coop bound l off (frame.atRest (outRst.trans rest.outRst) rest)
    (enterSpeed_coop h0 rest target)
  obtain ⟨r', t', e', -, kept, -, tries', trace', -⟩ := handshakeTry_live l
  cases e.symm.trans e'
  refine ⟨_, r, _, success _ (triesAtSpeed_echoed 2 e r3), rfl, ?_, tries'.trans tries, session.keeps rfl rfl,
    trace'.trans (by rw [trace]), r2, r3⟩
  exact (congrArg BitVec.toNat (kept.speed.trans speed)).trans value

theorem execEnterProg_idle {s : State} (idle : s.busy = false) (k : s.speed.toNat ≤ 12) :
    execEnterProg s = .next (enterProg { s with busy := true }).finish := by
  have within : ¬ params.idxMax.toNat < s.speed.toNat := Nat.not_lt.2 k
  simp [execEnterProg, within, issueLocal_idle enterProg idle]

/-- Settles O36: the loop over the speeds ends at its first try. -/
theorem enterProgCooperativeTarget : Obligations.EnterProgCooperativeTarget := by
  intro s c idle k target dirRst dirSck dirMosi outRst outSck engSck
  obtain ⟨least, most⟩ := startSpeed_bounds k
  obtain ⟨v, r, t, run, success, speed, tries, session, trace, r2, r3⟩ := speedsFrom_coop least most
    (s := { s with busy := true, hsState := .idle }) ⟨dirRst, dirSck, dirMosi, outRst, outSck, engSck⟩ target
  refine ⟨returnedWith 0 t, v, c.entered, r, ?_, rfl, success, speed, tries, session_ret 0 session, trace, r2, r3, rfl, rfl,
    rfl⟩
  have run' : enterProg { s with busy := true } = .returned 0 t := run
  exact (execEnterProg_idle idle k).trans (by rw [run', Run.finish_returned])

end Sys2Proof.Machine
end

section
/-! The wire decoder and the encoder are inverse to each other (R69 to R80): a word decodes to an instruction exactly when it is
that instruction's word. -/

namespace Sys2Proof

theorem whenFixed_eq_ok {fixed : Bool} {i j : Instr} : whenFixed fixed i = .ok j ↔ fixed = true ∧ i = j := by
  cases fixed <;> simp [whenFixed]

/-- Four bytes that spell an instruction begin with the opcode of its row and have the row's fixed bytes. -/
theorem encodeWord_of_decodeWire_bytes {opc b2 b3 b4 : Byte} {i : Instr}
    (decoded : decodeWire (wireWord opc b2 b3 b4) = .ok i) : encodeWord i = .wire (wireWord opc b2 b3 b4) := by
  simp only [decodeWire, wireByte_wireWord_0, wireByte_wireWord_1, wireByte_wireWord_2, wireByte_wireWord_3] at decoded
  split_ifs at decoded with progEnable loadExt readLo readHi writeLo writeHi writePage readEeprom writeEeprom
  all_goals simp only [whenFixed_eq_ok, Bool.and_eq_true, decide_eq_true_eq, Except.ok.injEq] at decoded
  · obtain ⟨⟨⟨rfl, rfl⟩, rfl⟩, rfl⟩ := decoded
    rw [progEnable]; rfl
  · obtain ⟨⟨rfl, rfl⟩, rfl⟩ := decoded
    rw [loadExt]; rfl
  · obtain ⟨rfl, rfl⟩ := decoded
    rw [readLo]; rfl
  · obtain ⟨rfl, rfl⟩ := decoded
    rw [readHi]; rfl
  · obtain rfl := decoded
    rw [writeLo]; rfl
  · obtain rfl := decoded
    rw [writeHi]; rfl
  · obtain ⟨rfl, rfl⟩ := decoded
    rw [writePage]; rfl
  · obtain ⟨rfl, rfl⟩ := decoded
    rw [readEeprom]; rfl
  · obtain rfl := decoded
    rw [writeEeprom]; rfl

theorem decodeWire_of_encodeWord {i : Instr} {w : WireWord} (encoded : encodeWord i = .wire w) : decodeWire w = .ok i := by
  cases i with
  | writeFlashLo | writeFlashHi | wireWriteEeprom => cases encoded; simp [decodeWire]
  | progEnable | loadExtAddr | readFlashLo | readFlashHi | writeFlashPage | wireReadEeprom =>
    cases encoded
    simp [decodeWire, whenFixed]
  | setSpeed | connect | disconnect | enterProg | readFlash | writeFlash | flushPage | readEeprom | writeEeprom =>
    cases encoded

/-- A wire word decodes to an instruction exactly when it is that instruction's word (R69 to R80). -/
theorem decodeWire_eq_ok_iff {w : WireWord} {i : Instr} : decodeWire w = .ok i ↔ encodeWord i = .wire w := by
  refine ⟨fun decoded => ?_, decodeWire_of_encodeWord⟩
  rw [← wireWord_wireByte w] at decoded ⊢
  exact encodeWord_of_decodeWire_bytes decoded

/-- Settles O6: one direction of `decodeWire_eq_ok_iff`. -/
theorem wireWordOfDecoded : Obligations.WireWordOfDecoded := fun _ _ decoded => decodeWire_eq_ok_iff.1 decoded

end Sys2Proof
end

section
/-! Host words (R81, R84 to R86): what the decoder reads from the four fields. -/

namespace Sys2Proof

open Machine

/-- `aux[7:4]` is 0 exactly below 0x10 (R81). -/
theorem auxHigh_ne_zero_iff (aux : Byte) : aux.extractLsb' 4 4 ≠ 0 ↔ 0x10 ≤ aux := by
  rw [Ne, ← BitVec.toNat_inj, BitVec.extractLsb'_toNat, BitVec.le_def, Nat.shiftRight_eq_div_pow]
  have := aux.isLt
  change ¬ aux.toNat / 16 % 16 = 0 ↔ 16 ≤ aux.toNat
  omega

/-- The option of a word with `aux[7:4]` 0 is all of `aux` (R81). -/
theorem auxOption_toNat {aux : Byte} (low : ¬ 0x10 ≤ aux) : (aux.extractLsb' 0 4).toNat = aux.toNat := by
  have below : aux.toNat < 16 := Nat.lt_of_not_le low
  simpa using below

/-- `setSpeed`'s operand by the value of `aux` (R81, R84). -/
theorem decodeSetSpeed_eq (aux : Byte) : decodeSetSpeed aux =
    if 0x10 ≤ aux then .error .auxHighBits
    else if 13 ≤ aux then .error .reservedOption
    else .ok (.setSpeed (aux.setWidth 4)) := by
  have reserved : params.idxMax.toNat < aux.toNat ↔ 13 ≤ aux := Iff.rfl
  simp only [decodeSetSpeed, auxHigh_ne_zero_iff]
  split
  case isTrue => rfl
  case isFalse low => rw [auxOption_toNat low, if_congr reserved rfl rfl, BitVec.setWidth_eq_extractLsb' (by decide)]

/-- What the decoder reads from the four fields of a host word (R81, R84 to R86). -/
theorem decodeHost_hostWord (selector : Byte) (addr : FlashAddr) (data aux : Byte) :
    decodeHost (hostWord selector addr data aux) =
      if selector = 0x00 then decodeSetSpeed aux
      else if selector = 0x01 then .ok .connect
      else if selector = 0x02 then .ok .disconnect
      else if selector = 0x03 then .ok .enterProg
      else if selector = 0x04 then .ok (.readFlash addr)
      else if selector = 0x05 then .ok (.writeFlash addr data aux)
      else if selector = 0x06 then .ok (.flushPage addr data)
      else if selector = 0x07 then .ok (.readEeprom (addr.setWidth 16))
      else if selector = 0x08 then .ok (.writeEeprom (addr.setWidth 16) data)
      else .error .unknownSelector := by
  have low : addr.setWidth 16 = addr.extractLsb' 0 16 := BitVec.setWidth_eq_extractLsb' (by decide)
  simp only [decodeHost, hostSelector_hostWord, hostAddr_hostWord, hostData_hostWord, hostAux_hostWord, low]

/-- Settles O3: the fields are those of `hostWord`, and `setSpeed` reads its operand from `aux`. -/
theorem hostWordFields : Obligations.HostWordFields := by
  intro selector addr data aux
  rw [← decodeSetSpeed_eq]
  exact decodeHost_hostWord selector addr data aux

end Sys2Proof
end

section
/-! Decoding undoes encoding (R69, R81): through the word, and through its bytes. -/

namespace Sys2Proof

theorem decodeSetSpeed_setWidth {option : Setting} (most : option.toNat ≤ 12) :
    decodeSetSpeed (option.setWidth 8) = .ok (.setSpeed option) := by
  have value : (option.setWidth 8 : Byte).toNat = option.toNat :=
    BitVec.toNat_setWidth_of_le (by decide)
  have below {n : Byte} (more : 12 < n.toNat) : ¬ n ≤ (option.setWidth 8 : Byte) := by
    rw [BitVec.le_def, value]
    omega
  rw [decodeSetSpeed_eq, if_neg (below (by decide)), if_neg (below (by decide))]
  simp

theorem decodeHost_of_encodeWord {i : Instr} {w : HostWord} (wf : i.wellFormed = true) (encoded : encodeWord i = .host w) :
    decodeHost w = .ok i := by
  cases i with
  | setSpeed option =>
    cases encoded
    rw [decodeHost_hostWord, if_pos rfl, decodeSetSpeed_setWidth (of_decide_eq_true wf)]
  | connect => cases encoded; rw [decodeHost_hostWord]; rfl
  | disconnect => cases encoded; rw [decodeHost_hostWord]; rfl
  | enterProg => cases encoded; rw [decodeHost_hostWord]; rfl
  | readFlash address => cases encoded; rw [decodeHost_hostWord]; rfl
  | writeFlash address data pollMode => cases encoded; rw [decodeHost_hostWord]; rfl
  | flushPage address pollValue => cases encoded; rw [decodeHost_hostWord]; rfl
  | readEeprom address => cases encoded; simp [decodeHost_hostWord]
  | writeEeprom address data => cases encoded; simp [decodeHost_hostWord]
  | progEnable | loadExtAddr | readFlashLo | readFlashHi | writeFlashLo | writeFlashHi | writeFlashPage | wireReadEeprom
  | wireWriteEeprom => cases encoded

/-- Settles O4: by the kind of the instruction's word. -/
theorem decodeEncode : Obligations.DecodeEncode := by
  intro i wf
  cases encoded : encodeWord i with
  | wire w => exact decodeWire_eq_ok_iff.2 encoded
  | host w => exact decodeHost_of_encodeWord wf encoded

theorem hostAddr_bytes (w : HostWord) :
    w.extractLsb' 40 8 ++ w.extractLsb' 32 8 ++ w.extractLsb' 24 8 ++ w.extractLsb' 16 8 = hostAddr w := by
  have high : w.extractLsb' 40 8 ++ w.extractLsb' 32 8 = w.extractLsb' 32 16 :=
    BitVec.extractLsb'_append_extractLsb'_eq_extractLsb' rfl
  have middle : w.extractLsb' 32 16 ++ w.extractLsb' 24 8 = w.extractLsb' 24 24 :=
    BitVec.extractLsb'_append_extractLsb'_eq_extractLsb' rfl
  rw [high, middle]
  exact BitVec.extractLsb'_append_extractLsb'_eq_extractLsb' rfl

/-- The bytes of a word decode as the word (R69, R81, log entry 14). -/
theorem decodeBytes_toBytes (c : CommandWord) : decodeBytes c.toBytes = decodeWord c := by
  cases c with
  | wire w => exact congrArg decodeWire (wireWord_wireByte w)
  | host w =>
    have fields := congrArg (hostWord (hostSelector w) · (hostData w) (hostAux w)) (hostAddr_bytes w)
    exact congrArg decodeHost (fields.trans (hostWord_fields w))

theorem encode_length (i : Instr) : (encode i).length = i.format.bytes := by
  cases i <;> rfl

/-- Settles O5: the bytes decode as the word, and the word as the instruction. -/
theorem decodeEncodeBytes : Obligations.DecodeEncodeBytes :=
  fun i wf => ⟨encode_length i, (decodeBytes_toBytes (encodeWord i)).trans (decodeEncode i wf)⟩

end Sys2Proof
end

section
/-! Whatever decodes is well formed (R84). -/

namespace Sys2Proof

theorem wellFormed_of_wire {i : Instr} {w : WireWord} (encoded : encodeWord i = .wire w) : i.wellFormed = true := by
  cases i with
  | setSpeed option => cases encoded
  | _ => rfl

theorem wellFormed_of_decodeSetSpeed {aux : Byte} {i : Instr} (decoded : decodeSetSpeed aux = .ok i) :
    i.wellFormed = true := by
  unfold decodeSetSpeed at decoded
  split_ifs at decoded with high reserved
  cases decoded
  exact decide_eq_true (Nat.le_of_not_lt reserved)

/-- Only the row of selector 0 has an operand that is checked, and its decoding checks it. -/
theorem wellFormed_of_decodeHost {w : HostWord} {i : Instr} (decoded : decodeHost w = .ok i) : i.wellFormed = true := by
  unfold decodeHost at decoded
  split at decoded
  case isTrue => exact wellFormed_of_decodeSetSpeed decoded
  case isFalse =>
    split_ifs at decoded
    all_goals cases decoded; rfl

/-- Settles O7: by the format of the word. -/
theorem decodedWellFormed : Obligations.DecodedWellFormed := by
  intro c i decoded
  cases c with
  | wire w => exact wellFormed_of_wire (decodeWire_eq_ok_iff.1 decoded)
  | host w => exact wellFormed_of_decodeHost decoded

end Sys2Proof
end

section
/-! The rows of the wire table as a mask, a match value and fields (R72 to R80). -/

namespace Sys2Proof

/-- A byte of a mask keeps a byte of the word or drops it. -/
theorem and_maskByte (x : Byte) : x &&& 0xFF = x ∧ x &&& 0x00 = 0 := ⟨BitVec.and_allOnes, BitVec.and_zero⟩

/-- The pattern `opc 00 h 00` (R73). -/
theorem wireWord_eq_iff_of_hi {w : WireWord} {opc h : Byte} : wireWord opc 0x00 h 0x00 = w ↔
    w &&& wireWord 0xFF 0xFF 0x00 0xFF = wireWord opc 0x00 0x00 0x00 ∧ h = wireByte w 2 := by
  rw [← wireWord_wireByte w]
  simp only [and_wireWord, wireWord_inj, and_maskByte, wireByte_wireWord_2]
  tauto

/-- The pattern `opc a b 00` (R74, R75, R78, R79). -/
theorem wireWord_eq_iff_of_address {w : WireWord} {opc a b : Byte} : wireWord opc a b 0x00 = w ↔
    w &&& wireWord 0xFF 0x00 0x00 0xFF = wireWord opc 0x00 0x00 0x00 ∧ a = wireByte w 1 ∧ b = wireByte w 2 := by
  rw [← wireWord_wireByte w]
  simp only [and_wireWord, wireWord_inj, and_maskByte, wireByte_wireWord_1, wireByte_wireWord_2]
  tauto

/-- The pattern `opc a b d` (R76, R77, R80). -/
theorem wireWord_eq_iff_of_data {w : WireWord} {opc a b d : Byte} : wireWord opc a b d = w ↔
    w &&& wireWord 0xFF 0x00 0x00 0x00 = wireWord opc 0x00 0x00 0x00 ∧ a = wireByte w 1 ∧ b = wireByte w 2 ∧
      d = wireByte w 3 := by
  rw [← wireWord_wireByte w]
  simp only [and_wireWord, wireWord_inj, and_maskByte, wireByte_wireWord_1, wireByte_wireWord_2, wireByte_wireWord_3]
  tauto

/-- Settles O2: a word decodes to a row's instruction exactly when it is the instruction's word, and so of the row's pattern. -/
theorem wirePatterns : Obligations.WirePatterns := by
  intro w a b d h
  simp only [decodeWire_eq_ok_iff, encodeWord, CommandWord.wire.injEq]
  exact ⟨eq_comm, wireWord_eq_iff_of_hi, wireWord_eq_iff_of_address, wireWord_eq_iff_of_address, wireWord_eq_iff_of_data,
    wireWord_eq_iff_of_data, wireWord_eq_iff_of_address, wireWord_eq_iff_of_address, wireWord_eq_iff_of_data⟩

/-- Settles O1: each of the eighteen words is closed, and the decoder is evaluated on it. -/
theorem sampleWordsDecode : Obligations.SampleWordsDecode := by
  unfold Obligations.SampleWordsDecode
  decide

end Sys2Proof
end

section
/-! The operands of the memory operations in their commands (R70, R71). -/

namespace Sys2Proof.Machine

theorem extByte_eq_extractLsb' (address : FlashAddr) : extByte address = address.extractLsb' 17 8 :=
  BitVec.setWidth_ushiftRight_eq_extractLsb

theorem flashHigh_eq_extractLsb' (address : FlashAddr) : flashHigh address = address.extractLsb' 9 8 :=
  BitVec.setWidth_ushiftRight_eq_extractLsb

theorem flashLow_eq_extractLsb' (address : FlashAddr) : flashLow address = address.extractLsb' 1 8 :=
  BitVec.setWidth_ushiftRight_eq_extractLsb

theorem eeHigh_eq_extractLsb' (address : EeAddr) : eeHigh address = address.extractLsb' 8 8 :=
  BitVec.setWidth_ushiftRight_eq_extractLsb

theorem eeLow_eq_extractLsb' (address : EeAddr) : eeLow address = address.extractLsb' 0 8 :=
  BitVec.setWidth_eq_extractLsb' (by decide)

/-- Settles O8: the two address bytes are fields of the address, and the byte select is its bit 0. -/
theorem flashAddressSplit : Obligations.FlashAddressSplit := by
  intro address data
  rw [← flashHigh_eq_extractLsb', ← flashLow_eq_extractLsb']
  exact ⟨rfl, rfl, rfl, rfl, rfl, rfl, rfl, byteSelect_cases address⟩

/-- Settles O9: the extended byte and the two EEPROM bytes are fields of their address. -/
theorem extendedAndEepromFields : Obligations.ExtendedAndEepromFields := by
  intro address ee data
  rw [← extByte_eq_extractLsb', ← eeHigh_eq_extractLsb', ← eeLow_eq_extractLsb']
  exact ⟨rfl, rfl, rfl, rfl, rfl, wireByte_wireWord_3 _ _ _ _, rfl, rfl⟩

theorem decodeWire_readFlashWord (address : FlashAddr) : decodeWire (readFlashWord address) = .ok
    (if address.getLsbD 0 then .readFlashHi (flashHigh address) (flashLow address)
      else .readFlashLo (flashHigh address) (flashLow address)) := by
  rw [decodeWire_eq_ok_iff, readFlashWord, byteSelect_cases]
  cases address.getLsbD 0 <;> rfl

theorem decodeWire_writeFlashWord (address : FlashAddr) (data : Byte) : decodeWire (writeFlashWord address data) = .ok
    (if address.getLsbD 0 then .writeFlashHi (flashHigh address) (flashLow address) data
      else .writeFlashLo (flashHigh address) (flashLow address) data) := by
  rw [decodeWire_eq_ok_iff, writeFlashWord, byteSelect_cases]
  cases address.getLsbD 0 <;> rfl

/-- Settles O10: each word is the one its row encodes to. -/
theorem operationsSendTableCommands : Obligations.OperationsSendTableCommands := by
  intro address ee data
  refine ⟨decodeWire_readFlashWord address, decodeWire_writeFlashWord address data, ?_⟩
  simp only [decodeWire_eq_ok_iff]
  exact ⟨rfl, rfl, rfl, rfl, rfl⟩

end Sys2Proof.Machine
end

section
/-! A wire command run by itself at an idle block with a variant that completes (R69, R72 to R80; log entry 2). -/

namespace Sys2Proof.Machine

theorem live_wireCache {v : Variant} {s : State} (i : Instr) (l : live v s = true) :
    live v { s with hiaddr := wireCache i s.hiaddr } = true := by
  cases v <;> exact l

theorem finishWire_settles {u t : State} (h : Settles { u with busy := true } t) :
    Settles { u with busy := false, pos := .idle } { t with busy := false, pos := .idle } :=
  Settles.map (u := { u with busy := true }) (fun x => { x with busy := false, pos := .idle }) (fun _ _ _ => rfl) h

/-- Settles O51: the exchange of the command's own word, issued with its cached byte and ended. -/
theorem wireCommandResult : Obligations.WireCommandResult := by
  intro i w v s encoded idle bound l
  obtain ⟨r, t, run, settles, did, delayStart⟩ := issued_exchange w (live_wireCache i l)
  refine ⟨r, { t with busy := false, pos := .idle }, ?_, finishWire_settles settles, delayStart, did⟩
  exact (exec_wire encoded idle bound).trans (by rw [run, Run.finishWire_returned])

end Sys2Proof.Machine
end

section
/-! What a busy block refuses, and what an idle one does with nothing to run (R27, R84, R85, R87, R226). -/

namespace Sys2Proof.Machine

theorem issueLocal_busy (op : State → Run Byte) {s : State} (busy : s.busy = true) :
    issueLocal op s = .refused .issueWhileBusy := if_pos busy

theorem issueTransmitting_busy (op : Variant → State → Run Byte) {s : State} (busy : s.busy = true) :
    issueTransmitting op s = .refused .issueWhileBusy := if_pos busy

theorem issueWire_busy (op : Variant → State → Run Response) {s : State} (busy : s.busy = true) :
    issueWire op s = .refused .issueWhileBusy := if_pos busy

/-- While busy the range of the option is not looked at (R84, R87). -/
theorem execSetSpeed_busy (option : Setting) {s : State} (busy : s.busy = true) :
    execSetSpeed option s = .refused .issueWhileBusy := by
  simp [execSetSpeed, busy, issueLocal_busy]

theorem execEnterProg_busy {s : State} (busy : s.busy = true) : execEnterProg s = .refused .issueWhileBusy := by
  simp [execEnterProg, busy, issueLocal_busy]

/-- Every instruction is refused while an operation runs (R87). -/
theorem exec_busy (i : Instr) {s : State} (busy : s.busy = true) : exec i s = .refused .issueWhileBusy := by
  cases i with
  | setSpeed option => exact execSetSpeed_busy option busy
  | enterProg => exact execEnterProg_busy busy
  | connect => exact issueLocal_busy (fun t => .returned 0 (connect t)) busy
  | disconnect => exact issueLocal_busy (fun t => .returned 0 (disconnect t)) busy
  | readFlash | writeFlash | flushPage | readEeprom | writeEeprom => exact issueTransmitting_busy _ busy
  | progEnable | loadExtAddr | readFlashLo | readFlashHi | writeFlashLo | writeFlashHi | writeFlashPage | wireReadEeprom
  | wireWriteEeprom => exact issueWire_busy _ busy

/-- Settles O27: an instruction issued, and a word of either format presented. -/
theorem busyRefused : Obligations.BusyRefused := fun _ busy =>
  ⟨fun i => exec_busy i busy, fun _ presented => step_busy_host presented busy,
    fun _ presented => step_busy_wire presented busy⟩

theorem hostMove_nil {s : State} (quiet : s.host.script = []) : hostMove s = s := by
  simp [hostMove, quiet]

theorem hostMove_cons {s : State} {r : Request} {rest : List Request} (scripted : s.host.script = r :: rest) :
    hostMove s = { s with host := { request := some r, script := rest } } := by
  simp [hostMove, scripted]

/-- Settles O53: a word of either format that does not decode; the host's move with an empty script, and with a request. -/
theorem stepOtherwise : Obligations.StepOtherwise := by
  intro s idle
  refine ⟨fun w e presented undecodable => step_undecodable_host presented idle undecodable,
    fun w e presented undecodable => step_undecodable_wire presented idle undecodable, fun nothing quiet => ?_,
    fun r rest nothing scripted => ?_⟩
  · rw [step_hostMove nothing idle, hostMove_nil quiet]
  · rw [step_hostMove nothing idle, hostMove_cons scripted]

end Sys2Proof.Machine
end

section
/-! The host operation `setSpeed` at an idle block: what a setting binds and leaves alone (R90 to R93, R95), and the options it
refuses (R84, R94). -/

namespace Sys2Proof.Machine

theorem setSetting_delayStart (o : Setting) (s : State) : (setSetting o s).delayStart = s.delayStart := by
  unfold setSetting
  split
  · split <;> rfl
  · rfl

/-- Up to 12 no option is refused for its range, and `setSpeed` binds the setting, AUTO replaced (R90, R91). -/
theorem execSetSpeed_of_le {o : Setting} (most : o.toNat ≤ 12) (s : State) :
    execSetSpeed o s = issueLocal (fun t => .returned 0 (setSetting (mapAuto o) t)) s := by
  have inRange : ¬ params.idxMax.toNat < o.toNat := Nat.not_lt.2 most
  simp [execSetSpeed, inRange, setSpeed]

/-- An idle block returns 0 from `setSpeed` in the registers `u` that the setting binds, with nothing done on the link. -/
theorem exec_setSpeed_settles {o : Setting} {s u : State} (idle : s.busy = false) (most : o.toNat ≤ 12) (notAuto : o ≠ 0)
    (bound : Settles { u with busy := true } (setSetting o { s with busy := true })) :
    ∃ t, exec (.setSpeed o) s = .next t ∧ Settles (returnedWith 0 u) t ∧ t.delayStart = s.delayStart ∧ Did [] s t := by
  refine ⟨returnedWith 0 (setSetting o { s with busy := true }), ?_, returned_settles 0 bound,
    setSetting_delayStart o { s with busy := true }, returned_did 0 (setSetting_did o { s with busy := true })⟩
  change execSetSpeed o s = _
  rw [execSetSpeed_of_le most, issueLocal_idle _ idle, mapAuto_of_ne notAuto, Run.finish_returned]

/-- Every row of `HW_TABLE` is the row of its own setting, a hardware one (R61, R63). -/
theorem hwRow_of_mem : ∀ row ∈ params.hwTable,
    isHardware row.setting = true ∧ hwRow row.setting = some row ∧ row.setting.toNat ≤ 12 ∧ row.setting ≠ 0 := by decide

/-- Settles O12: the six settings are those of `HW_TABLE`, and each binds its own row. -/
theorem setSpeedHardware : Obligations.SetSpeedHardware := by
  intro o presc dbl s idle listed
  obtain ⟨row, mem, fields⟩ := List.mem_map (l := params.hwTable) (f := fun row => (row.setting, row.presc, row.dbl)).1 listed
  cases fields
  obtain ⟨hardware, own, most, notAuto⟩ := hwRow_of_mem row mem
  exact exec_setSpeed_settles idle most notAuto (setSetting_hardware hardware own { s with busy := true })

/-- The delay counts 96, 48, 24, 12, 6, 3 of the software settings 1 to 6 (R62). -/
theorem softwareDelay_of_mem : ∀ entry ∈ [((6 : Setting), (3 : Byte)), (5, 6), (4, 12), (3, 24), (2, 48), (1, 96)],
    isHardware entry.1 = false ∧ softwareDelay entry.1 = entry.2 ∧ entry.1.toNat ≤ 12 ∧ entry.1 ≠ 0 := by
  simp [isHardware, softwareDelay, params]

/-- Settles O13: each of the six settings binds its own delay count. -/
theorem setSpeedSoftware : Obligations.SetSpeedSoftware := by
  intro o d s idle listed
  obtain ⟨software, (rfl : softwareDelay o = d), most, notAuto⟩ := softwareDelay_of_mem (o, d) listed
  exact exec_setSpeed_settles idle most notAuto (setSetting_software software { s with busy := true })

/-- AUTO and the setting that replaces it are one operation, at every state (R91). -/
theorem exec_setSpeed_auto (s : State) : exec (.setSpeed 0) s = exec (.setSpeed 9) s := by
  change execSetSpeed 0 s = execSetSpeed 9 s
  have replaced : mapAuto 0 = mapAuto 9 := rfl
  rw [execSetSpeed_of_le (by decide), execSetSpeed_of_le (by decide), replaced]

/-- Settles O14: AUTO is setting 9, whose registers O12 gives. -/
theorem setSpeedAuto : Obligations.SetSpeedAuto := by
  refine fun s => ⟨exec_setSpeed_auto s, fun idle => ?_⟩
  obtain ⟨t, next, settles, -, -⟩ := setSpeedHardware 9 2 true s idle (by decide)
  refine ⟨t, (exec_setSpeed_auto s).trans next, ?_⟩
  rw [settles]
  exact ⟨rfl, rfl, rfl, statusDbl_withDbl true s.status, rfl, rfl, rfl⟩

theorem execSetSpeed_reserved {o : Setting} {s : State} (idle : s.busy = false) (reserved : 13 ≤ o.toNat) :
    execSetSpeed o s = .refused .speedOutOfRange := by
  have above : params.idxMax.toNat < o.toNat := reserved
  simp [execSetSpeed, idle, above]

theorem decodeSetSpeed_reserved {o : Setting} (reserved : 13 ≤ o.toNat) :
    decodeSetSpeed (o.setWidth 8) = .error .reservedOption := by
  have value : (o.setWidth 8 : Byte).toNat = o.toNat := BitVec.toNat_setWidth_of_le (by decide)
  have low : ¬ (0x10 : Byte) ≤ o.setWidth 8 := by
    rw [BitVec.le_def, value]
    exact Nat.not_le.2 o.isLt
  have above : (13 : Byte) ≤ o.setWidth 8 := by
    rw [BitVec.le_def, value]
    exact reserved
  rw [decodeSetSpeed_eq, if_neg low, if_pos above]

/-- Settles O15: the operation is refused by its range, and its word by its operand. -/
theorem setSpeedReserved : Obligations.SetSpeedReserved := by
  intro o s idle reserved
  refine ⟨execSetSpeed_reserved idle reserved, ?_⟩
  rw [decodeHost_hostWord, if_pos rfl, decodeSetSpeed_reserved reserved]

end Sys2Proof.Machine
end

section
/-! One byte through either variant: what it leaves, and the byte a script spells (R101 to R106). -/

namespace Sys2Proof.Machine

/-- What `Transmit` returned is the byte an oracle's script spelled, whose eight answers it used up (R55, R103). -/
theorem transmit_heard {v : Variant} {b r x : Byte} {s t : State} {rest : List Drive} (e : transmit v b s = .returned r t)
    (oracle : s.env.target = .oracle) (script : s.env.miso = answers [x] ++ rest) : r = x ∧ t.env.miso = rest := by
  obtain ⟨u, heard, -, -, used⟩ := transmit_oracle b (transmit_returned e).1 oracle script
  cases e.symm.trans heard
  exact ⟨rfl, used⟩

/-- Settles O20: the software variant always completes. -/
theorem transmitSoftwareByte : Obligations.TransmitSoftwareByte := by
  intro b s
  obtain ⟨r, t, e, sent⟩ := transmit_live (v := .sw) (s := s) b rfl
  exact ⟨r, t, e, sent.settles, sent.did, fun _ _ => transmit_heard e⟩

theorem statusFlag_withFlag (v : Bool) (st : Byte) : statusFlag (withFlag v st) = v := by
  cases v <;> simp [statusFlag, withFlag]

/-- The hardware variant reads no tick, so nothing of the block but the engine's registers changes (R105, R106). -/
theorem Sent.state_hw {b r : Byte} {s t : State} (h : Sent .hw b r s t) : t = { afterByte .hw b r s with env := t.env } := by
  have settled := h.settles
  unfold Settles at settled
  rw [h.delayStart rfl] at settled
  exact settled

/-- Settles O21: the hardware variant completes while the engine is enabled, in the state of `Sent.state_hw`. -/
theorem transmitHardwareByte : Obligations.TransmitHardwareByte := by
  intro b s enabled
  obtain ⟨r, t, e, sent⟩ := transmit_live (v := .hw) b enabled
  obtain ⟨ticks, tickDraws⟩ := sent.ticks rfl
  have status : t.status = withFlag false s.status := congrArg State.status sent.state_hw
  refine ⟨r, t, e, sent.state_hw, ?_, ?_, sent.did, ticks, tickDraws, fun _ _ => transmit_heard e⟩
  · rw [status, statusFlag_withFlag]
  · rw [status, statusDbl_withFlag]

end Sys2Proof.Machine
end

section
/-! The waits (R109, R110): which readings of the counter a delay uses up, and what a wait asks for. -/

namespace Sys2Proof.Machine

/-- The busy-wait uses up the readings up to the first that is `n` ticks after the start (R109, R212). -/
theorem spin_of_early {n start last : Tick} {early : List Tick} (rest : List Tick)
    (before : ∀ t ∈ early, elapsed t start < n) (ends : ¬ elapsed last start < n) :
    spin n start (early ++ last :: rest) = rest := by
  induction early with
  | nil => exact if_neg ends
  | cons t early ih =>
    obtain ⟨first, others⟩ := List.forall_mem_cons.1 before
    exact (if_pos first).trans (ih others)

/-- `DelayTicks(n)` with its start scripted (R109). -/
theorem delayTicks_of_ticks {start : Tick} {readings : List Tick} {s : State} (n : Tick)
    (scripted : s.env.ticks = start :: readings) : s.delayTicks n = { s with
      delayStart := start, env := { s.env with ticks := spin n start readings, trace := .delay n :: s.env.trace } } := by
  simp [State.delayTicks, State.log, Env.reading, Env.afterTick, scripted]

/-- Settles O28: the start is the first reading given, and the busy-wait uses up the others. -/
theorem delayTicksReadings : Obligations.DelayTicksReadings := by
  intro n start last early rest s scripted before ends
  rw [delayTicks_of_ticks (readings := early ++ last :: rest) n scripted, spin_of_early rest before ends]

/-- A wait puts no level on the wire (R110). -/
theorem wait_wires (n : Nat) (s : State) : wires (s.wait n).env.trace = wires s.env.trace :=
  State.waitUnits_keeps (fun t => wires t.env.trace) (fun m t => by rw [State.delayTicks_env_trace, wires]) n
    (s.log (.wait n))

/-- Settles O29: the log of a wait, read as its ticks and as its wire levels. -/
theorem waitUnits : Obligations.WaitUnits := by
  intro n s
  refine ⟨wait_settles n s, wait_did n s, ?_, wait_wires n s⟩
  rw [(wait_did n s).ticksWaited, ticksWaited_waitEvents]

end Sys2Proof.Machine
end

section
/-! A transmitting instruction with no variant bound is refused (R100, R229); with the engine of the bound hardware variant
disabled it never returns (R107, R234). -/

namespace Sys2Proof.Machine

/-- Settles O26: by the way each instruction is issued. -/
theorem unboundRefused : Obligations.UnboundRefused := by
  intro i s h idle unbound
  cases i with
  | setSpeed | connect | disconnect | enterProg => cases h
  | readFlash | writeFlash | flushPage | readEeprom | writeEeprom => exact issueTransmitting_unbound _ idle unbound
  | progEnable | loadExtAddr | readFlashLo | readFlashHi | writeFlashLo | writeFlashHi | writeFlashPage | wireReadEeprom
  | wireWriteEeprom => exact issueWire_unbound _ idle unbound

/-- The busy-wait of a disabled engine, entered from `s`: DATA holds the byte `d` of the transmit that hangs, and the cached
byte is `hi` (R107, R160). -/
def State.hungAt (hi d : Byte) (s : State) : State := { s with busy := true, hiaddr := hi, data := d, pos := .hung }

/-- The block hangs at its transmit: the instruction is issued and stays in the busy-wait. -/
def Hangs (o : Host.Outcome State Fault Refusal) (s : State) : Prop := ∃ hi d, o = .next (s.hungAt hi d)

/-- An idle block with the hardware variant bound and the engine disabled (R107). -/
structure EngineOff (s : State) : Prop where
  idle : s.busy = false
  bound : s.xport = .hw
  off : s.engineEnabled = false

section
variable {s : State} (h : EngineOff s)
include h

theorem EngineOff.variant : xportVariant s.xport = some .hw := by rw [h.bound]; rfl

theorem exchange_hungAt (hi : Byte) (w : WireWord) :
    exchange .hw w { s with busy := true, hiaddr := hi } = .inside (s.hungAt hi (wireByte w 0)) := exchange_hung w h.off

theorem hangs_of_inside {op : Variant → State → Run Byte} {hi d : Byte}
    (run : op .hw { s with busy := true } = .inside (s.hungAt hi d)) : Hangs (issueTransmitting op s) s :=
  ⟨hi, d, by rw [issueTransmitting_bound op h.idle h.variant, run, Run.finish_inside]⟩

/-- A wire command run by itself hangs at its first byte (log entry 2). -/
theorem hangs_wireCommand {i : Instr} {w : WireWord} (encoded : encodeWord i = .wire w) : Hangs (exec i s) s := by
  refine ⟨wireCache i s.hiaddr, wireByte w 0, ?_⟩
  rw [exec_wire encoded h.idle h.variant, exchange_hungAt h, Run.finishWire_inside]

/-- An operation that begins with a flash command hangs in it, whatever it does next (R164). -/
theorem hangs_flashCommand (address : FlashAddr) (w : WireWord) (f : Variant → Response → State → Run Byte) :
    Hangs (issueTransmitting (fun v t => (flashCommand v address w t).bind (f v)) s) s := by
  have run : flashCommand .hw address w { s with busy := true } = .inside (s.hungAt (extByte address)
      (if extByte address = s.hiaddr then wireByte w 0 else 0x4D)) := flashCommand_hung address w h.off
  exact hangs_of_inside h (by rw [run, Run.bind_inside])

/-- An operation that begins with an exchange hangs in it. -/
theorem hangs_exchange (w : WireWord) (f : Response → State → Run Byte) :
    Hangs (issueTransmitting (fun v t => (exchange v w t).bind f) s) s := by
  have run : exchange .hw w { s with busy := true } = .inside (s.hungAt s.hiaddr (wireByte w 0)) :=
    exchange_hungAt h s.hiaddr w
  exact hangs_of_inside h (by rw [run, Run.bind_inside])

/-- Every transmitting instruction hangs (R107, R234). -/
theorem exec_hangs {i : Instr} (transmitting : transmits i = true) : Hangs (exec i s) s := by
  cases i with
  | setSpeed | connect | disconnect | enterProg => cases transmitting
  | readFlash address => exact hangs_flashCommand h address _ fun _ r t => .returned r.r4 t
  | writeFlash address data pollMode => exact hangs_flashCommand h address _ _
  | flushPage address pollValue => exact hangs_flashCommand h address _ _
  | readEeprom address => exact hangs_exchange h _ _
  | writeEeprom address data => exact hangs_exchange h _ _
  | progEnable | loadExtAddr | readFlashLo | readFlashHi | writeFlashLo | writeFlashHi | writeFlashPage | wireReadEeprom
  | wireWriteEeprom => exact hangs_wireCommand h rfl

end

/-- A step that leaves the state as it is repeats for ever. -/
theorem run_of_step_self {s : State} (stays : step s = .next s) (n : Nat) : core.run n s = .next s := by
  induction n with
  | zero => rfl
  | succ n ih => exact (run_succ n stays).trans ih

/-- Settles O25: the instruction ends in the busy-wait, which every step with nothing presented leaves as it is. -/
theorem hangForEver : Obligations.HangForEver := by
  intro i s transmitting idle bound off nothing
  obtain ⟨hi, d, hung⟩ := exec_hangs ⟨idle, bound, off⟩ transmitting
  have stays : step (s.hungAt hi d) = .next (s.hungAt hi d) := step_wait nothing rfl nofun
  exact ⟨s.hungAt hi d, hung, rfl, rfl, rfl, rfl, rfl, run_of_step_self stays⟩

end Sys2Proof.Machine
end

section
/-! The reset pulse and the Link Controller (R121 to R127): the levels written to RST, and what the host sees of `connect`
and `disconnect`. -/

namespace Sys2Proof.Machine

/-! ### The levels written to RST, read off the actions -/

theorem resetLevels_actions (t : List Event) : resetLevels (actions t) = resetLevels t := by
  induction t with
  | nil => rfl
  | cons e t ih =>
    cases e with
    | line l v => cases l <;> simp [resetLevels, ih]
    | _ => simp [resetLevels, ih]

theorem resetLevels_append (a b : List Event) : resetLevels (a ++ b) = resetLevels a ++ resetLevels b := by
  induction a with
  | nil => rfl
  | cons e a ih =>
    cases e with
    | line l v => cases l <;> simp [resetLevels, ih]
    | _ => simp [resetLevels, ih]

theorem Did.resetLevels {es : List Event} {s t : State} (h : Did es s t) :
    resetLevels t.env.trace = Machine.resetLevels es ++ Machine.resetLevels s.env.trace := by
  rw [← resetLevels_actions t.env.trace, h, resetLevels_append, resetLevels_actions]

/-! ### The pulse -/

/-- The levels of the wire are read off the registers of the link alone (R41). -/
theorem Settles.wire {u t : State} (h : Settles u t) : t.wire = u.wire := by
  rw [h]
  rfl

/-- Settles O30: the registers give the lines at rest, and the log of the pulse gives its ticks and its levels of RST. -/
theorem pulseResetLines : Obligations.PulseResetLines := by
  intro s
  have settles := pulseReset_settles s
  have did := pulseReset_did s
  refine ⟨settles, did, ?_, ?_, did.ticksWaited, did.resetLevels⟩
  · rw [settles.wire]
    rfl
  · rw [settles.wire]
    rfl

/-! ### The host operations -/

/-- An operation that returns nothing in the document writes 0 to `rc` (R28); an idle block runs it to its end (R87). -/
theorem issueLocal_returned (op : State → State) {s : State} (idle : s.busy = false) :
    issueLocal (fun t => .returned 0 (op t)) s = .next (returnedWith 0 (op { s with busy := true })) :=
  issueLocal_idle _ idle

/-- Settles O18: what the operation leaves and does, issued and returned. -/
theorem connectResult : Obligations.ConnectResult := fun s idle =>
  ⟨returnedWith 0 (connect { s with busy := true }), issueLocal_returned connect idle,
    returned_settles 0 (connect_settles { s with busy := true }), returned_did 0 (connect_did { s with busy := true })⟩

theorem disconnect_delayStart (s : State) : (disconnect s).delayStart = s.delayStart := by
  simp [disconnect]

/-- With the three direction bits at 0 no line of the block is driven (R41). -/
theorem disconnected_wire (s : State) : (disconnected s).wire = { rst := none, sck := none, mosi := none } := rfl

/-- Settles O19: what the operation leaves and does, issued and returned; the wire is that of the registers it leaves. -/
theorem disconnectResult : Obligations.DisconnectResult := by
  intro s idle
  have settles : Settles (returnedWith 0 (disconnected s)) (returnedWith 0 (disconnect { s with busy := true })) :=
    returned_settles 0 (disconnect_settles { s with busy := true })
  exact ⟨returnedWith 0 (disconnect { s with busy := true }), issueLocal_returned disconnect idle, settles,
    disconnect_delayStart { s with busy := true }, returned_did 0 (disconnect_did { s with busy := true }),
    settles.wire.trans (disconnected_wire s)⟩

end Sys2Proof.Machine
end

section
/-! Programming-mode entry (R135 to R149): one try and what decides it, the step down, and what the host sees of the whole
handshake. The model has functions named `handshakeTry` and `stepDown`, so the theorems named after O31 and O33 stand under
`ProgModeEntry`. -/

namespace Sys2Proof.Machine

/-! ### One try (R139) -/

/-- The state in which a try sends its first byte: the pulse and the settle wait are over (R139). -/
def State.trySettled (s : State) : State := (State.pulseReset { s with hsState := .tryHandshake }).wait params.settleUnits

theorem handshakeTry_eq (v : Variant) (s : State) : handshakeTry v s = exchange v progEnableWord s.trySettled := rfl

theorem trySettled_settles (s : State) : Settles { s with hsState := .tryHandshake, outRst := false } s.trySettled :=
  (pulseReset_settles _).trans (wait_settles _ _)

theorem trySettled_did (s : State) : Did (waitEvents params.settleUnits ++ pulseEvents) s s.trySettled :=
  (pulseReset_did { s with hsState := .tryHandshake }).trans (wait_did _ _)

theorem trySettled_live {v : Variant} {s : State} (l : live v s = true) : live v s.trySettled = true := by
  rw [live_settles (trySettled_settles s)]
  cases v <;> exact l

theorem trySettled_swDelay (s : State) : s.trySettled.swDelay = s.swDelay := by rw [trySettled_settles]

/-- Settles O31: the exchange of Programming Enable after the pulse and the settle wait. -/
theorem ProgModeEntry.handshakeTry : Obligations.HandshakeTry := by
  intro v s l
  obtain ⟨r, t, run, sent⟩ := exchange_live progEnableWord (trySettled_live l)
  have did := (trySettled_did s).trans sent.did
  rw [trySettled_swDelay, ← List.append_assoc] at did
  exact ⟨r, t, (handshakeTry_eq v s).trans run, (afterCommand_settles (trySettled_settles s)).trans sent.settles, did⟩

/-! ### What decides a try (R143, R145) -/

theorem echoed_iff (r : Response) : echoed r = true ↔ r.r3 = 0x53 := decide_eq_true_iff

theorem echoed_eq_false_iff (r : Response) : echoed r = false ↔ r.r3 ≠ 0x53 := decide_eq_false_iff_not

theorem triesAtSpeed_notEchoed {v : Variant} (n : Nat) {s t : State} {r : Response} (run : handshakeTry v s = .returned r t)
    (other : r.r3 ≠ 0x53) : triesAtSpeed v (n + 1) s = triesAtSpeed v n (failedTry t) := by
  simp [triesAtSpeed, run, (echoed_eq_false_iff r).2 other]

theorem failedTry_of_two_le {t : State} (left : 2 ≤ t.tries.toNat) :
    failedTry t = { t with tries := t.tries - 1, hsState := .retryLocal } := by
  have notLast : t.tries - 1 ≠ 0 := by bv_omega
  exact if_neg notLast

/-- Settles O32: the loop over the tries goes by the third byte alone. -/
theorem tryOutcome : Obligations.TryOutcome := fun _ n _ _ _ run =>
  ⟨triesAtSpeed_echoed n run, triesAtSpeed_notEchoed n run, failedTry_of_two_le⟩

/-! ### Stepping down (R146) -/

theorem stepDown_of_hw {s : State} (bound : s.xport = .hw) :
    stepDown s = State.disableHw { s with hsState := .stepDownSpeed } := by
  simp only [stepDown, bound]

theorem stepDown_of_not_hw {s : State} (other : s.xport ≠ .hw) : stepDown s = { s with hsState := .stepDownSpeed } := by
  cases x : s.xport with
  | none => simp only [stepDown, x]
  | sw => simp only [stepDown, x]
  | hw => exact absurd x other

/-- Settles O33: by whether the hardware variant is bound. -/
theorem ProgModeEntry.stepDown : Obligations.StepDown := by
  refine fun s => ⟨fun bound => ?_, stepDown_of_not_hw⟩
  rw [stepDown_of_hw bound]
  exact setCtrl_settles ctrlDisabled _

/-! ### The whole handshake -/

/-- The handshake, issued at an idle block, returns with the outcome of its loop over the speeds (R87, R135). -/
theorem exec_enterProg {s : State} (idle : s.busy = false) (k : s.speed.toNat ≤ 12) :
    ∃ rs rc t, exec .enterProg s = .next (returnedWith rc t) ∧
      LoopOutcome (startSpeed s) rs { s with busy := true, hsState := .idle } t rc := by
  obtain ⟨rs, rc, t, run, outcome⟩ := enterProg_run k
  refine ⟨rs, rc, t, ?_, outcome⟩
  exact (execEnterProg_idle idle k).trans (by rw [run, Run.finish_returned])

/-- What no try touches, no handshake does (R147, R149). -/
theorem TryFrame.handshakeFrame {s t : State} (h : TryFrame s t) (outRst : t.outRst = false) : HandshakeFrame s t where
  hiaddr := h.hiaddr
  dirRst := h.dirRst
  dirSck := h.dirSck
  dirMosi := h.dirMosi
  pullupMiso := h.pullupMiso
  retries := h.retries
  winStart := h.winStart
  cmd := h.cmd
  host := h.host
  outRst := outRst

/-- The frame speaks neither of `busy`, `hs_state` and `rc` nor of the position. -/
theorem HandshakeFrame.issued {s t : State} (rc : Byte)
    (h : HandshakeFrame { s with busy := true, hsState := .idle } t) : HandshakeFrame s (returnedWith rc t) := by
  obtain ⟨hiaddr, dirRst, dirSck, dirMosi, pullupMiso, retries, winStart, cmd, host, outRst⟩ := h
  exact ⟨hiaddr, dirRst, dirSck, dirMosi, pullupMiso, retries, winStart, cmd, host, outRst⟩

/-- Settles O34: the outcome of the loop over the speeds, its counts solved for the number of tries. -/
theorem enterProgOutcome : Obligations.EnterProgOutcome := by
  intro s idle k
  obtain ⟨least, -⟩ := startSpeed_bounds k
  obtain ⟨rs, rc, t, next, outcome⟩ := exec_enterProg idle k
  refine ⟨rs, returnedWith rc t, next, (outcome.frame.handshakeFrame outcome.outRst).issued rc, rfl, rfl, outcome.trace, ?_,
    rfl⟩
  rcases outcome.outcome with ⟨ok, success, bound, slowest, fastest, left, counted, -, r, rest, responses, echo, before⟩ |
    ⟨failed, fail, speed, counted, silent, slowest⟩
  · have most : t.tries.toNat < 4 := t.tries.isLt
    have tries : rs.length = 3 * (startSpeed s - t.speed.toNat) + (4 - t.tries.toNat) := by omega
    exact .inl ⟨ok, success, bound, slowest, fastest, left, tries, r, rest, responses, (echoed_iff r).1 echo,
      fun x mem => (echoed_eq_false_iff x).1 (before x mem)⟩
  · obtain ⟨xport, swDelay, ctrl, tries⟩ := slowest least
    exact .inr ⟨failed, fail, speed, xport, swDelay, ctrl, tries, counted,
      fun x mem => (echoed_eq_false_iff x).1 (silent x mem)⟩

/-! ### The counts of R148, read off the byte trace -/

theorem exchanges_byteTrace (t : List Event) : exchanges (byteTrace t) = exchanges t := by
  induction t with
  | nil => rfl
  | cons e t ih =>
    cases e with
    | byte tx rx => exact congrArg ((tx, rx) :: ·) ih
    | line l v => cases l <;> exact ih
    | wire | sample | wait | delay | tick => exact ih

theorem resetLevels_byteTrace (t : List Event) : resetLevels (byteTrace t) = resetLevels t := by
  induction t with
  | nil => rfl
  | cons e t ih =>
    cases e with
    | line l v =>
      cases l with
      | rst => exact congrArg (v :: ·) ih
      | sck | mosi => exact ih
    | wire | sample | byte | wait | delay | tick => exact ih

/-- Every try exchanges four bytes (R139). -/
theorem length_exchanges_tries (rs : List Response) : (exchanges (rs.flatMap tryTrace)).length = 4 * rs.length := by
  induction rs with
  | nil => rfl
  | cons r rs ih =>
    rw [List.flatMap_cons, exchanges_append, List.length_append, ih, List.length_cons]
    have one : (exchanges (tryTrace r)).length = 4 := rfl
    omega

/-- Every try raises and lowers RST once (R126, R139). -/
theorem length_resetLevels_tries (rs : List Response) : (resetLevels (rs.flatMap tryTrace)).length = 2 * rs.length := by
  induction rs with
  | nil => rfl
  | cons r rs ih =>
    rw [List.flatMap_cons, resetLevels_append, List.length_append, ih, List.length_cons]
    have one : (resetLevels (tryTrace r)).length = 2 := rfl
    omega

theorem LoopOutcome.length_exchanges {n : Nat} {rs : List Response} {s t : State} {rc : Byte}
    (h : LoopOutcome n rs s t rc) :
    (exchanges t.env.trace).length = 4 * rs.length + (exchanges s.env.trace).length := by
  rw [← exchanges_byteTrace, h.trace, exchanges_append, List.length_append, length_exchanges_tries, exchanges_byteTrace]

theorem LoopOutcome.length_resetLevels {n : Nat} {rs : List Response} {s t : State} {rc : Byte}
    (h : LoopOutcome n rs s t rc) :
    (resetLevels t.env.trace).length = 2 * rs.length + (resetLevels s.env.trace).length := by
  rw [← resetLevels_byteTrace, h.trace, resetLevels_append, List.length_append, length_resetLevels_tries,
    resetLevels_byteTrace]

/-- A handshake that fails has used every try of every speed (R148). -/
theorem LoopOutcome.length_of_failed {n : Nat} {rs : List Response} {s t : State} {rc : Byte} (h : LoopOutcome n rs s t rc)
    (failed : rc = 1) : rs.length = 3 * n := by
  rcases h.outcome with ⟨ok, -⟩ | ⟨-, -, -, counted, -⟩
  · exact absurd (ok.symm.trans failed) (by decide)
  · exact counted

/-- Settles O35: with no target no try is echoed, so every try is used, and each has its four bytes and its pulse. -/
theorem enterProgAbsentTarget : Obligations.EnterProgAbsentTarget := by
  intro s idle k absent pullup
  obtain ⟨rs, rc, t, next, outcome⟩ := exec_enterProg idle k
  have failed : rc = 1 := outcome.absent absent pullup
  have tries := outcome.length_of_failed failed
  refine ⟨returnedWith rc t, next, failed, outcome.frame.target.absent absent, ?_, ?_⟩
  · refine outcome.length_exchanges.trans ?_
    rw [tries, ← Nat.mul_assoc]
  · refine outcome.length_resetLevels.trans ?_
    rw [tries]

end Sys2Proof.Machine
end

section
/-! What each instruction leaves in the cached byte (R121, R160, R164): an exchange leaves it alone, the Address Tracker leaves
the address's byte, and a poll that starts there stays there, whether the operation returns or hangs (R107). -/

namespace Sys2Proof.Machine

theorem Settles.hiaddr {u t : State} (h : Settles u t) : t.hiaddr = u.hiaddr := by rw [h]

theorem afterCommand_hiaddr (v : Variant) (w : WireWord) (r : Response) (s : State) :
    (afterCommand v w r s).hiaddr = s.hiaddr := by
  cases v <;> rfl

@[simp] theorem Run.finish_hiaddr (r : Run Byte) : r.finish.hiaddr = r.state.hiaddr := by cases r <;> rfl

@[simp] theorem Run.finishWire_hiaddr (r : Run Response) : r.finishWire.hiaddr = r.state.hiaddr := by cases r <;> rfl

/-- A cached byte that the first part leaves and what comes next keeps is what the whole leaves. -/
theorem Run.bind_hiaddr {α β : Type} {h : Byte} {r : Run α} {f : α → State → Run β} (first : r.state.hiaddr = h)
    (next : ∀ a t, t.hiaddr = h → (f a t).state.hiaddr = h) : (r.bind f).state.hiaddr = h := by
  cases r with
  | returned a t => exact next a t first
  | inside t => exact first

/-! ### The operations -/

theorem exchange_hiaddr (v : Variant) (w : WireWord) (s : State) : (exchange v w s).state.hiaddr = s.hiaddr := by
  cases l : live v s with
  | true =>
    obtain ⟨r, t, run, sent⟩ := exchange_live w l
    rw [run, Run.state_returned, sent.settles.hiaddr, afterCommand_hiaddr]
  | false => rw [exchange_hung w l, Run.state_inside]

theorem loadExtended_hiaddr (v : Variant) (hb : Byte) (s : State) : (loadExtended v hb s).state.hiaddr = hb :=
  exchange_hiaddr v (loadExtWord hb) { s with hiaddr := hb }

theorem updateExtended_hiaddr (v : Variant) (a : FlashAddr) (s : State) :
    (updateExtended v a s).state.hiaddr = extByte a := by
  unfold updateExtended
  split
  case isTrue same => exact same.symm
  case isFalse => exact Run.bind_hiaddr (loadExtended_hiaddr v _ s) fun _ _ kept => kept

theorem flashCommand_hiaddr (v : Variant) (a : FlashAddr) (w : WireWord) (s : State) :
    (flashCommand v a w s).state.hiaddr = extByte a :=
  Run.bind_hiaddr (updateExtended_hiaddr v a s) fun _ t kept => (exchange_hiaddr v w t).trans kept

theorem readFlash_hiaddr (v : Variant) (a : FlashAddr) (s : State) : (readFlash v a s).state.hiaddr = extByte a :=
  Run.bind_hiaddr (flashCommand_hiaddr v a _ s) fun _ _ kept => kept

theorem windowTest_hiaddr (s : State) : (windowTest s).hiaddr = s.hiaddr := by
  unfold windowTest
  split <;> simp

/-- A poll keeps the byte that the command before it left (R164, R176). -/
theorem pollIteration_hiaddr (v : Variant) {a : FlashAddr} (m : Byte) {s : State} (cached : s.hiaddr = extByte a) :
    (pollIteration v a m s).state.hiaddr = extByte a := by
  unfold pollIteration
  split
  · exact cached
  · refine Run.bind_hiaddr (readFlash_hiaddr v a s) fun r t kept => ?_
    split
    · exact kept
    · dsimp only
      split <;> exact (windowTest_hiaddr t).trans kept

theorem pollFlash_hiaddr (v : Variant) {a : FlashAddr} (m : Byte) {s : State} (cached : s.hiaddr = extByte a) :
    (pollFlash v a m s).state.hiaddr = extByte a := pollIteration_hiaddr v m cached

theorem writeFlash_hiaddr (v : Variant) (a : FlashAddr) (d p : Byte) (s : State) :
    (writeFlash v a d p s).state.hiaddr = extByte a := by
  refine Run.bind_hiaddr (flashCommand_hiaddr v a _ s) fun _ t kept => ?_
  split
  · exact kept
  · split
    · rw [Run.state_returned, State.wait_hiaddr, kept]
    · exact pollFlash_hiaddr v _ kept

theorem flushPage_hiaddr (v : Variant) (a : FlashAddr) (p : Byte) (s : State) :
    (flushPage v a p s).state.hiaddr = extByte a := by
  refine Run.bind_hiaddr (flashCommand_hiaddr v a _ s) fun _ t kept => ?_
  split
  · rw [Run.state_returned, State.wait_hiaddr, kept]
  · exact pollFlash_hiaddr v _ kept

theorem readEeprom_hiaddr (v : Variant) (a : EeAddr) (s : State) : (readEeprom v a s).state.hiaddr = s.hiaddr :=
  Run.bind_hiaddr (exchange_hiaddr v _ s) fun _ _ kept => kept

theorem writeEeprom_hiaddr (v : Variant) (a : EeAddr) (d : Byte) (s : State) :
    (writeEeprom v a d s).state.hiaddr = s.hiaddr := by
  refine Run.bind_hiaddr (exchange_hiaddr v _ s) fun _ t kept => ?_
  rw [Run.state_returned, State.wait_hiaddr, kept]

theorem setSetting_hiaddr (o : Setting) (s : State) : (setSetting o s).hiaddr = s.hiaddr := by
  unfold setSetting
  split
  · split <;> rfl
  · rfl

/-! ### The instructions -/

theorem issueTransmitting_hiaddr {op : Variant → State → Run Byte} {s t : State} {h : Byte}
    (leaves : ∀ v, (op v { s with busy := true }).state.hiaddr = h) (e : issueTransmitting op s = .next t) :
    t.hiaddr = h := by
  obtain ⟨-, v, -, rfl⟩ := issueTransmitting_next e
  exact (Run.finish_hiaddr _).trans (leaves v)

theorem issueWire_hiaddr {op : Variant → State → Run Response} {s t : State} {h : Byte}
    (leaves : ∀ v, (op v { s with busy := true }).state.hiaddr = h) (e : issueWire op s = .next t) : t.hiaddr = h := by
  obtain ⟨-, v, -, rfl⟩ := issueWire_next e
  exact (Run.finishWire_hiaddr _).trans (leaves v)

theorem execSetSpeed_hiaddr {o : Setting} {s t : State} (e : execSetSpeed o s = .next t) : t.hiaddr = s.hiaddr := by
  obtain ⟨-, -, rfl⟩ := execSetSpeed_next e
  exact setSetting_hiaddr (mapAuto o) { s with busy := true }

/-- `connect` writes the sentinel (R121). -/
theorem execConnect_hiaddr {s t : State} (e : execConnect s = .next t) : t.hiaddr = 0xFF := by
  obtain ⟨-, rfl⟩ := issueLocal_next e
  exact (connect_settles { s with busy := true }).hiaddr

theorem execDisconnect_hiaddr {s t : State} (e : execDisconnect s = .next t) : t.hiaddr = s.hiaddr := by
  obtain ⟨-, rfl⟩ := issueLocal_next e
  exact (disconnect_settles { s with busy := true }).hiaddr

theorem execEnterProg_hiaddr {s t : State} (e : execEnterProg s = .next t) : t.hiaddr = s.hiaddr := by
  obtain ⟨-, k, rfl⟩ := execEnterProg_next e
  obtain ⟨_, rc, u, run, outcome⟩ := enterProg_run k
  rw [run]
  exact outcome.frame.hiaddr

/-- Settles O40: by the operation that each instruction issues. -/
theorem whoWritesHiaddr : Obligations.WhoWritesHiaddr := by
  intro i s t e
  cases i with
  | setSpeed option => exact execSetSpeed_hiaddr e
  | connect => exact execConnect_hiaddr e
  | disconnect => exact execDisconnect_hiaddr e
  | enterProg => exact execEnterProg_hiaddr e
  | readFlash address => exact issueTransmitting_hiaddr (fun v => readFlash_hiaddr v address _) e
  | writeFlash address data pollMode =>
    exact issueTransmitting_hiaddr (fun v => writeFlash_hiaddr v address data pollMode _) e
  | flushPage address pollValue => exact issueTransmitting_hiaddr (fun v => flushPage_hiaddr v address pollValue _) e
  | readEeprom address => exact issueTransmitting_hiaddr (fun v => readEeprom_hiaddr v address _) e
  | writeEeprom address data => exact issueTransmitting_hiaddr (fun v => writeEeprom_hiaddr v address data _) e
  | loadExtAddr h => exact issueWire_hiaddr (fun v => loadExtended_hiaddr v h _) e
  | progEnable | readFlashLo | readFlashHi | writeFlashLo | writeFlashHi | writeFlashPage | wireReadEeprom
  | wireWriteEeprom => exact issueWire_hiaddr (fun v => exchange_hiaddr v _ _) e

end Sys2Proof.Machine
end

section
/-! The Address Tracker (R160, R161): what it sends and when, and that a second access to a segment sends nothing. The model has
a function named `updateExtended`, so the theorem named after O37 stands under `AddressTracker`. -/

namespace Sys2Proof.Machine

theorem updateExtended_cached {v : Variant} {a : FlashAddr} {s : State} (same : extByte a = s.hiaddr) :
    updateExtended v a s = .returned () s := if_pos same

theorem updateExtended_differs {v : Variant} {a : FlashAddr} {s : State} (differs : extByte a ≠ s.hiaddr) :
    updateExtended v a s = (loadExtended v (extByte a) s).bind fun _ t => .returned () t := if_neg differs

theorem loadExtended_live {v : Variant} {s : State} (hb : Byte) (l : live v s = true) :
    ∃ r t, loadExtended v hb s = .returned r t ∧ Exchanged v (loadExtWord hb) r { s with hiaddr := hb } t :=
  exchange_live (loadExtWord hb) ((live_hiaddr hb).trans l)

/-- The cache is written before the byte that hangs (R160, R107). -/
theorem loadExtended_hung {v : Variant} {s : State} (hb : Byte) (off : live v s = false) :
    loadExtended v hb s = .inside { s with hiaddr := hb, data := 0x4D, pos := .hung } := by
  have opcode : wireByte (loadExtWord hb) 0 = 0x4D := wireByte_wireWord_0 _ _ _ _
  rw [loadExtended, exchange_hung _ ((live_hiaddr hb).trans off), opcode]

/-- Settles O37: the cache is compared, and what differs is loaded, or hangs there. -/
theorem AddressTracker.updateExtended : Obligations.UpdateExtended := by
  refine fun v address s => ⟨updateExtended_cached, fun differs l => ?_, fun differs off => ?_⟩
  · obtain ⟨r, t, run, sent⟩ := loadExtended_live (extByte address) l
    exact ⟨r, t, by rw [updateExtended_differs differs, run, Run.bind_returned], sent.settles, sent.did⟩
  · rw [updateExtended_differs differs, loadExtended_hung _ off, Run.bind_inside]

/-- A wire command adds its four exchanges to the log, so the exchanges do not stay the same. -/
theorem Exchanged.exchanges_ne {v : Variant} {w : WireWord} {r : Response} {s t : State} (h : Exchanged v w r s t) :
    exchanges t.env.trace ≠ exchanges s.env.trace := by
  intro same
  have none := List.append_left_eq_self.1 (h.did.exchanges.symm.trans same)
  rw [exchanges_commandEvents] at none
  cases none

theorem extByte_eq_of_segment {a b : FlashAddr} (segment : a >>> 17 = b >>> 17) : extByte a = extByte b :=
  congrArg (BitVec.setWidth 8) segment

/-- Settles O38: by whether the byte was cached before. -/
theorem updateExtendedOnce : Obligations.UpdateExtendedOnce := by
  intro v a b s t run
  have cached : t.hiaddr = extByte a := by
    have leaves := updateExtended_hiaddr v a s
    rwa [run] at leaves
  rw [← extByte_eq_extractLsb']
  refine ⟨cached, ?_, fun segment => updateExtended_cached (cached.trans (extByte_eq_of_segment segment)).symm⟩
  rcases updateExtended_returned run with ⟨same, rfl⟩ | ⟨differs, r, sent⟩
  · exact iff_of_true rfl same.symm
  · exact iff_of_false sent.exchanges_ne differs.symm

end Sys2Proof.Machine
end

section
/-! The first flash access after `connect` (R121, R162): until the Address Tracker runs the cache holds the sentinel, and then a
flash operation sends one Load Extended Address, its own command, and at most one read of the address. -/

namespace Sys2Proof.Machine

/-! ### The sentinel stays -/

theorem exec_keepsSentinel {i : Instr} {s t : State} (e : exec i s = .next t) (other : runsTracker i = false)
    (sentinel : s.hiaddr = 0xFF) : t.hiaddr = 0xFF := by
  have leaves := whoWritesHiaddr i s t e
  cases i with
  | connect => exact leaves
  | readFlash | writeFlash | flushPage | loadExtAddr => cases other
  | setSpeed | disconnect | enterProg | readEeprom | writeEeprom | progEnable | readFlashLo | readFlashHi | writeFlashLo
  | writeFlashHi | writeFlashPage | wireReadEeprom | wireWriteEeprom => exact leaves.trans sentinel

theorem execAll_cons {i : Instr} {rest : List Instr} {s u : State} (h : execAll (i :: rest) s = some u) :
    ∃ t, exec i s = .next t ∧ execAll rest t = some u := by
  cases e : exec i s with
  | next t => exact ⟨t, rfl, by rwa [execAll, e] at h⟩
  | fault | refused => simp [execAll, e] at h

theorem execAll_keepsSentinel {is : List Instr} {s u : State} (run : execAll is s = some u)
    (others : ∀ i ∈ is, runsTracker i = false) (sentinel : s.hiaddr = 0xFF) : u.hiaddr = 0xFF := by
  induction is generalizing s with
  | nil =>
    cases run
    exact sentinel
  | cons i rest ih =>
    obtain ⟨other, othersRest⟩ := List.forall_mem_cons.1 others
    obtain ⟨t, e, runRest⟩ := execAll_cons run
    exact ih runRest othersRest (exec_keepsSentinel e other sentinel)

/-! ### What follows the command -/

theorem flashEvents_of_cached {v : Variant} {d : Tick} {hi : Byte} {a : FlashAddr} {load r : Response} {w : WireWord}
    (cached : extByte a = hi) : flashEvents v d hi a load w r = commandEvents v d w r := by
  simp [flashEvents, cached]

theorem flashEvents_of_ne {v : Variant} {d : Tick} {hi : Byte} {a : FlashAddr} {load r : Response} {w : WireWord}
    (differs : extByte a ≠ hi) : flashEvents v d hi a load w r =
      commandEvents v d w r ++ commandEvents v d (loadExtWord (extByte a)) load := by
  simp [flashEvents, differs]

/-- What is exchanged is nothing, or one read of the address with no Load Extended Address. -/
def AtMostOneRead (a : FlashAddr) (es : List Event) : Prop :=
  exchanges es = [] ∨ ∃ q, exchanges es = commandLog (readFlashWord a) q

theorem atMostOneRead_nil (a : FlashAddr) : AtMostOneRead a [] := .inl rfl

theorem atMostOneRead_waitEvents (a : FlashAddr) (n : Nat) : AtMostOneRead a (waitEvents n) := .inl (exchanges_waitEvents n)

/-- A read of a cached address, with what no reading of the exchanges sees before and after it. -/
theorem atMostOneRead_read {v : Variant} {d : Tick} {hi : Byte} {a : FlashAddr} {load q : Response} {before after : List Event}
    (cached : extByte a = hi) (quietBefore : exchanges before = []) (quietAfter : exchanges after = []) :
    AtMostOneRead a (after ++ flashEvents v d hi a load (readFlashWord a) q ++ before) := by
  refine .inr ⟨q, ?_⟩
  rw [flashEvents_of_cached cached, exchanges_append, exchanges_append, quietBefore, quietAfter, exchanges_commandEvents,
    List.nil_append, List.append_nil]

/-- `PollFlash` of a cached address, up to the end of its first iteration, reads it once (R164, R176). -/
theorem pollFlash_atMostOneRead {v : Variant} {a : FlashAddr} (m : Byte) {t : State} (l : live v t = true)
    (cached : t.hiaddr = extByte a) :
    ∃ later, Did later t (pollFlash v a m t).finish ∧ AtMostOneRead a later := by
  obtain ⟨x, u, settles, opened, load, q, iterated⟩ := pollFlash_iterated a m l
  have hit : extByte a = u.hiaddr := (settles.hiaddr.trans cached).symm
  rcases iterated with ⟨-, -, did⟩ | ⟨-, y, -, -, did⟩ | ⟨-, y, z, -, -, -, did⟩ | ⟨-, y, z, -, -, -, did⟩
  · exact ⟨_, opened.trans did, atMostOneRead_read (after := []) hit rfl rfl⟩
  · exact ⟨_, opened.trans did, atMostOneRead_read (after := [.tick y]) hit rfl rfl⟩
  · exact ⟨_, opened.trans did, atMostOneRead_read (after := [.tick z, .tick y]) hit rfl rfl⟩
  · exact ⟨_, opened.trans did, atMostOneRead_read (after := [.tick z, .tick y]) hit rfl rfl⟩

/-! ### The flash operations -/

/-- A flash operation issued while the cache differs: Load Extended Address, its own command, then what it does after that
(R160, R164). -/
theorem flashOperation_differs {P : List Event → Prop} {v : Variant} {a : FlashAddr} {w : WireWord}
    {f : Variant → Response → State → Run Byte} {u : State} (idle : u.busy = false) (bound : xportVariant u.xport = some v)
    (l : live v u = true) (differs : extByte a ≠ u.hiaddr)
    (after : ∀ r t, live v t = true → t.hiaddr = extByte a → ∃ later, Did later t (f v r t).finish ∧ P later) :
    ∃ load r later t, issueTransmitting (fun v t => (flashCommand v a w t).bind (f v)) u = .next t ∧
      Did (later ++ commandEvents v u.swDelay w r ++ commandEvents v u.swDelay (loadExtWord (extByte a)) load) u t ∧
      P later := by
  obtain ⟨load, r, t, run, -, did, -, lt⟩ := issued_flash a w l
  have cached : t.hiaddr = extByte a := by
    have leaves := flashCommand_hiaddr v a w { u with busy := true }
    rwa [run] at leaves
  obtain ⟨later, did', p⟩ := after r t lt cached
  rw [flashEvents_of_ne differs] at did
  refine ⟨load, r, later, (f v r t).finish, ?_, ?_, p⟩
  · rw [issueTransmitting_bound _ idle bound, run, Run.bind_returned]
  · rw [List.append_assoc]
    exact did.trans did'

/-- Settles O39: until the access the sentinel stays cached, so its byte differs; what each operation does after its command is
nothing, a wait, or a poll. -/
theorem firstFlashAccessAfterConnect : Obligations.FirstFlashAccessAfterConnect := by
  intro address between v s t u notSentinel connects run others idle bound l
  have sentinel := execAll_keepsSentinel run others (execConnect_hiaddr connects)
  have differs : extByte address ≠ u.hiaddr := fun same => notSentinel (same.trans sentinel)
  refine ⟨?_, fun data pollMode => ?_, fun pollValue => ?_⟩
  · obtain ⟨load, r, _, w, next, did, rfl⟩ := flashOperation_differs (P := (· = [])) (w := readFlashWord address)
      (f := fun _ r t => .returned r.r4 t) idle bound l differs fun r t _ _ => ⟨[], returned_did r.r4 (Did.refl t), rfl⟩
    exact ⟨load, r, w, next, did⟩
  · refine flashOperation_differs (P := AtMostOneRead address) idle bound l differs fun r t lt cached => ?_
    split
    · exact ⟨[], returned_did 0 (Did.refl t), atMostOneRead_nil address⟩
    · split
      · exact ⟨_, returned_did 0 (wait_did _ t), atMostOneRead_waitEvents address _⟩
      · exact pollFlash_atMostOneRead _ lt cached
  · refine flashOperation_differs (P := AtMostOneRead address) idle bound l differs fun r t lt cached => ?_
    split
    · exact ⟨_, returned_did 0 (wait_did _ t), atMostOneRead_waitEvents address _⟩
    · exact pollFlash_atMostOneRead _ lt cached

end Sys2Proof.Machine
end

section
/-! The flash operations at an idle block with a variant that completes (R164, R170 to R179): the flash command, and what each
operation does after it. -/

namespace Sys2Proof.Machine

/-- What a flash operation finds once its command is done: the registers, the log, a variant that completes (R164). -/
structure FlashIssued (v : Variant) (a : FlashAddr) (w : WireWord) (load r : Response) (s t : State) : Prop where
  settles : Settles { afterFlash v a w r s with busy := true } t
  did : Did (flashEvents v s.swDelay s.hiaddr a load w r) s t
  delayStart : v = .hw → t.delayStart = s.delayStart
  live : Machine.live v t = true

/-- Every flash operation is its command, issued, and then what it does next. -/
theorem flashOperation_issued {v : Variant} {s : State} (a : FlashAddr) (w : WireWord)
    (f : Variant → Response → State → Run Byte) (idle : s.busy = false) (bound : xportVariant s.xport = some v)
    (l : live v s = true) :
    ∃ load r t, issueTransmitting (fun v t => (flashCommand v a w t).bind (f v)) s = .next (f v r t).finish ∧
      FlashIssued v a w load r s t := by
  obtain ⟨load, r, t, run, settles, did, delayStart, lt⟩ := issued_flash a w l
  exact ⟨load, r, t, by rw [issueTransmitting_bound _ idle bound, run, Run.bind_returned], settles, did, delayStart, lt⟩

section
variable {v : Variant} {a : FlashAddr} {w : WireWord} {load r : Response} {s t : State}
  (h : FlashIssued v a w load r s t)
include h

/-- The operation returns `x` right after its command. -/
theorem FlashIssued.returned (x : Byte) : Settles (returnedWith x (afterFlash v a w r s)) (returnedWith x t) ∧
    (v = .hw → (returnedWith x t).delayStart = s.delayStart) ∧
    Did (flashEvents v s.swDelay s.hiaddr a load w r) s (returnedWith x t) :=
  ⟨returned_settles x h.settles, h.delayStart, returned_did x h.did⟩

/-- The operation waits a fixed delay after its command and returns `x`. -/
theorem FlashIssued.waited (n : Nat) (x : Byte) :
    Settles (returnedWith x (afterFlash v a w r s)) (returnedWith x (t.wait n)) ∧
    Did (waitEvents n ++ flashEvents v s.swDelay s.hiaddr a load w r) s (returnedWith x (t.wait n)) :=
  ⟨returned_settles x (h.settles.trans (wait_settles n t)), returned_did x (h.did.trans (wait_did n t))⟩

/-- The operation opens a poll after its command, with the whole budget and a window from a reading `x` (R176). -/
theorem FlashIssued.polled (m : Byte) : ∃ x u,
    Settles { afterFlash v a w r s with busy := true, retries := 30, winStart := x } u ∧
    Did (.tick x :: flashEvents v s.swDelay s.hiaddr a load w r) s u ∧
    PollIterated v a m u (pollFlash v a m t).finish := by
  obtain ⟨x, u, settles, did, iterated⟩ := pollFlash_iterated a m h.live
  refine ⟨x, u, ?_, h.did.trans did, iterated⟩
  exact (h.settles.map (fun z => { z with retries := 30, winStart := x }) fun _ _ _ => rfl).trans settles

end

/-! ### readFlash -/

/-- Two addresses with the same bits 24 to 0 have the same fields. -/
theorem extractLsb'_eq_of_low {a b : FlashAddr} {i n : Nat} (same : a.extractLsb' 0 25 = b.extractLsb' 0 25)
    (inside : i + n ≤ 25) : a.extractLsb' i n = b.extractLsb' i n := by
  apply BitVec.eq_of_getLsbD_eq
  intro k hk
  have bit := congrArg (fun x : BitVec 25 => x.getLsbD (i + k)) same
  simpa [show i + k < 25 by omega, hk] using bit

theorem byteSelect_eq_of_low {a b : FlashAddr} (same : a.extractLsb' 0 25 = b.extractLsb' 0 25) :
    byteSelect a = byteSelect b := by
  have bit := congrArg (fun x : BitVec 25 => x.getLsbD 0) same
  rw [byteSelect_cases, byteSelect_cases, show a.getLsbD 0 = b.getLsbD 0 by simpa using bit]

/-- Bits 31 to 25 of the address reach neither the command nor the Address Tracker (R46, R70, R71). -/
theorem exec_readFlash_eq_of_low {a b : FlashAddr} (same : a.extractLsb' 0 25 = b.extractLsb' 0 25) (s : State) :
    exec (.readFlash a) s = exec (.readFlash b) s := by
  have ext : extByte a = extByte b := by
    rw [extByte_eq_extractLsb', extByte_eq_extractLsb', extractLsb'_eq_of_low same (by decide)]
  have word : readFlashWord a = readFlashWord b := by
    simp only [readFlashWord, byteSelect_eq_of_low same, flashHigh_eq_extractLsb', flashLow_eq_extractLsb',
      extractLsb'_eq_of_low same (show 9 + 8 ≤ 25 by decide), extractLsb'_eq_of_low same (show 1 + 8 ≤ 25 by decide)]
  have run : ∀ v t, readFlash v a t = readFlash v b t := fun v t => by
    simp only [readFlash, flashCommand, updateExtended, ext, word]
  simp only [exec, execReadFlash, run]

/-- Settles O41: the operation returns the fourth response right after its command; its fields leave bits 31 to 25 out. -/
theorem readFlashResult : Obligations.ReadFlashResult := by
  refine ⟨fun address v s idle bound l => ?_, fun a b s same => exec_readFlash_eq_of_low same s⟩
  obtain ⟨load, r, t, next, issued⟩ := flashOperation_issued address (readFlashWord address)
    (fun _ r t => .returned r.r4 t) idle bound l
  exact ⟨load, r, _, next, issued.returned r.r4⟩

/-! ### writeFlash and flushPage -/

/-- What `writeFlash` does after its command (R173 to R175). -/
def afterWrite (address : FlashAddr) (data pollMode : Byte) (v : Variant) (_ : Response) (t : State) : Run Byte :=
  if pollMode = 0 then .returned 0 t
  else if data = params.pollBusyByte then .returned 0 (t.wait params.flashDelayUnits)
  else pollFlash v address params.pollBusyByte t

/-- What `flushPage` does after its command (R179). -/
def afterFlush (address : FlashAddr) (pollValue : Byte) (v : Variant) (_ : Response) (t : State) : Run Byte :=
  if pollValue = params.pollErasedByte then .returned 0 (t.wait params.flashDelayUnits)
  else pollFlash v address params.pollErasedByte t

theorem exec_writeFlash (address : FlashAddr) (data pollMode : Byte) (s : State) :
    exec (.writeFlash address data pollMode) s = issueTransmitting (fun v t =>
      (flashCommand v address (writeFlashWord address data) t).bind (afterWrite address data pollMode v)) s := rfl

theorem exec_flushPage (address : FlashAddr) (pollValue : Byte) (s : State) :
    exec (.flushPage address pollValue) s = issueTransmitting (fun v t =>
      (flashCommand v address (writePageWord address) t).bind (afterFlush address pollValue v)) s := rfl

section
variable {address : FlashAddr} {data pollMode pollValue : Byte} (v : Variant) (r : Response) (t : State)

theorem afterWrite_fixedDelay (polls : pollMode ≠ 0) :
    afterWrite address 0x7F pollMode v r t = .returned 0 (t.wait 15) := by
  rw [afterWrite, if_neg polls]
  rfl

theorem afterWrite_polled (polls : pollMode ≠ 0) (other : data ≠ 0x7F) :
    afterWrite address data pollMode v r t = pollFlash v address 0x7F t := by
  rw [afterWrite, if_neg polls, if_neg (show data ≠ params.pollBusyByte from other)]
  rfl

theorem afterFlush_fixedDelay : afterFlush address 0xFF v r t = .returned 0 (t.wait 15) := rfl

theorem afterFlush_polled (other : pollValue ≠ 0xFF) :
    afterFlush address pollValue v r t = pollFlash v address 0xFF t := by
  rw [afterFlush, if_neg (show pollValue ≠ params.pollErasedByte from other)]
  rfl

end

/-- Settles O42: with polling disabled nothing follows the command. -/
theorem writeFlashUnpolled : Obligations.WriteFlashUnpolled := by
  intro address data v s idle bound l
  obtain ⟨load, r, t, next, issued⟩ := flashOperation_issued address (writeFlashWord address data)
    (afterWrite address data 0) idle bound l
  exact ⟨load, r, returnedWith 0 t, next, issued.returned 0⟩

/-- Settles O43: the fixed delay follows the command. -/
theorem writeFlashFixedDelay : Obligations.WriteFlashFixedDelay := by
  intro address pollMode v s idle bound l polls
  obtain ⟨load, r, t, next, issued⟩ := flashOperation_issued address (writeFlashWord address 0x7F)
    (afterWrite address 0x7F pollMode) idle bound l
  rw [afterWrite_fixedDelay v r t polls, Run.finish_returned] at next
  exact ⟨load, r, _, next, issued.waited 15 0⟩

/-- Settles O44: the poll for 0x7F follows the command. -/
theorem writeFlashPolled : Obligations.WriteFlashPolled := by
  intro address data pollMode v s idle bound l polls other
  obtain ⟨load, r, t, next, issued⟩ := flashOperation_issued address (writeFlashWord address data)
    (afterWrite address data pollMode) idle bound l
  rw [afterWrite_polled v r t polls other] at next
  obtain ⟨x, u, settles, did, iterated⟩ := issued.polled 0x7F
  exact ⟨load, r, x, u, _, next, settles, did, iterated⟩

/-- Settles O45: the fixed delay follows the page command. -/
theorem flushPageFixedDelay : Obligations.FlushPageFixedDelay := by
  intro address v s idle bound l
  obtain ⟨load, r, t, next, issued⟩ := flashOperation_issued address (writePageWord address)
    (afterFlush address 0xFF) idle bound l
  exact ⟨load, r, returnedWith 0 (t.wait 15), next, issued.waited 15 0⟩

/-- Settles O46: the poll for 0xFF follows the page command. -/
theorem flushPagePolled : Obligations.FlushPagePolled := by
  intro address pollValue v s idle bound l other
  obtain ⟨load, r, t, next, issued⟩ := flashOperation_issued address (writePageWord address)
    (afterFlush address pollValue) idle bound l
  rw [afterFlush_polled v r t other] at next
  obtain ⟨x, u, settles, did, iterated⟩ := issued.polled 0xFF
  exact ⟨load, r, x, u, _, next, settles, did, iterated⟩

end Sys2Proof.Machine
end

section
/-! The EEPROM operations at an idle block with a variant that completes (R180, R181): one command, whatever byte is cached
(R48). -/

namespace Sys2Proof.Machine

/-- An EEPROM operation: its command, then `f`, and `x` of the response is returned. -/
def commandThen (w : WireWord) (x : Response → Byte) (f : State → State) (v : Variant) (s : State) : Run Byte :=
  (exchange v w s).bind fun r t => .returned (x r) (f t)

/-- What is done after the command does not look at the cached byte, so the operation does not either. -/
theorem eepromOperation_issued {v : Variant} {s : State} (w : WireWord) (x : Response → Byte) (f : State → State)
    (cacheFree : ∀ h t, f (withCache h t) = withCache h (f t)) (idle : s.busy = false)
    (bound : xportVariant s.xport = some v) (l : live v s = true) :
    ∃ r t, issueTransmitting (commandThen w x f) s = .next (returnedWith (x r) (f t)) ∧
      Settles { afterCommand v w r s with busy := true } t ∧ (v = .hw → t.delayStart = s.delayStart) ∧
      Did (commandEvents v s.swDelay w r) s t ∧
      ∀ h : Byte, issueTransmitting (commandThen w x f) { s with hiaddr := h } =
        .next { returnedWith (x r) (f t) with hiaddr := h } := by
  obtain ⟨r, t, run, settles, did, delayStart⟩ := issued_exchange w l
  refine ⟨r, t, ?_, settles, delayStart, did, fun h => ?_⟩
  · rw [issueTransmitting_bound _ idle bound, commandThen, run, Run.bind_returned, Run.finish_returned]
  · have cached : exchange v w { s with hiaddr := h, busy := true } = .returned r (withCache h t) := by
      rw [show ({ s with hiaddr := h, busy := true } : State) = withCache h { s with busy := true } from rfl,
        exchange_withCache, run]
      rfl
    rw [issueTransmitting_bound (s := { s with hiaddr := h }) _ idle bound, commandThen, cached, Run.bind_returned,
      cacheFree, Run.finish_returned]
    rfl

/-- Settles O49: the fourth response is returned right after the command. -/
theorem readEepromResult : Obligations.ReadEepromResult := by
  intro address v s idle bound l
  obtain ⟨r, t, next, settles, delayStart, did, cacheFree⟩ := eepromOperation_issued (readEepromWord address) Response.r4
    id (fun _ _ => rfl) idle bound l
  exact ⟨r, returnedWith r.r4 t, next, returned_settles r.r4 settles, delayStart, returned_did r.r4 did, cacheFree⟩

/-- Settles O50: the fixed delay follows the command. -/
theorem writeEepromResult : Obligations.WriteEepromResult := by
  intro address data v s idle bound l
  obtain ⟨r, t, next, settles, -, did, cacheFree⟩ := eepromOperation_issued (writeEepromWord address data) (fun _ => 0)
    (State.wait params.eepromDelayUnits) (fun h t => wait_withCache h _ t) idle bound l
  exact ⟨r, _, next, returned_settles 0 (settles.trans (wait_settles _ t)), returned_did 0 (did.trans (wait_did _ t)),
    cacheFree⟩

end Sys2Proof.Machine
end

section
/-! The poll loop (R176, R177): one iteration a step, and how many steps it takes against an absent target whose readings each
show a window gone by. -/

namespace Sys2Proof.Machine

theorem pollIteration_spent {v : Variant} {a : FlashAddr} {m : Byte} {s : State} (spent : s.retries = 0) :
    pollIteration v a m s = .returned 1 s := if_pos spent

/-- Settles O47: the step is the iteration, which looks at the budget first. -/
theorem pollStep : Obligations.PollStep := by
  intro address marker v s busy nothing polling bound l
  refine ⟨_, step_poll nothing busy polling bound, fun left => pollIteration_live address marker l left, fun spent => ?_⟩
  rw [pollIteration_spent spent, Run.finish_returned]

/-- The read of an iteration answered the marker: what is left of it is the window test and the loop test. -/
theorem pollIteration_marker {v : Variant} {a : FlashAddr} {m : Byte} {s t : State} (left : s.retries ≠ 0)
    (read : readFlash v a s = .returned m t) : pollIteration v a m s =
      if (windowTest t).retries = 0 then .returned 1 (windowTest t)
      else .inside { windowTest t with pos := .polling a m } := by
  rw [pollIteration, if_neg left, read, Run.bind_returned, if_neg (not_not.2 rfl)]

theorem Env.reading_of_ticks {e : Env} {x : Tick} {rest : List Tick} (scripted : e.ticks = x :: rest) : e.reading = x := by
  rw [Env.reading, scripted]

theorem Env.afterTick_of_ticks {e : Env} {x : Tick} {rest : List Tick} (scripted : e.ticks = x :: rest) :
    e.afterTick.ticks = rest := by
  rw [Env.afterTick, scripted]

/-- Two scripted readings, the first more than a window after its start: both are used up, the window starts at the second, and
the budget is one less. -/
theorem windowTest_scripted {t : State} {x y : Tick} {rest : List Tick} (scripted : t.env.ticks = x :: y :: rest)
    (gone : params.unitTicks < elapsed x t.winStart) :
    (windowTest t).winStart = y ∧ (windowTest t).env.ticks = rest ∧ (windowTest t).retries = t.retries - 1 := by
  have second : t.afterTick.env.ticks = y :: rest := Env.afterTick_of_ticks scripted
  rw [windowTest_elapsed ((Env.reading_of_ticks scripted).symm ▸ gone)]
  exact ⟨Env.reading_of_ticks second, Env.afterTick_of_ticks second, rfl⟩

/-- The window test changes the window and the budget only. -/
theorem windowTest_settles (t : State) :
    Settles { t with winStart := (windowTest t).winStart, retries := (windowTest t).retries } (windowTest t) := by
  by_cases gone : params.unitTicks < elapsed t.env.reading t.winStart
  · rw [windowTest_elapsed gone]
    exact ((afterTick_settles t).trans (afterTick_settles _)).map
      (fun u => { u with winStart := t.afterTick.env.reading, retries := t.retries - 1 }) fun _ _ _ => rfl
  · rw [windowTest_inside gone]
    exact afterTick_settles t

theorem windowTest_target (t : State) : (windowTest t).env.target = t.env.target := by
  unfold windowTest
  split <;> simp

theorem windowTest_exchanges (t : State) : exchanges (windowTest t).env.trace = exchanges t.env.trace := by
  unfold windowTest
  split <;> simp [exchanges]

/-- A poll for 0xFF through the enabled hardware variant, with no target and the pull-up on; the address is cached. -/
structure PollsAbsent (a : FlashAddr) (s : State) : Prop where
  busy : s.busy = true
  nothing : s.host.request = none
  polling : s.pos = .polling a 0xFF
  bound : s.xport = .hw
  enabled : s.engineEnabled = true
  absent : s.env.target = .absent
  pullup : s.pullupMiso = true
  cached : s.hiaddr = extByte a

/-- The read of such a poll answers the marker, with four exchanges and no reading of the counter. -/
theorem PollsAbsent.read {a : FlashAddr} {s : State} (h : PollsAbsent a s) :
    ∃ t, readFlash .hw a s = .returned 0xFF t ∧ PollsAbsent a t ∧ t.retries = s.retries ∧ t.winStart = s.winStart ∧
      t.env.ticks = s.env.ticks ∧ (exchanges t.env.trace).length = 4 + (exchanges s.env.trace).length := by
  obtain ⟨load, r, t, run, sent⟩ := readFlash_live (v := .hw) a h.enabled
  obtain ⟨absent, ones⟩ := sent.absent h.absent
  refine ⟨t, by rw [run, ones h.pullup], ?_, sent.retries, sent.winStart, (sent.ticks rfl).1, ?_⟩
  · have enabled : t.engineEnabled = true := sent.live.trans h.enabled
    have settles := sent.settles
    have cached : t.hiaddr = extByte a := settles.hiaddr
    exact {
      busy := by rw [settles]; exact h.busy
      nothing := by rw [settles]; exact h.nothing
      polling := by rw [settles]; exact h.polling
      bound := by rw [settles]; exact h.bound
      enabled, absent, cached
      pullup := by rw [settles]; exact h.pullup }
  · rw [sent.did.exchanges, flashEvents_of_cached h.cached.symm, exchanges_commandEvents, List.length_append]
    rfl

/-- The window test leaves such a poll open. -/
theorem PollsAbsent.windowTest {a : FlashAddr} {t : State} (h : PollsAbsent a t) : PollsAbsent a (windowTest t) := by
  have absent := (windowTest_target t).trans h.absent
  have settles := windowTest_settles t
  obtain ⟨busy, nothing, polling, bound, enabled, -, pullup, cached⟩ := h
  rw [settles] at absent ⊢
  exact ⟨busy, nothing, polling, bound, enabled, absent, pullup, cached⟩

/-- One step of such a poll: a window has gone by, and the poll ends with 1 where the budget was 1. -/
theorem PollsAbsent.step {a : FlashAddr} {s : State} {rest : List Tick} (h : PollsAbsent a s) (left : s.retries ≠ 0)
    (scripted : s.env.ticks = (s.winStart + 61) :: s.winStart :: rest) :
    ∃ u, Machine.step s = .next (if s.retries - 1 = 0 then returnedWith 1 u else u) ∧ PollsAbsent a u ∧
      u.winStart = s.winStart ∧ u.env.ticks = rest ∧ u.retries = s.retries - 1 ∧
      (exchanges u.env.trace).length = 4 + (exchanges s.env.trace).length := by
  obtain ⟨t, read, polls, retries, winStart, ticks, counted⟩ := h.read
  have gone : params.unitTicks < elapsed (s.winStart + 61) t.winStart := by
    rw [winStart, elapsed, add_sub_cancel_left]
    decide
  obtain ⟨window, used, budget⟩ := windowTest_scripted (ticks.trans scripted) gone
  rw [retries] at budget
  refine ⟨Machine.windowTest t, ?_, polls.windowTest, window, used, budget, by rw [windowTest_exchanges, counted]⟩
  have bound : xportVariant s.xport = some .hw := by rw [h.bound]; rfl
  rw [step_poll h.nothing h.busy h.polling bound, pollIteration_marker left read, budget, ← polls.windowTest.polling]
  split <;> rfl

/-- Settles O48, by induction on the budget. -/
theorem pollTimesOut : Obligations.PollTimesOut := by
  intro address n s readings busy nothing polling bound enabled absent pullup budget cached scripted
  have polls : PollsAbsent address s := ⟨busy, nothing, polling, bound, enabled, absent, pullup, cached⟩
  clear busy nothing polling bound enabled absent pullup cached
  induction n generalizing s with
  | zero =>
    have one : s.retries = 1 := BitVec.eq_of_toNat_eq budget
    obtain ⟨u, next, -, -, used, left, counted⟩ := polls.step (by rw [one]; decide) scripted
    rw [one] at next left
    exact ⟨returnedWith 1 u, run_succ 0 next, rfl, rfl, left, used, counted⟩
  | succ n ih =>
    have notSpent : s.retries ≠ 0 := by bv_omega
    have notLast : s.retries - 1 ≠ 0 := by bv_omega
    have left : (s.retries - 1).toNat = n + 1 := by bv_omega
    obtain ⟨u, next, goesOn, window, used, less, counted⟩ := polls.step notSpent scripted
    rw [if_neg notLast] at next
    rw [← window] at used
    obtain ⟨t, run, rc, idle, spent, rest, count⟩ := ih u (less ▸ left) used goesOn
    exact ⟨t, (run_succ _ next).trans run, rc, idle, spent, rest, by omega⟩

end Sys2Proof.Machine
end

section
/-! The outcome codes of the host operations (R182, R200, R201): what runs on after an issue by a quiet host, and what a poll
leaves when it ends. -/

namespace Sys2Proof.Machine

/-! ### Runs with a quiet host -/

/-- What every step keeps, a run keeps. -/
theorem run_keeps {P : State → Prop} (keeps : ∀ {s t : State}, P s → step s = .next t → P t) {n : Nat} {s u : State}
    (p : P s) (run : core.run n s = .next u) : P u := by
  induction n generalizing s with
  | zero =>
    cases run
    exact p
  | succ n ih =>
    cases e : step s with
    | next t => exact ih (keeps p e) ((run_succ n e).symm.trans run)
    | fault r => cases r
    | refused r =>
      have refused : core.step s = .refused r := e
      simp [Host.Core.run, refused] at run

/-- An idle block whose host asks for nothing stays as it is (R226). -/
theorem step_idle_quiet {s : State} (idle : s.busy = false) (quiet : s.host = .quiet) : step s = .next s := by
  rw [step_hostMove (by rw [quiet]; rfl) idle, hostMove_nil (by rw [quiet]; rfl)]

theorem run_idle_quiet {s u : State} {n : Nat} (idle : s.busy = false) (quiet : s.host = .quiet)
    (run : core.run n s = .next u) : u = s := by
  cases (run_of_step_self (step_idle_quiet idle quiet) n).symm.trans run
  rfl

theorem run_returnedWith {x : Byte} {s u : State} {n : Nat} (quiet : s.host = .quiet)
    (run : core.run n (returnedWith x s) = .next u) : u = returnedWith x s := run_idle_quiet rfl quiet run

/-- An instruction that transmits and returns in the end was issued at an idle block with a bound variant that completes: it
is refused at any other block, or hangs there (R87, R100, R107). -/
theorem live_of_returns {i : Instr} {s t u : State} {n : Nat} (transmitting : transmits i = true) (quiet : s.host = .quiet)
    (e : exec i s = .next t) (run : core.run n t = .next u) (idle : u.busy = false) :
    s.busy = false ∧ ∃ v, xportVariant s.xport = some v ∧ live v s = true := by
  have issuable : s.busy = false := by
    by_contra busy
    rw [exec_busy i (by simpa using busy)] at e
    cases e
  refine ⟨issuable, ?_⟩
  cases bound : xportVariant s.xport with
  | none =>
    have unbound : s.xport = .none := by cases x : s.xport <;> simp [x, xportVariant] at bound ⊢
    rw [unboundRefused i s transmitting issuable unbound] at e
    cases e
  | some v =>
    refine ⟨v, rfl, ?_⟩
    by_contra off
    obtain ⟨-, hw, off⟩ := not_live bound off
    obtain ⟨t', hung, busy, -, -, -, -, stays⟩ := hangForEver i s transmitting issuable hw off (by rw [quiet]; rfl)
    cases hung.symm.trans e
    cases (stays n).symm.trans run
    rw [busy] at idle
    cases idle

/-! ### The code a poll leaves -/

/-- A poll that has ended left 0 with budget left, or 1 with none (R176, R177). -/
def PollCode (s : State) : Prop := (s.rc = 0 ∧ s.retries ≠ 0) ∨ (s.rc = 1 ∧ s.retries = 0)

/-- A poll is open, or has ended with its code. -/
def PollsOrEnded (s : State) : Prop := s.busy = true ∨ PollCode s

theorem afterFlash_fields (v : Variant) (a : FlashAddr) (w : WireWord) (r : Response) (s : State) :
    (afterFlash v a w r s).host = s.host ∧ (afterFlash v a w r s).busy = s.busy ∧
      (afterFlash v a w r s).retries = s.retries := by
  cases v <;> exact ⟨rfl, rfl, rfl⟩

/-- An iteration with budget left: it ends with 0 and the budget as it was, goes on, or ends with 1 and none left. -/
theorem PollIterated.outcome {v : Variant} {a : FlashAddr} {m : Byte} {s t : State} (h : PollIterated v a m s t)
    (left : s.retries ≠ 0) (busy : s.busy = true) : t.host = s.host ∧ PollsOrEnded t := by
  obtain ⟨load, r, iterated⟩ := h
  obtain ⟨host, stays, retries⟩ := afterFlash_fields v a (readFlashWord a) r s
  rcases iterated with ⟨-, e, -⟩ | ⟨-, x, -, e, -⟩ | ⟨-, x, y, -, -, e, -⟩ | ⟨-, x, y, -, -, e, -⟩
  · rw [e]
    exact ⟨host, .inr (.inl ⟨rfl, fun z => left (retries.symm.trans z)⟩)⟩
  · rw [e]
    exact ⟨host, .inl (stays.trans busy)⟩
  · rw [e]
    exact ⟨host, .inl (stays.trans busy)⟩
  · rw [e]
    exact ⟨host, .inr (.inr ⟨rfl, rfl⟩)⟩

/-- An iteration that hangs in its read stays busy for ever (R107). -/
theorem pollIteration_hung {v : Variant} {s : State} (a : FlashAddr) (m : Byte) (left : s.retries ≠ 0)
    (off : live v s = false) : ∃ d, pollIteration v a m s =
      .inside { s with hiaddr := extByte a, data := d, pos := .hung } := by
  refine ⟨if extByte a = s.hiaddr then wireByte (readFlashWord a) 0 else 0x4D, ?_⟩
  rw [pollIteration, if_neg left, readFlash, flashCommand_hung a _ off, Run.bind_inside, Run.bind_inside]

theorem pollIteration_outcome (v : Variant) (a : FlashAddr) (m : Byte) {s : State} (busy : s.busy = true) :
    (pollIteration v a m s).finish.host = s.host ∧ PollsOrEnded (pollIteration v a m s).finish := by
  by_cases spent : s.retries = 0
  · rw [pollIteration_spent spent, Run.finish_returned]
    exact ⟨rfl, .inr (.inr ⟨rfl, spent⟩)⟩
  · cases l : live v s with
    | true => exact (pollIteration_live a m l spent).outcome spent busy
    | false =>
      obtain ⟨d, hung⟩ := pollIteration_hung a m spent l
      rw [hung, Run.finish_inside]
      exact ⟨rfl, .inl busy⟩

/-- A step of a busy block with nothing presented: an iteration, or the busy-wait that never ends. -/
theorem step_outcome {s t : State} (busy : s.busy = true) (nothing : s.host.request = none) (e : step s = .next t) :
    t.host = s.host ∧ PollsOrEnded t := by
  cases stepTo_of_step e with
  | powerOn presented | host presented | wire presented => simp [nothing] at presented
  | hostMove _ idle => simp [busy] at idle
  | poll => exact pollIteration_outcome _ _ _ busy
  | wait => exact ⟨rfl, .inl busy⟩

/-- With a quiet host a poll, once open, ends in no other way, and then the block idles. -/
theorem run_pollsOrEnded {s u : State} {n : Nat} (quiet : s.host = .quiet) (p : PollsOrEnded s)
    (run : core.run n s = .next u) (idle : u.busy = false) : PollCode u := by
  have kept : u.host = .quiet ∧ PollsOrEnded u := by
    refine run_keeps (P := fun x => x.host = .quiet ∧ PollsOrEnded x) (fun {x y} p e => ?_) ⟨quiet, p⟩ run
    obtain ⟨quiet, p⟩ := p
    cases busy : x.busy with
    | true =>
      obtain ⟨host, q⟩ := step_outcome busy (by rw [quiet]; rfl) e
      exact ⟨host.trans quiet, q⟩
    | false =>
      cases (step_idle_quiet busy quiet).symm.trans e
      exact ⟨quiet, p⟩
  rcases kept.2 with busy | code
  · rw [idle] at busy
    cases busy
  · exact code

/-! ### The operations -/

theorem Settles.host {u t : State} (h : Settles u t) : t.host = u.host := by rw [h]

theorem FlashIssued.host {v : Variant} {a : FlashAddr} {w : WireWord} {load r : Response} {s t : State}
    (h : FlashIssued v a w load r s t) : t.host = s.host := by
  rw [h.settles]
  exact (afterFlash_fields v a w r s).1

/-- What a flash operation does after its command, from `t`: it polls for `m`, or returns 0, at once or after a fixed delay
(R173 to R175, R179). -/
inductive Follows (v : Variant) (a : FlashAddr) (m : Byte) (t : State) (polls : Prop) : Run Byte → Prop where
  | returned {t' : State} (fixed : ¬ polls) (settles : Settles t t') (target : t'.env.target = t.env.target) :
      Follows v a m t polls (.returned 0 t')
  | poll (polled : polls) : Follows v a m t polls (pollFlash v a m t)

theorem afterWrite_follows (a : FlashAddr) (d p : Byte) (v : Variant) (r : Response) (t : State) :
    Follows v a 0x7F t (p ≠ 0 ∧ d ≠ 0x7F) (afterWrite a d p v r t) := by
  by_cases polls : p = 0
  · subst polls
    exact .returned (fun k => k.1 rfl) (Settles.refl t) rfl
  · by_cases fixed : d = 0x7F
    · subst fixed
      rw [afterWrite_fixedDelay v r t polls]
      exact .returned (fun k => k.2 rfl) (wait_settles 15 t) (State.wait_env_target 15 t)
    · rw [afterWrite_polled v r t polls fixed]
      exact .poll ⟨polls, fixed⟩

theorem afterFlush_follows (a : FlashAddr) (p : Byte) (v : Variant) (r : Response) (t : State) :
    Follows v a 0xFF t (p ≠ 0xFF) (afterFlush a p v r t) := by
  by_cases fixed : p = 0xFF
  · subst fixed
    rw [afterFlush_fixedDelay]
    exact .returned (fun k => k rfl) (wait_settles 15 t) (State.wait_env_target 15 t)
  · rw [afterFlush_polled v r t fixed]
    exact .poll fixed

/-- The poll a flash operation opens after its command, once it has ended. -/
theorem FlashIssued.pollCode {v : Variant} {a : FlashAddr} {w : WireWord} {load r : Response} {s t u : State} {m : Byte}
    {n : Nat} (h : FlashIssued v a w load r s t) (quiet : s.host = .quiet)
    (run : core.run n (pollFlash v a m t).finish = .next u) (idle : u.busy = false) : PollCode u := by
  obtain ⟨x, p, settles, -, iterated⟩ := h.polled m
  have budget : p.retries = 30 := by rw [settles]
  have busy : p.busy = true := by rw [settles]
  have kept : p.host = s.host := by
    rw [settles]
    exact (afterFlash_fields v a w r s).1
  obtain ⟨host, ended⟩ := iterated.outcome (by rw [budget]; decide) busy
  exact run_pollsOrEnded (host.trans (kept.trans quiet)) ended run idle

/-- The code of a flash write, once it has returned. -/
theorem FlashIssued.code {v : Variant} {a : FlashAddr} {w : WireWord} {load r : Response} {s t u : State} {m : Byte}
    {polls : Prop} {next : Run Byte} {n : Nat} (h : FlashIssued v a w load r s t) (quiet : s.host = .quiet)
    (follows : Follows v a m t polls next) (run : core.run n next.finish = .next u) (idle : u.busy = false) :
    (¬ polls → u.rc = 0) ∧ (polls → PollCode u) := by
  cases follows with
  | returned fixed settles _ =>
    have host := settles.host.trans (h.host.trans quiet)
    rw [run_returnedWith host run]
    exact ⟨fun _ => rfl, fun polled => absurd polled fixed⟩
  | poll polled => exact ⟨fun fixed => absurd polled fixed, fun _ => h.pollCode quiet run idle⟩

theorem setSetting_host (o : Setting) (s : State) : (setSetting o s).host = s.host := by
  unfold setSetting
  split
  · split <;> rfl
  · rfl

section
variable {s t u : State} {n : Nat} (quiet : s.host = .quiet) (run : core.run n t = .next u)
include quiet run

theorem setSpeed_code {o : Setting} (e : execSetSpeed o s = .next t) : u.rc = 0 := by
  obtain ⟨-, -, rfl⟩ := execSetSpeed_next e
  have host : (setSetting (mapAuto o) { s with busy := true }).host = .quiet := (setSetting_host _ _).trans quiet
  rw [run_returnedWith host run]
  rfl

theorem connect_code (e : execConnect s = .next t) : u.rc = 0 := by
  obtain ⟨-, rfl⟩ := issueLocal_next e
  have host : (connect { s with busy := true }).host = .quiet := by
    rw [connect_settles]
    exact quiet
  rw [run_returnedWith host run]
  rfl

theorem disconnect_code (e : execDisconnect s = .next t) : u.rc = 0 := by
  obtain ⟨-, rfl⟩ := issueLocal_next e
  have host : (disconnect { s with busy := true }).host = .quiet := by
    rw [disconnect_settles]
    exact quiet
  rw [run_returnedWith host run]
  rfl

theorem enterProg_code (e : exec .enterProg s = .next t) :
    (u.rc = 0 ∧ u.hsState = .success) ∨ (u.rc = 1 ∧ u.hsState = .fail ∧ u.speed = 0) := by
  obtain ⟨idle, k, -⟩ := execEnterProg_next e
  obtain ⟨rs, t', e', frame, returned, -, -, outcome, -⟩ := enterProgOutcome s idle k
  cases e'.symm.trans e
  rw [run_idle_quiet returned (frame.host.trans quiet) run]
  rcases outcome with ⟨ok, success, -⟩ | ⟨failed, fail, speed, -⟩
  · exact .inl ⟨ok, success⟩
  · exact .inr ⟨failed, fail, speed⟩

variable (idle : u.busy = false)
include idle

theorem writeEeprom_code {a : EeAddr} {d : Byte} (e : exec (.writeEeprom a d) s = .next t) : u.rc = 0 := by
  obtain ⟨issuable, v, bound, l⟩ := live_of_returns rfl quiet e run idle
  obtain ⟨r, t', e', settles, -⟩ := writeEepromResult a d v s issuable bound l
  cases e'.symm.trans e
  have host : t.host = .quiet := by
    rw [settles]
    cases v <;> exact quiet
  rw [run_idle_quiet (by rw [settles]; rfl) host run, settles]
  rfl

theorem writeFlash_code {a : FlashAddr} {d p : Byte} (e : exec (.writeFlash a d p) s = .next t) :
    if p = 0 ∨ d = 0x7F then u.rc = 0 else PollCode u := by
  obtain ⟨issuable, v, bound, l⟩ := live_of_returns rfl quiet e run idle
  obtain ⟨load, r, t', next, issued⟩ := flashOperation_issued a (writeFlashWord a d) (afterWrite a d p) issuable bound l
  rw [exec_writeFlash, next, Host.Outcome.next.injEq] at e
  subst e
  obtain ⟨fixed, polled⟩ := issued.code quiet (afterWrite_follows a d p v r t') run idle
  split
  case isTrue h => exact fixed fun k => h.elim k.1 k.2
  case isFalse h => exact polled (not_or.1 h)

theorem flushPage_code {a : FlashAddr} {p : Byte} (e : exec (.flushPage a p) s = .next t) :
    if p = 0xFF then u.rc = 0 else PollCode u := by
  obtain ⟨issuable, v, bound, l⟩ := live_of_returns rfl quiet e run idle
  obtain ⟨load, r, t', next, issued⟩ := flashOperation_issued a (writePageWord a) (afterFlush a p) issuable bound l
  rw [exec_flushPage, next, Host.Outcome.next.injEq] at e
  subst e
  obtain ⟨fixed, polled⟩ := issued.code quiet (afterFlush_follows a p v r t') run idle
  split
  case isTrue h => exact fixed fun k => k h
  case isFalse h => exact polled h

end

/-- Settles O57: by the operation, and by the step that ends a poll. -/
theorem outcomeCodes : Obligations.OutcomeCodes := by
  refine ⟨fun i n s t u format quiet e run idle => ?_, fun address marker s t busy nothing polling e idle => ?_⟩
  · cases i with
    | readFlash | readEeprom => trivial
    | setSpeed => exact setSpeed_code quiet run e
    | connect => exact connect_code quiet run e
    | disconnect => exact disconnect_code quiet run e
    | enterProg => exact enterProg_code quiet run e
    | writeEeprom => exact writeEeprom_code quiet run idle e
    | writeFlash => exact writeFlash_code quiet run idle e
    | flushPage => exact flushPage_code quiet run idle e
    | progEnable | loadExtAddr | readFlashLo | readFlashHi | writeFlashLo | writeFlashHi | writeFlashPage | wireReadEeprom
    | wireWriteEeprom => cases format
  · obtain ⟨-, busy' | code⟩ := step_outcome busy nothing e
    · rw [idle] at busy'
      cases busy'
    · exact code

end Sys2Proof.Machine
end

section
/-! The memory operations in a session with the cooperative target (R56, R170 to R181; log entry 12): what each finds once its
command is done, and the EEPROM. -/

namespace Sys2Proof.Machine

/-- A session does not depend on the waits. -/
theorem session_settles {v : Variant} {c : Coop} {s t : State} (h : InSession v c s) (settles : Settles s t)
    (target : t.env.target = s.env.target) : InSession v c t := by
  refine h.keeps ?_ target
  rw [settles]
  rfl

/-- A session does not depend on the window of a poll. -/
theorem session_windowTest {v : Variant} {c : Coop} {s : State} (h : InSession v c s) : InSession v c (windowTest s) := by
  refine h.keeps ?_ (windowTest_target s)
  have settles := windowTest_settles s
  generalize windowTest s = t at settles ⊢
  rw [settles]
  rfl

/-- A flash operation finds its command done, through the Address Tracker, and goes on in the session (R160, R164). -/
theorem flashOperation_session {v : Variant} {c : Coop} {s : State} (a : FlashAddr) (w : WireWord)
    (f : Variant → Response → State → Run Byte) (session : InSession v c s) (idle : s.busy = false) :
    ∃ r t, issueTransmitting (fun v t => (flashCommand v a w t).bind (f v)) s = .next (f v r t).finish ∧
      InSession v ((tracked c a s.hiaddr).command w) t ∧ r.r4 = (tracked c a s.hiaddr).data w ∧ t.hiaddr = extByte a ∧
      t.host = s.host ∧ t.busy = true := by
  obtain ⟨r, t, run, goesOn, data, cached, host, busy, -⟩ := flashCommand_session a w (session_busy session)
  exact ⟨r, t, by rw [issueTransmitting_bound _ idle session.bound, run, Run.bind_returned], goesOn, data, cached, host, busy⟩

/-- An EEPROM operation finds its command done and goes on in the session. -/
theorem commandThen_session {v : Variant} {c : Coop} {s : State} (w : WireWord) (x : Response → Byte) (f : State → State)
    (session : InSession v c s) (idle : s.busy = false) :
    ∃ r t, issueTransmitting (commandThen w x f) s = .next (returnedWith (x r) (f t)) ∧ InSession v (c.command w) t ∧
      r.r4 = c.data w := by
  obtain ⟨r, t, run, -, goesOn, -, -, data⟩ := exchange_session w (session_busy session)
  refine ⟨r, t, ?_, goesOn, data⟩
  rw [issueTransmitting_bound _ idle session.bound, commandThen, run, Run.bind_returned, Run.finish_returned]

/-- Settles O59: the two commands, and what the target does at each. -/
theorem sessionEeprom : Obligations.SessionEeprom := by
  intro v c address s session idle wf
  refine ⟨?_, fun data => ?_⟩
  · obtain ⟨r, t, next, goesOn, answer⟩ := commandThen_session (readEepromWord address) Response.r4 id session idle
    obtain ⟨data, command⟩ := command_readEeprom c address
    refine ⟨returnedWith r.r4 t, _, next, answer.trans data, session_ret r.r4 goesOn, ?_⟩
    rw [command]
    exact ⟨rfl, rfl⟩
  · obtain ⟨r, t, next, goesOn, -⟩ := commandThen_session (writeEepromWord address data) (fun _ => 0)
      (State.wait params.eepromDelayUnits) session idle
    refine ⟨_, _, next, rfl, session_ret 0 (session_wait _ goesOn), ?_⟩
    rw [command_writeEeprom]
    exact ⟨Memory.read_write_same _ _ _ wf, rfl, fun a other => Memory.read_write_other _ _ _ _ other⟩

/-- The byte that `readFlash` returns: the data of its command, after the Address Tracker (R170). -/
theorem readFlash_session {v : Variant} {c : Coop} {s : State} (a : FlashAddr) (session : InSession v c s)
    (idle : s.busy = false) : ∃ x, exec (.readFlash a) s = .next x ∧
      x.rc = ((tracked c a s.hiaddr).readFlash ((tracked c a s.hiaddr).cell a)).1 := by
  obtain ⟨r, t, next, -, answer, -⟩ := flashOperation_session a (readFlashWord a) (fun _ r t => .returned r.r4 t) session idle
  exact ⟨returnedWith r.r4 t, next, answer.trans (command_readFlash _ a).1⟩

end Sys2Proof.Machine
end

section
/-! Flash reads of the cooperative target while a write is in progress (R54, R184), and a poll in a session (R176). -/

namespace Sys2Proof.Machine

/-! ### Reads -/

/-- No write in progress hides the byte at the address. -/
def Coop.Shows (c : Coop) (addr : Nat) : Prop := ∀ p, c.inProgress = some p → p.covers addr = false

theorem Coop.readFlash_of_shows {c : Coop} {addr : Nat} (shown : c.Shows addr) :
    c.readFlash addr = (c.flash.read addr, c) := by
  unfold Coop.readFlash
  split
  case h_1 p inProgress => rw [shown p inProgress]; rfl
  case h_2 => rfl

theorem Coop.readFlash_of_covers {c : Coop} {addr : Nat} {p : WriteInProgress} (inProgress : c.inProgress = some p)
    (covers : p.covers addr = true) :
    c.readFlash addr = (p.marker, { c with inProgress := some { p with readsLeft := p.readsLeft - 1 } }) := by
  rw [Coop.readFlash, inProgress]
  exact if_pos covers

/-- The target `d` is `c` after reads of flash: its arrays and its extended byte are the same, and a write in progress can only
be nearer to its end. -/
structure Coop.ReadOf (c d : Coop) : Prop where
  flash : d.flash = c.flash
  eeprom : d.eeprom = c.eeprom
  extended : d.extended = c.extended
  inProgress : ∀ q, d.inProgress = some q → ∃ p, c.inProgress = some p ∧ q.address = p.address ∧ q.marker = p.marker ∧
    q.readsLeft ≤ p.readsLeft

theorem Coop.ReadOf.refl (c : Coop) : c.ReadOf c := ⟨rfl, rfl, rfl, fun q h => ⟨q, h, rfl, rfl, Nat.le_refl _⟩⟩

theorem Coop.ReadOf.trans {c d e : Coop} (h : c.ReadOf d) (k : d.ReadOf e) : c.ReadOf e := by
  refine ⟨k.flash.trans h.flash, k.eeprom.trans h.eeprom, k.extended.trans h.extended, fun q hq => ?_⟩
  obtain ⟨p, hp, address, marker, left⟩ := k.inProgress q hq
  obtain ⟨o, ho, address', marker', left'⟩ := h.inProgress p hp
  exact ⟨o, ho, address.trans address', marker.trans marker', left.trans left'⟩

theorem Coop.cell_eq_of_extended {c d : Coop} (same : d.extended = c.extended) (a : FlashAddr) : d.cell a = c.cell a := by
  unfold Coop.cell Coop.flashAddress
  rw [same]

theorem Coop.ReadOf.cell {c d : Coop} (h : c.ReadOf d) (a : FlashAddr) : d.cell a = c.cell a :=
  Coop.cell_eq_of_extended h.extended a

/-- A read of flash: the byte of the array from a target that shows it, or the marker of the write that hides it. -/
theorem Coop.readFlash_cases (c : Coop) (addr : Nat) :
    (c.Shows addr ∧ c.readFlash addr = (c.flash.read addr, c)) ∨
      ∃ p, c.inProgress = some p ∧ (c.readFlash addr).1 = p.marker ∧ c.ReadOf (c.readFlash addr).2 := by
  by_cases shown : c.Shows addr
  · exact .inl ⟨shown, c.readFlash_of_shows shown⟩
  · simp only [Coop.Shows, not_forall, Bool.not_eq_false] at shown
    obtain ⟨p, inProgress, covers⟩ := shown
    rw [c.readFlash_of_covers inProgress covers]
    refine .inr ⟨p, inProgress, rfl, rfl, rfl, rfl, fun q hq => ?_⟩
    cases hq
    exact ⟨p, inProgress, rfl, rfl, Nat.sub_le _ _⟩

/-- A read command leaves the target as its read does. -/
theorem Coop.readOf_command (c : Coop) (a : FlashAddr) : c.ReadOf (c.command (readFlashWord a)) := by
  have read : c.ReadOf (c.readFlash (c.cell a)).2 := by
    rcases c.readFlash_cases (c.cell a) with ⟨-, e⟩ | ⟨p, -, -, read⟩
    · rw [e]
      exact .refl c
    · exact read
  rw [(command_readFlash c a).2]
  exact ⟨read.flash, read.eeprom, read.extended, read.inProgress⟩

/-- Where every write in progress shows the marker `m`, a read that answers anything else leaves a target that shows the
byte. -/
theorem Coop.shows_of_data_ne {c : Coop} {a : FlashAddr} {m : Byte} (marks : ∀ p, c.inProgress = some p → p.marker = m)
    (ne : c.data (readFlashWord a) ≠ m) : (c.command (readFlashWord a)).Shows (c.cell a) := by
  obtain ⟨data, command⟩ := command_readFlash c a
  rcases c.readFlash_cases (c.cell a) with ⟨shown, e⟩ | ⟨p, inProgress, marker, -⟩
  · rw [command, e]
    exact shown
  · exact absurd (data.trans (marker.trans (marks p inProgress))) ne

/-! ### The poll -/

/-- A poll for `m` of a session whose target was `c` before its reads and is `d` now: it is open, or it has ended, and where it
ended with 0 the target shows the byte. `polls` is false of an operation that has returned without a poll. -/
structure SessionPoll (v : Variant) (a : FlashAddr) (m : Byte) (polls : Prop) (c d : Coop) (s : State) : Prop where
  session : InSession v d s
  readOf : c.ReadOf d
  cached : s.hiaddr = extByte a
  quiet : s.host = .quiet
  position : (s.busy = true ∧ s.pos = .polling a m) ∨ (s.busy = false ∧ (polls → s.rc = 0 → d.Shows (d.cell a)))

theorem tracked_cached {c : Coop} {a : FlashAddr} {hi : Byte} (cached : hi = extByte a) : tracked c a hi = c :=
  if_pos cached.symm

theorem returnedWith_one_rc (s : State) : (returnedWith 1 s).rc ≠ 0 := show (1 : Byte) ≠ 0 by decide

section
variable {v : Variant} {a : FlashAddr} {m : Byte} {polls : Prop} {c d : Coop} {s : State}

/-- One iteration of a poll in a session (R176). -/
theorem SessionPoll.iteration (marks : ∀ p, c.inProgress = some p → p.marker = m) (session : InSession v d s)
    (readOf : c.ReadOf d) (cached : s.hiaddr = extByte a) (quiet : s.host = .quiet) (busy : s.busy = true) :
    ∃ e, SessionPoll v a m polls c e (pollIteration v a m s).finish := by
  by_cases spent : s.retries = 0
  · rw [pollIteration_spent spent, Run.finish_returned]
    exact ⟨d, session_ret 1 session, readOf, cached, quiet, .inr ⟨rfl, fun _ rc => absurd rc (returnedWith_one_rc _)⟩⟩
  obtain ⟨r, t, run, goesOn, data, cached', host, busy', -⟩ := flashCommand_session a (readFlashWord a) session
  rw [tracked_cached cached] at goesOn data
  have read : readFlash v a s = .returned r.r4 t := by rw [readFlash, run, Run.bind_returned]
  have readOf' := readOf.trans (d.readOf_command a)
  refine ⟨d.command (readFlashWord a), ?_⟩
  by_cases marker : r.r4 = m
  · rw [marker] at read
    have settles := windowTest_settles t
    have window := session_windowTest goesOn
    have hiaddr : (windowTest t).hiaddr = extByte a := settles.hiaddr.trans cached'
    have host' : (windowTest t).host = .quiet := settles.host.trans (host.trans quiet)
    have stillOpen : (windowTest t).busy = true := by
      rw [settles]
      exact busy'.trans busy
    rw [pollIteration_marker spent read]
    split
    · exact ⟨session_ret 1 window, readOf', hiaddr, host', .inr ⟨rfl, fun _ rc => absurd rc (returnedWith_one_rc _)⟩⟩
    · exact ⟨window.keeps rfl rfl, readOf', hiaddr, host', .inl ⟨stillOpen, rfl⟩⟩
  · have ended : pollIteration v a m s = .returned 0 t := by
      rw [pollIteration, if_neg spent, read, Run.bind_returned, if_pos marker]
    have shown : (d.command (readFlashWord a)).Shows ((d.command (readFlashWord a)).cell a) := by
      rw [(d.readOf_command a).cell a]
      refine d.shows_of_data_ne (m := m) (fun q hq => ?_) (data ▸ marker)
      obtain ⟨p, hp, -, same, -⟩ := readOf.inProgress q hq
      exact same.trans (marks p hp)
    rw [ended, Run.finish_returned]
    exact ⟨session_ret 0 goesOn, readOf', cached', host.trans quiet, .inr ⟨rfl, fun _ _ => shown⟩⟩

/-- What an operation does after its command is such a poll, or no poll. -/
theorem Follows.sessionPoll {next : Run Byte} (follows : Follows v a m s polls next)
    (marks : ∀ p, c.inProgress = some p → p.marker = m) (session : InSession v c s) (cached : s.hiaddr = extByte a)
    (quiet : s.host = .quiet) (busy : s.busy = true) : ∃ e, SessionPoll v a m polls c e next.finish := by
  cases follows with
  | returned fixed settles target =>
    exact ⟨c, session_ret 0 (session_settles session settles target), .refl c, settles.hiaddr.trans cached,
      settles.host.trans quiet, .inr ⟨rfl, fun polled => absurd polled fixed⟩⟩
  | poll _ =>
    exact SessionPoll.iteration marks
      (session.keeps (t := { s.afterTick with retries := params.pollBudget, winStart := s.env.reading }) rfl
        (State.afterTick_env_target s)) (.refl c) cached quiet busy

/-- Every step with the poll open is one more iteration; after it the block idles. -/
theorem SessionPoll.step (marks : ∀ p, c.inProgress = some p → p.marker = m) (h : SessionPoll v a m polls c d s) {t : State}
    (e : Machine.step s = .next t) : ∃ f, SessionPoll v a m polls c f t := by
  obtain ⟨session, readOf, cached, quiet, ⟨busy, polling⟩ | ⟨idle, shown⟩⟩ := h
  · have nothing : s.host.request = none := by
      rw [quiet]
      rfl
    cases (step_poll nothing busy polling session.bound).symm.trans e
    exact SessionPoll.iteration marks session readOf cached quiet busy
  · cases (step_idle_quiet idle quiet).symm.trans e
    exact ⟨d, session, readOf, cached, quiet, .inr ⟨idle, shown⟩⟩

end

/-- A flash operation of a session, once it has returned: its command was done, then only reads; and where it polled and
returned 0 the byte at its address is no longer hidden. -/
theorem flashOperation_ended {v : Variant} {a : FlashAddr} {w : WireWord} {m : Byte} {polls : Prop} {c : Coop}
    {f : Variant → Response → State → Run Byte} {n : Nat} {s t u : State} (session : InSession v c s) (idle : s.busy = false)
    (quiet : s.host = .quiet) (follows : ∀ r t, Follows v a m t polls (f v r t))
    (marks : ∀ p, ((tracked c a s.hiaddr).command w).inProgress = some p → p.marker = m)
    (e : issueTransmitting (fun v t => (flashCommand v a w t).bind (f v)) s = .next t) (run : core.run n t = .next u)
    (ended : u.busy = false) :
    ∃ d, InSession v d u ∧ ((tracked c a s.hiaddr).command w).ReadOf d ∧ u.hiaddr = extByte a ∧
      (polls → u.rc = 0 → d.Shows (d.cell a)) := by
  obtain ⟨r, t', next, goesOn, -, cached, host, busy⟩ := flashOperation_session a w f session idle
  cases next.symm.trans e
  obtain ⟨d, poll⟩ := run_keeps (P := fun x => ∃ d, SessionPoll v a m polls ((tracked c a s.hiaddr).command w) d x)
    (fun ⟨_, p⟩ e => p.step marks e) ((follows r t').sessionPoll marks goesOn cached (host.trans quiet) busy) run
  obtain ⟨session', readOf, cached', -, ⟨busy', -⟩ | ⟨-, shown⟩⟩ := poll
  · rw [ended] at busy'
    cases busy'
  · exact ⟨d, session', readOf, cached', shown⟩

end Sys2Proof.Machine
end

section
/-! Flash written and read back in a session with the cooperative target (R170, R172, R178, R184; log entries 7 and 12): by bytes
where the target has no pages, else by pages. -/

namespace Sys2Proof.Machine

/-! ### A write in progress that hides nothing any more -/

theorem WriteInProgress.covers_of_spent {p : WriteInProgress} (spent : p.readsLeft = 0) (addr : Nat) :
    p.covers addr = false := by
  simp [WriteInProgress.covers, spent]

theorem WriteInProgress.spent_of_page {p : WriteInProgress} {addr : Nat} (page : p.address = none)
    (shown : p.covers addr = false) : p.readsLeft = 0 := by
  simpa [WriteInProgress.covers, page] using shown

/-- A write that takes no time hides no byte. -/
theorem Coop.ReadOf.shows_of_spent {c d : Coop} {p : WriteInProgress} (readOf : c.ReadOf d) (started : c.inProgress = some p)
    (spent : p.readsLeft = 0) (addr : Nat) : d.Shows addr := by
  intro q hq
  obtain ⟨p', hp, -, -, left⟩ := readOf.inProgress q hq
  cases hp.symm.trans started
  exact q.covers_of_spent (by omega) addr

/-- A page write hides every byte or none. -/
theorem Coop.ReadOf.shows_of_page {c d : Coop} {p : WriteInProgress} {addr : Nat} (readOf : c.ReadOf d)
    (started : c.inProgress = some p) (page : p.address = none) (shown : d.Shows addr) (other : Nat) : d.Shows other := by
  intro q hq
  obtain ⟨p', hp, address, -⟩ := readOf.inProgress q hq
  cases hp.symm.trans started
  exact q.covers_of_spent (q.spent_of_page (address.trans page) (shown q hq)) other

/-! ### A target without pages -/

theorem Coop.command_writeFlash_unpaged {c : Coop} (a : FlashAddr) (d : Byte) (unpaged : c.pageSize = 0) :
    c.command (writeFlashWord a d) = { c with
      flash := c.flash.write (c.cell a) d
      inProgress := some { address := some (c.cell a), marker := 0x7F, readsLeft := c.latency }
      received := [], answer := none, firstCommand := false } := by
  rw [command_writeFlash, Coop.writeFlash, if_neg (not_not.2 unpaged)]

/-- The first clause of O60: a byte written and read back. -/
theorem writeFlash_roundTrip {v : Variant} {c : Coop} {a : FlashAddr} {d p : Byte} {n : Nat} {s t u : State}
    (session : InSession v c s) (idle : s.busy = false) (quiet : s.host = .quiet) (wf : c.flash.wf = true)
    (unpaged : c.pageSize = 0) (e : exec (.writeFlash a d p) s = .next t) (run : core.run n t = .next u)
    (ended : u.busy = false) :
    (∃ g, InSession v g u ∧ g.eeprom = c.eeprom ∧ (CacheAgrees c a s → ∀ x, g.flash.read x =
      if x = flashOffset a then d else c.flash.read x)) ∧
    (u.rc = 0 → (p ≠ 0 ∧ d ≠ 0x7F) ∨ c.latency = 0 → ∃ x, exec (.readFlash a) u = .next x ∧ x.rc = d) := by
  obtain ⟨flash, eeprom, -, pageSize, latency, -, agrees⟩ := tracked_fields c a s.hiaddr
  have command := (tracked c a s.hiaddr).command_writeFlash_unpaged a d (pageSize.trans unpaged)
  obtain ⟨g, goesOn, readOf, cached, shown⟩ := flashOperation_ended session idle quiet (afterWrite_follows a d p v)
    (fun q hq => by rw [command] at hq; cases hq; rfl) e run ended
  rw [command] at readOf
  refine ⟨⟨g, goesOn, readOf.eeprom.trans eeprom, fun agree x => ?_⟩, fun rc polled => ?_⟩
  · rw [readOf.flash, ← Coop.cell_offset (agrees agree)]
    by_cases same : x = (tracked c a s.hiaddr).cell a
    · rw [if_pos same, same]
      exact Memory.read_write_same _ _ _ (flash ▸ wf)
    · rw [if_neg same, ← flash]
      exact Memory.read_write_other _ _ _ _ same
  · have visible : g.Shows (g.cell a) := polled.elim (fun polls => shown polls rc) fun none =>
      readOf.shows_of_spent rfl (latency.trans none) _
    obtain ⟨x, next, data⟩ := readFlash_session a goesOn ended
    refine ⟨x, next, ?_⟩
    rw [data, tracked_cached cached, Coop.readFlash_of_shows visible, readOf.cell, readOf.flash]
    exact Memory.read_write_same _ _ _ (flash ▸ wf)

/-! ### A target with pages -/

/-- The byte offset a page command names: that of its address, bit 0 left out (R78). -/
def Coop.pageCell (c : Coop) (a : FlashAddr) : Nat := c.flashAddress (flashHigh a) (flashLow a) false

theorem Coop.pageCell_eq (c : Coop) (a : FlashAddr) : c.pageCell a = c.cell a / 2 * 2 := by
  unfold Coop.pageCell Coop.cell Coop.flashAddress
  cases a.getLsbD 0 <;> simp only [if_true, Bool.false_eq_true, if_false] <;> omega

/-- Pages of an even size begin at an even offset, so the page command names the page of its address. -/
theorem Coop.pageCell_div {c : Coop} (a : FlashAddr) {size : Nat} (even : size % 2 = 0) :
    c.pageCell a / size = c.cell a / size := by
  obtain ⟨half, rfl⟩ := Nat.dvd_of_mod_eq_zero even
  rw [c.pageCell_eq, ← Nat.div_div_eq_div_mul, ← Nat.div_div_eq_div_mul, Nat.mul_div_cancel _ (by decide)]

theorem Coop.command_writeFlash_paged {c : Coop} (a : FlashAddr) (d : Byte) (paged : c.pageSize ≠ 0) :
    c.command (writeFlashWord a d) = { c with
      pageBuffer := c.pageBuffer.write (c.cell a % c.pageSize) d
      received := [], answer := none, firstCommand := false } := by
  rw [command_writeFlash, Coop.writeFlash, if_pos paged]

theorem Coop.command_writePage_eq (c : Coop) (a : FlashAddr) : c.command (writePageWord a) = { c with
      flash := Memory.writePage (c.pageCell a - c.pageCell a % c.pageSize) c.pageBuffer c.pageSize c.flash
      pageBuffer := []
      inProgress := some { address := none, marker := 0xFF, readsLeft := c.latency }
      received := [], answer := none, firstCommand := false } := command_writePage c a

/-- After a page write the page that holds `addr` reads as the buffer, and every other byte as before. -/
theorem Memory.read_writePage_div {m : Memory} (buffer : Memory) {size : Nat} (addr x : Nat) (wf : m.wf = true)
    (paged : size ≠ 0) : (Memory.writePage (addr - addr % size) buffer size m).read x =
      if x / size = addr / size then buffer.read (x % size) else m.read x := by
  have base : addr - addr % size = size * (addr / size) := by
    have parts := Nat.div_add_mod addr size
    omega
  have page : x / size = addr / size ↔ size * (addr / size) ≤ x ∧ x < size * (addr / size) + size := by
    rw [Nat.div_eq_iff (Nat.pos_of_ne_zero paged), Nat.mul_comm]
    omega
  rw [Memory.read_writePage _ _ _ _ wf, base]
  by_cases inside : x / size = addr / size
  · rw [if_pos inside, if_pos (page.1 inside), ← inside, Nat.mod_eq_sub_mul_div]
  · rw [if_neg inside, if_neg fun h => inside (page.2 h)]

/-- Two bytes of one page are the same exactly when they are the same in the page. -/
theorem eq_of_page {x y size : Nat} (page : x / size = y / size) (inPage : x % size = y % size) : x = y := by
  rw [← Nat.div_add_mod x size, page, inPage, Nat.div_add_mod]

/-- The flash of a target with pages, after a byte was loaded into the buffer and its page was written: the page is the buffer
with that byte in it. -/
theorem Memory.read_loadedPage {m buffer : Memory} {size addr off : Nat} (d : Byte) (wf : m.wf = true)
    (bufferWf : buffer.wf = true) (paged : size ≠ 0) (page : off / size = addr / size) (x : Nat) :
    (Memory.writePage (addr - addr % size) (buffer.write (off % size) d) size m).read x =
      if x / size = off / size then (if x = off then d else buffer.read (x % size)) else m.read x := by
  rw [Memory.read_writePage_div _ _ _ wf paged, page]
  split
  case isFalse => rfl
  case isTrue inside =>
    split
    case isTrue same => rw [same, Memory.read_write_same _ _ _ bufferWf]
    case isFalse other =>
      exact Memory.read_write_other _ _ _ _ fun inPage => other (eq_of_page (inside.trans page.symm) inPage)

/-- An unpolled `writeFlash` to a target with pages, in a session whose cached byte is the target's: it loads the byte into the
page buffer, at its place in its page, and the target's extended byte is the address's own. -/
theorem writeFlash_loads {v : Variant} {c : Coop} {a : FlashAddr} {d : Byte} {s t : State} (session : InSession v c s)
    (idle : s.busy = false) (paged : c.pageSize ≠ 0) (agree : CacheAgrees c a s)
    (e : exec (.writeFlash a d 0) s = .next t) :
    ∃ g, InSession v g t ∧ t.rc = 0 ∧ t.busy = false ∧ t.host = s.host ∧ t.hiaddr = extByte a ∧ g.extended = extByte a ∧
      g.flash = c.flash ∧ g.eeprom = c.eeprom ∧ g.pageSize = c.pageSize ∧ g.latency = c.latency ∧
      g.pageBuffer = c.pageBuffer.write (flashOffset a % c.pageSize) d := by
  obtain ⟨r, t', next, goesOn, -, cached, host, -⟩ := flashOperation_session a (writeFlashWord a d) (afterWrite a d 0)
    session idle
  cases next.symm.trans e
  obtain ⟨flash, eeprom, pageBuffer, pageSize, latency, -, agrees⟩ := tracked_fields c a s.hiaddr
  have extended := agrees agree
  rw [Coop.command_writeFlash_paged a d (pageSize.symm ▸ paged), Coop.cell_offset extended, pageBuffer, pageSize] at goesOn
  exact ⟨_, session_ret 0 goesOn, rfl, rfl, host, cached, extended, flash, eeprom, rfl, latency, rfl⟩

/-- The second clause of O60: a byte loaded, its page written, and the byte read back. -/
theorem flushPage_roundTrip {v : Variant} {c : Coop} {a b : FlashAddr} {d p : Byte} {n : Nat} {s t u w : State}
    (session : InSession v c s) (idle : s.busy = false) (quiet : s.host = .quiet) (wf : c.flash.wf = true)
    (bufferWf : c.pageBuffer.wf = true) (paged : c.pageSize ≠ 0) (even : c.pageSize % 2 = 0) (agree : CacheAgrees c a s)
    (page : flashOffset a / c.pageSize = flashOffset b / c.pageSize) (writes : exec (.writeFlash a d 0) s = .next t)
    (flushes : exec (.flushPage b p) t = .next u) (run : core.run n u = .next w) (ended : w.busy = false) :
    t.rc = 0 ∧
    (∃ h, InSession v h w ∧ h.eeprom = c.eeprom ∧ ∀ x, h.flash.read x =
      if x / c.pageSize = flashOffset a / c.pageSize then
        (if x = flashOffset a then d else c.pageBuffer.read (x % c.pageSize))
      else c.flash.read x) ∧
    (w.rc = 0 → p ≠ 0xFF ∨ c.latency = 0 → ∃ x, exec (.readFlash a) w = .next x ∧ x.rc = d) := by
  obtain ⟨g, loaded, rc, idle', host, cached, extended, flash, eeprom, pageSize, latency, pageBuffer⟩ :=
    writeFlash_loads session idle paged agree writes
  obtain ⟨flash', eeprom', pageBuffer', pageSize', latency', -, agrees⟩ := tracked_fields g b t.hiaddr
  have extended' := agrees (.inr (extended.trans cached.symm))
  have command := (tracked g b t.hiaddr).command_writePage_eq b
  obtain ⟨h, goesOn, readOf, cached', shown⟩ := flashOperation_ended loaded idle' (host.trans quiet)
    (afterFlush_follows b p v) (fun q hq => by rw [command] at hq; cases hq; rfl) flushes run ended
  rw [command] at readOf
  have inPage : flashOffset a / c.pageSize = (tracked g b t.hiaddr).pageCell b / c.pageSize := by
    rw [Coop.pageCell_div b even, Coop.cell_offset extended', page]
  have array : ∀ x, h.flash.read x = if x / c.pageSize = flashOffset a / c.pageSize then
      (if x = flashOffset a then d else c.pageBuffer.read (x % c.pageSize)) else c.flash.read x := fun x => by
    rw [readOf.flash, ← Memory.read_loadedPage d wf bufferWf paged inPage x, ← pageBuffer, ← pageSize, ← flash, ← flash',
      ← pageBuffer', ← pageSize']
  refine ⟨rc, ⟨h, goesOn, readOf.eeprom.trans (eeprom'.trans eeprom), array⟩, fun ok polled => ?_⟩
  have visible : ∀ addr, h.Shows addr := polled.elim (fun polls => readOf.shows_of_page rfl rfl (shown polls ok))
    fun none => readOf.shows_of_spent rfl (latency'.trans (latency.trans none))
  obtain ⟨x, next, data⟩ := readFlash_session a goesOn ended
  refine ⟨x, next, ?_⟩
  obtain ⟨flash'', -, -, -, -, inProgress, agrees'⟩ := tracked_fields h a w.hiaddr
  have own := agrees' (.inr (readOf.extended.trans (extended'.trans cached'.symm)))
  have visible' : (tracked h a w.hiaddr).Shows (flashOffset a) := fun q hq => visible _ q (inProgress ▸ hq)
  rw [data, Coop.cell_offset own, Coop.readFlash_of_shows visible', flash'', array, if_pos rfl, if_pos rfl]

/-- Settles O60: a target without pages, and one with pages. -/
theorem writeReadRoundTrip : Obligations.WriteReadRoundTrip :=
  ⟨fun _ _ _ _ _ _ _ _ _ => writeFlash_roundTrip, fun _ _ _ _ _ _ _ _ _ _ _ => flushPage_roundTrip⟩

end Sys2Proof.Machine
end

section
/-! Elapsed time modulo the width of the counter (R212, decision D12). -/

namespace Sys2Proof.Machine

/-- A subtraction that wraps once at most, as a number (R212). -/
theorem elapsed_toNat (now start : Tick) : (elapsed now start).toNat = (now.toNat + 256 - start.toNat) % 256 := by
  rw [elapsed, BitVec.toNat_sub]
  congr 1
  have := start.isLt
  omega

/-- The start drops out: what is left of a true count is its residue. -/
theorem elapsed_toNat_of_count (start : Tick) (n : Nat) : (elapsed (start + BitVec.ofNat 8 n) start).toNat = n % 256 := by
  rw [elapsed, add_sub_cancel_left, BitVec.toNat_ofNat]

/-- Settles O11: the count is its own residue exactly below 256, and R212's example is closed. -/
theorem elapsedModulo : Obligations.ElapsedModulo := by
  refine ⟨elapsed_toNat, fun start n => ?_, by decide, by decide⟩
  rw [elapsed_toNat_of_count]
  exact Nat.mod_eq_iff_lt (by decide)

end Sys2Proof.Machine
end

section
/-! SetSpeed leaves SCK and RST alone (R41, R90, R244): the latch and the engine both rest SCK at 0, so a change of owner is no
edge. -/

namespace Sys2Proof.Machine

/-- With both of its owners at 0, SCK is at 0 or released, whoever owns it (R41). -/
theorem State.wire_sck_of_rest {s : State} (outSck : s.outSck = false) (engSck : s.engSck = false) :
    s.wire.sck = if s.dirSck then some false else none := by
  simp [State.wire, outSck, engSck]

/-- From `s` to `t` the wire took only levels with SCK and RST as at `s`. -/
structure SckRstKept (s t : State) : Prop where
  sck : t.wire.sck = s.wire.sck
  rst : t.wire.rst = s.wire.rst
  levels : ∃ ws, wires t.env.trace = ws ++ wires s.env.trace ∧ ∀ w ∈ ws, w.sck = s.wire.sck ∧ w.rst = s.wire.rst

theorem SckRstKept.refl (s : State) : SckRstKept s s := ⟨rfl, rfl, [], rfl, nofun⟩

/-- A write of CTRL can change the owner of SCK, not its level (R244). -/
theorem setCtrl_sckRstKept (c : Byte) {s : State} (outSck : s.outSck = false) (engSck : s.engSck = false) :
    SckRstKept s (s.setCtrl c) := by
  have sck : (s.setCtrl c).wire.sck = s.wire.sck :=
    (State.wire_sck_of_rest (s := s.setCtrl c) outSck engSck).trans (State.wire_sck_of_rest outSck engSck).symm
  refine ⟨sck, rfl, [(s.setCtrl c).wire], rfl, fun w mem => ?_⟩
  rw [List.mem_singleton.1 mem]
  exact ⟨sck, rfl⟩

/-- Either branch of `SetSpeed` reaches the wire by its write of CTRL only (R92, R93). -/
theorem setSetting_sckRstKept (o : Setting) {s : State} (outSck : s.outSck = false) (engSck : s.engSck = false) :
    SckRstKept s (setSetting o s) := by
  unfold setSetting
  split
  · split
    case h_1 row _ =>
      obtain ⟨sck, rst, levels⟩ := setCtrl_sckRstKept (ctrlEnabled row.presc)
        (s := { s with
          xport := .hw, swDelay := params.swDelayHw, status := withDbl row.dbl s.status,
          engMosi := ctrlEn s.ctrl && s.engMosi }) outSck engSck
      exact ⟨sck, rst, levels⟩
    case h_2 => exact SckRstKept.refl s
  · obtain ⟨sck, rst, levels⟩ := setCtrl_sckRstKept ctrlDisabled
      (s := { s with xport := .sw, swDelay := softwareDelay o }) outSck engSck
    exact ⟨sck, rst, levels⟩

/-- Settles O17: issue and return touch no line, and in between `setSetting` keeps SCK and RST. -/
theorem setSpeedNoClockEdge : Obligations.SetSpeedNoClockEdge := by
  intro o s t outSck engSck h
  obtain ⟨-, -, rfl⟩ := execSetSpeed_next h
  obtain ⟨sck, rst, levels⟩ := setSetting_sckRstKept (mapAuto o) (s := { s with busy := true }) outSck engSck
  exact ⟨sck, rst, levels⟩

end Sys2Proof.Machine
end

section
/-! Power-on reset (R220 to R224): the values of the reset table, and the invariant from them. -/

namespace Sys2Proof.Machine

/-- A power-on reset does nothing on the link (R223, R224). -/
theorem powerOn_did (d : ResetDraw) (s : State) : Did [] s (State.powerOn d s) := rfl

/-- It releases the three lines (R223). -/
theorem powerOn_wire (d : ResetDraw) (s : State) : (State.powerOn d s).wire = Wire.released :=
  Released.wire ⟨rfl, rfl, rfl⟩

/-- Settles O54: after the step's one equation, every register is at the value `State.resetWith` gives it. -/
theorem powerOnResets : Obligations.PowerOnResets := by
  intro d s presented
  refine ⟨_, step_powerOn presented, ?_⟩
  have wire := powerOn_wire d s.taken
  have did := powerOn_did d s.taken
  exact ⟨rfl, rfl, rfl, rfl, rfl, rfl, rfl, rfl, rfl, rfl, rfl, rfl, rfl, rfl, rfl, rfl, rfl, rfl, rfl, rfl, rfl, rfl, rfl,
    rfl, rfl, rfl, wire, did, rfl⟩

/-- The reset table meets the invariant (R221, R222); the target's memories are the environment's own. -/
theorem inv_resetWith (d : ResetDraw) {env : Env} (host : HostPort) (wf : env.target.wf = true) :
    Invariant (State.resetWith d env host) := by
  have registers : RegistersLegal (State.resetWith d env host) := ⟨Nat.zero_le 12, rfl, rfl, fun _ => rfl, .inl rfl⟩
  have unbound : (State.resetWith d env host).speed = params.idxAuto := rfl
  exact Invariant.mk ⟨registers, absurd unbound, ⟨rfl, rfl, rfl, rfl, rfl, rfl, rfl⟩, wf⟩ rfl

/-- Settles O55: `State.reset` is the reset that draws zeros, in an environment without memories. -/
theorem resetMeetsInv : Obligations.ResetMeetsInv :=
  ⟨inv_resetWith ResetDraw.zero HostPort.quiet rfl, fun d _ host wf => inv_resetWith d host wf⟩

end Sys2Proof.Machine
end
